-- ==== Sys2Proof/Word.lean ====
section
/-! DEFINITION. The words of the two ports and of the registers, bit 0 least significant (00_scope.md R9, 30_encoding.md R90). -/

namespace Sys2Proof

/-- One command word `CMD` on the 64-bit command port (R90, R91). -/
abbrev Command := BitVec 64

/-- One response word `RSP` on the 32-bit response port, read as two's complement (R90). -/
abbrev Response := BitVec 32

/-- A byte of the optional byte-wide transport (20_memory.md R64). -/
abbrev Byte := BitVec 8

end Sys2Proof
end

