-- ==== Sys2Proof/Machine/Arith.lean ====
section
/-! DEFINITION. The arithmetic primitives of 00_scope.md R10 and the integer roots and logarithms from which the `DEFAULT` tables are
built (Machine/Tables.lean). -/

namespace Sys2Proof.Machine

/-- `asr(x, n) = floor(x / 2^n)`, toward minus infinity (R10, 44_arith_laws.md R232). -/
def asr (x : Int) (n : Nat) : Int := x >>> n

/-- `tdiv(a, b)`, the quotient rounded toward zero (R10, R232). -/
def tdiv (a b : Int) : Int := a.tdiv b

/-- `u32(x) = x mod 2^32`, as a register holds it (R10). -/
def u32 (x : Int) : BitVec 32 := BitVec.ofInt 32 x

/-- `floor(q)` of a non-negative rational (R8, R10). -/
def floorNat (q : ℚ) : Nat := q.floor.toNat

/-- A rational saturated at 2^32 - 1 after its floor (41_envelope.md R145). -/
def floorSat (q : ℚ) : BitVec 32 := BitVec.ofNat 32 (min (floorNat q) (2 ^ 32 - 1))

/-- The greatest `n` with `n^k <= x` among those that begin with the candidate and vary its low `bits` bits. -/
def rootFrom (k x : Nat) : (bits candidate : Nat) → Nat
  | 0, n => n
  | b + 1, n => if (n + 2 ^ b) ^ k ≤ x then rootFrom k x b (n + 2 ^ b) else rootFrom k x b n

/-- The floor of the `k`-th root of `x`, known to be below `2^bits`. -/
def rootFloor (k x bits : Nat) : Nat := rootFrom k x bits 0

/-- `bits` binary digits of the logarithm of `y / scale` to base 32767, for `scale <= y < 32767 * scale`: each squaring doubles the
logarithm and its integer part is the next digit. -/
def logDigits (scale : Nat) : (bits y : Nat) → Nat
  | 0, _ => 0
  | b + 1, y =>
    if 32767 * scale ≤ y * y / scale then 2 ^ b + logDigits scale b (y * y / scale / 32767)
    else logDigits scale b (y * y / scale)

/-- The fixed-point scale of the table formulas: 256 fraction bits. -/
def logScale : Nat := 2 ^ 256

/-- `floor(2^bits * log(v) / log(32767))` for `1 <= v < 32767^3`. -/
def logFloor (bits v : Nat) : Nat :=
  if v < 32767 then logDigits logScale bits (v * logScale)
  else if v < 32767 ^ 2 then 2 ^ bits + logDigits logScale bits (v * logScale / 32767)
  else 2 * 2 ^ bits + logDigits logScale bits (v * logScale / 32767 ^ 2)

/-- The fixed-point scale of the sine formula: 39 decimal digits. -/
def sineScale : Nat := 10 ^ 39

/-- `1 - z / ((j+1)(j+2)) * (1 - z / ((j+3)(j+4)) * ...)`, `terms` factors deep, with `z` and the result scaled by `sineScale`:
the nested form of the power series of cosine (`j = 0`) and of sine over its argument (`j = 1`). -/
def nestedSeries (z : Nat) : (terms j : Nat) → Nat
  | 0, _ => sineScale
  | t + 1, j => sineScale - z * nestedSeries z t (j + 2) / (sineScale * (j + 1) * (j + 2))

/-- `2 * pi * k / 4096`, scaled. -/
def angle4096 (k : Nat) : Nat := 2 * 3141592653589793238462643383279502884197 * k / 4096

/-- `sin(2 * pi * k / 4096)`, scaled, for `k` up to an eighth of a turn. -/
def sineSeries (k : Nat) : Nat :=
  angle4096 k * nestedSeries (angle4096 k * angle4096 k / sineScale) 16 1 / sineScale

/-- `cos(2 * pi * k / 4096)`, scaled, for `k` up to an eighth of a turn. -/
def cosineSeries (k : Nat) : Nat := nestedSeries (angle4096 k * angle4096 k / sineScale) 16 0

/-- `trunc(32767 * sin(2 * pi * k / 4096))` for `k` in the first quarter turn, 0 to 1024. -/
def sineQuarter (k : Nat) : Nat :=
  32767 * (if k ≤ 512 then sineSeries k else cosineSeries (1024 - k)) / sineScale

end Sys2Proof.Machine
end

