-- ==== Sys2Proof/Machine/Operands.lean ====
section
/-! DEFINITION. Operand assembly: the value each command field stands for (00_scope.md R13, 30_encoding.md R97). -/

namespace Sys2Proof.Machine

/-- A `Q16.16` field: the rational `w / 65536`, in Hz or in samples per cycle (R13, R97). -/
def q16 (w : BitVec 32) : ℚ := w.toNat / 65536

/-- The word a `Q16.16` operand is assembled to: `floor(value * 65536)` (R101). -/
def q16OfRat (q : ℚ) : BitVec 32 := BitVec.ofNat 32 (floorNat (q * 65536))

/-- An `HZ20` field: an integer number of samples per second, 0 meaning not set (R13, R97). -/
def hz20 (w : BitVec 20) : Nat := w.toNat

/-- An `S32` field (R13, R97). -/
def s32 (w : BitVec 32) : Int := w.toInt

/-- An `S9` field, -256 to 255 (R13, R97). -/
def s9 (w : BitVec 9) : Int := w.toInt

end Sys2Proof.Machine
end

