-- ==== Sys2Proof/Config.lean ====
section
/-! DEFINITION. The configuration record of 00_scope.md R6: every number and table the source uses but does not print,
the constraints each must meet, and the names of the configurations an FMVC block can be built with.
The contents of the two named configurations are in Machine/Tables.lean. -/

namespace Sys2Proof

/-- A set of operators, one membership bit for each of OP1 to OP4 (43_soundgen.md R206). -/
structure OpSet where
  op1 : Bool
  op2 : Bool
  op3 : Bool
  op4 : Bool
  deriving DecidableEq, Repr

/-- A routing row of `ALG_TABLE` (R206): the modulators of OP2, OP3 and OP4, and the carriers. -/
structure AlgRow where
  m2 : OpSet
  m3 : OpSet
  m4 : OpSet
  c : OpSet
  deriving DecidableEq, Repr

/-- R206 (b) and (c): an operator is modulated only by lower-numbered ones, and there is a carrier. -/
abbrev AlgRow.Valid (r : AlgRow) : Prop :=
  r.m2.op2 = false ∧ r.m2.op3 = false ∧ r.m2.op4 = false ∧
  r.m3.op3 = false ∧ r.m3.op4 = false ∧
  r.m4.op4 = false ∧
  (r.c.op1 = true ∨ r.c.op2 = true ∨ r.c.op3 = true ∨ r.c.op4 = true)

/-- R206 (d), R207 row 0: the fully serial chain. -/
def AlgRow.serial : AlgRow :=
  { m2 := ⟨true, false, false, false⟩, m3 := ⟨false, true, false, false⟩,
    m4 := ⟨false, false, true, false⟩, c := ⟨false, false, false, true⟩ }

/-- R206 (e), R207 row 7: fully parallel. -/
def AlgRow.parallel : AlgRow :=
  { m2 := ⟨false, false, false, false⟩, m3 := ⟨false, false, false, false⟩,
    m4 := ⟨false, false, false, false⟩, c := ⟨true, true, true, true⟩ }

/-- The configuration record (R6, R61). A table indexed by a register takes the register's own width as its index
(20_memory.md R62); `SINE_ROM`, `EXP_ROM`, `LIN2LOG` and `VIB_ROM` take the computed index. Real-valued entries are
exact rationals (R8). -/
structure Config where
  sineDiv : Nat
  phaseFrac : Nat
  sineRom : Nat → Int
  modFull : Nat
  logSize : Nat
  logFrac : Nat
  expRom : Nat → Nat
  lin2log : Nat → Nat
  tlRom : BitVec 7 → Nat
  slRom : BitVec 4 → BitVec 7 → Nat
  arateRom : BitVec 6 → BitVec 7 → ℚ
  rrateRom : BitVec 6 → BitVec 7 → ℚ
  soundoffLevel : Nat
  keyscaleRom : BitVec 2 → BitVec 7 → Nat
  detuneRom : BitVec 2 → BitVec 7 → ℚ
  amsRom : BitVec 2 → Nat
  algTable : BitVec 3 → AlgRow
  fbshiftRom : BitVec 3 → Nat
  fbPreshift : Nat
  lfofreqRom : BitVec 3 → ℚ
  vibRom : Int → Int

/-- `FBSHIFT_ROM`, the one table the source prints: 31, 6, 5, 4, 3, 2, 1, 0 (R6, 43_soundgen.md R208). -/
def fbshiftTable (f : BitVec 3) : Nat := [31, 6, 5, 4, 3, 2, 1, 0].getD f.toNat 0

/-- The constraint column of R6, with the `ALG_TABLE` constraints of R206. -/
structure Config.Valid (c : Config) : Prop where
  sineDiv_pow : ∃ k, c.sineDiv = 2 ^ k
  sineDiv_ge : 4 ≤ c.sineDiv
  sineDiv_dvd : c.sineDiv ∣ 2 ^ (32 - c.phaseFrac)
  phaseFrac_range : 1 ≤ c.phaseFrac ∧ c.phaseFrac ≤ 31
  sineRom_bound : ∀ i, i < c.sineDiv → -32767 ≤ c.sineRom i ∧ c.sineRom i ≤ 32767
  sineRom_zero : c.sineRom 0 = 0
  modFull_pow : ∃ k, c.modFull = 2 ^ k
  logSize_ge : 2 ≤ c.logSize
  log_span : c.logSize * 2 ^ c.logFrac ≤ 2 ^ 32
  expRom_mono : ∀ i j, i ≤ j → j < c.logSize → c.expRom i ≤ c.expRom j
  expRom_zero : c.expRom 0 ≤ 1
  lin2log_bound : ∀ v, v < 2 ^ 31 → c.lin2log v < 2 ^ 32
  lin2log_mono : ∀ v w, v ≤ w → w < 2 ^ 31 → c.lin2log v ≤ c.lin2log w
  lin2log_zero : c.lin2log 0 = 0
  tlRom_range : ∀ t, 1 ≤ c.tlRom t ∧ c.tlRom t ≤ 32767
  tlRom_anti : ∀ t u : BitVec 7, t ≤ u → c.tlRom u ≤ c.tlRom t
  slRom_bound : ∀ s t, c.slRom s t < 2 ^ 32
  slRom_anti : ∀ (r s : BitVec 4) (t : BitVec 7), r ≤ s → c.slRom s t ≤ c.slRom r t
  arateRom_range : ∀ r t, 0 ≤ c.arateRom r t ∧ c.arateRom r t ≤ 2 ^ 30
  rrateRom_nonneg : ∀ r t, 0 ≤ c.rrateRom r t
  soundoffLevel_ge : 2 ≤ c.soundoffLevel
  detuneRom_nonneg : ∀ d k, 0 ≤ c.detuneRom d k
  detuneRom_zero : ∀ k, c.detuneRom 0 k = 0
  amsRom_zero : c.amsRom 0 = 0
  amsRom_bound : ∀ a, (c.amsRom a / 2) * 256 ≤ 32768
  algTable_rows : ∀ a, (c.algTable a).Valid
  algTable_serial : c.algTable 0 = AlgRow.serial
  algTable_parallel : c.algTable 7 = AlgRow.parallel
  fbshiftRom_fixed : ∀ f, c.fbshiftRom f = fbshiftTable f
  fbPreshift_le : c.fbPreshift ≤ 15
  lfofreqRom_pos : ∀ i, 0 < c.lfofreqRom i
  vibRom_zero : c.vibRom 0 = 0

/-- The configuration a block is built with (R7): one of the two that the spec names, or some other record that meets
the constraints of R6 and of which nothing else is known. -/
inductive ConfigName where
  | dflt   -- `DEFAULT`: the default column of R6, `FB_PRESHIFT` 0, `DETUNE_ROM` zero
  | t8     -- `T8`: 95_test_vectors.md section 2
  | given  -- any other record that meets R6 (93_implementation_defined.md U6 to U9: a parameter)
  deriving DecidableEq, Repr

/-- A record that meets R6, chosen only to show that the constraints can be met together. -/
def Config.witness : Config where
  sineDiv := 4
  phaseFrac := 1
  sineRom := fun _ => 0
  modFull := 1
  logSize := 2
  logFrac := 0
  expRom := fun _ => 0
  lin2log := fun _ => 0
  tlRom := fun _ => 1
  slRom := fun _ _ => 0
  arateRom := fun _ _ => 0
  rrateRom := fun _ _ => 0
  soundoffLevel := 2
  keyscaleRom := fun _ _ => 0
  detuneRom := fun _ _ => 0
  amsRom := fun _ => 0
  algTable := fun a => if a = 7 then AlgRow.parallel else AlgRow.serial
  fbshiftRom := fbshiftTable
  fbPreshift := 0
  lfofreqRom := fun _ => 1
  vibRom := fun _ => 0

theorem Config.witness_valid : Config.witness.Valid where
  sineDiv_pow := ⟨2, rfl⟩
  sineDiv_ge := by decide
  sineDiv_dvd := ⟨2 ^ 29, by decide⟩
  phaseFrac_range := by decide
  sineRom_bound := by simp [Config.witness]
  sineRom_zero := rfl
  modFull_pow := ⟨0, rfl⟩
  logSize_ge := by decide
  log_span := by decide
  expRom_mono := by simp [Config.witness]
  expRom_zero := by decide
  lin2log_bound := by simp [Config.witness]
  lin2log_mono := by simp [Config.witness]
  lin2log_zero := rfl
  tlRom_range := by simp [Config.witness]
  tlRom_anti := by simp [Config.witness]
  slRom_bound := by simp [Config.witness]
  slRom_anti := by simp [Config.witness]
  arateRom_range := by simp [Config.witness]
  rrateRom_nonneg := by simp [Config.witness]
  soundoffLevel_ge := by decide
  detuneRom_nonneg := by simp [Config.witness]
  detuneRom_zero := by simp [Config.witness]
  amsRom_zero := rfl
  amsRom_bound := by simp [Config.witness]
  algTable_rows := by decide
  algTable_serial := by decide
  algTable_parallel := by decide
  fbshiftRom_fixed := by simp [Config.witness]
  fbPreshift_le := by decide
  lfofreqRom_pos := by simp [Config.witness]
  vibRom_zero := rfl

/-- A configuration together with the proof that it meets R6. -/
structure ValidConfig where
  cfg : Config := Config.witness
  valid : cfg.Valid := by exact Config.witness_valid
  deriving Inhabited

/-- FREE VALUE (R6, R7; assumption 3): the record of a block built with neither named configuration. It has no body:
nothing is known of it but that it meets R6, so what is proved of it is proved for every such record. -/
opaque Config.given : ValidConfig

end Sys2Proof
end

