-- ==== Sys2Proof/Machine/State.lean ====
section
/-! DEFINITION. The state of one FMVC block as plain data (10_state.md R20 to R36), the two reason types, and reset (R36, R260).
Beside the registers, State carries what the spec makes a parameter of the step and not a register (R20): the commands the
host has still to present, the last response, and the name of the configuration (assumptions 1 to 4). -/

namespace Sys2Proof.Machine

/-- The envelope state register `ST`, its eight values in the order of their codes 0 to 7 (R26). -/
inductive EgState where
  | attack
  | decay
  | sastain
  | release
  | attackRelease
  | decayRelease
  | soundoff
  | finished
  deriving DecidableEq, Repr

/-- An oscillator unit `OSC[u]` (R25). -/
structure Osc where
  pos : BitVec 32   -- `POS`, the phase accumulator
  step : BitVec 32  -- `STEP`, the phase step per sample
  deriving DecidableEq, Repr

/-- An envelope unit `EG[e]` (R26 to R30). -/
structure Eg where
  st : EgState         -- `ST`
  cur : BitVec 32      -- `CUR`: linear amplitude or log code, by `ST` (R27)
  rar : BitVec 6       -- `RAR`
  rdr : BitVec 6       -- `RDR`
  rsr : BitVec 6       -- `RSR`
  rrr : BitVec 6       -- `RRR`
  sl : BitVec 4        -- `SL`
  tl : BitVec 7        -- `TL`
  rate : BitVec 20     -- `RATE`, 0 meaning not set (R29)
  hold : BitVec 15     -- `HOLD`, standing for `HOLD / 16129`
  freeze : BitVec 7    -- `FREEZE`, standing for `FREEZE / 127`
  fTl : BitVec 16      -- `FTL`, latched (R30)
  fSl : BitVec 32      -- `FSL`
  fAr : BitVec 32      -- `FAR`
  fDr : BitVec 32      -- `FDR`
  fSr : BitVec 32      -- `FSR`
  fRr : BitVec 32      -- `FRR`
  fOr : BitVec 32      -- `FOR`
  deriving DecidableEq, Repr

/-- An operator unit's own registers (R31); its oscillator and envelope stand in the other banks. -/
structure OpRegs where
  ks : BitVec 2
  ml : BitVec 4
  dt : BitVec 3
  ams : BitVec 2
  key : BitVec 7
  deriving DecidableEq, Repr

/-- The sound-generator unit `SG` (R32). -/
structure SgRegs where
  alg : BitVec 3
  fb : BitVec 3
  lfoIdx : BitVec 3
  fbReg : BitVec 32     -- `FBREG`, signed
  damper : BitVec 7
  sost : BitVec 7
  vibDepth : BitVec 13
  trmDepth : BitVec 7
  vibFreq : BitVec 32   -- Q16.16 Hz
  trmFreq : BitVec 32   -- Q16.16 Hz
  sgRate : BitVec 20    -- 0 meaning not set
  deriving DecidableEq, Repr

/-- The seven oscillators `OSC[0]` to `OSC[6]` (R25). -/
structure OscBank where
  osc1 : Osc
  osc2 : Osc
  osc3 : Osc
  osc4 : Osc
  lfoAm : Osc
  lfoVib : Osc
  lfoTrm : Osc
  deriving DecidableEq, Repr

/-- The four envelope generators `EG[0]` to `EG[3]`. -/
structure EgBank where
  eg1 : Eg
  eg2 : Eg
  eg3 : Eg
  eg4 : Eg
  deriving DecidableEq, Repr

/-- The four operators' register banks `OP[0]` to `OP[3]`. -/
structure OpBank where
  op1 : OpRegs
  op2 : OpRegs
  op3 : OpRegs
  op4 : OpRegs
  deriving DecidableEq, Repr

/-- What the host can do to the block (R21): present one command word, or assert `RESET` between commands (R260). -/
inductive HostEvent where
  | command (w : Command)
  | reset
  deriving DecidableEq, Repr

/-- Why a step could stop with a fault. It has no constructor: FMVC has no exception of any kind, every command completes and
returns exactly one response (60_exceptions.md R240), so no step of this model can fault. Safe: nothing is hidden by it. -/
inductive Fault where
  deriving DecidableEq, Repr

/-- Why a step could be refused. -/
inductive Refusal where
  /-- Raised only by an arm of `exec` whose instruction has no meaning yet (safe); every arm has one, so it is never raised. -/
  | notModelled (mnemonic : String)
  deriving DecidableEq, Repr

/-- The state. -/
structure State where
  osc : OscBank           -- R25
  eg : EgBank             -- R26 to R30
  op : OpBank             -- R31
  sg : SgRegs             -- R32
  rsp : Response          -- the response port: the last command's response (R90; assumption 2)
  host : List HostEvent   -- what the host has still to present, oldest first (R21, R70; assumption 1)
  cfg : ConfigName        -- which configuration the block was built with (R7, R63; assumption 3)
  deriving DecidableEq, Repr

/-- Reset values of an oscillator (R36). -/
def Osc.reset : Osc := { pos := 0, step := 0 }

/-- Reset values of an envelope unit (R36): `ST` is FINISHED, the rest is 0. -/
def Eg.reset : Eg :=
  { st := .finished, cur := 0, rar := 0, rdr := 0, rsr := 0, rrr := 0, sl := 0, tl := 0, rate := 0, hold := 0,
    freeze := 0, fTl := 0, fSl := 0, fAr := 0, fDr := 0, fSr := 0, fRr := 0, fOr := 0 }

/-- Reset values of an operator's registers (R36). -/
def OpRegs.reset : OpRegs := { ks := 0, ml := 0, dt := 0, ams := 0, key := 0 }

/-- Reset values of the sound generator (R36). -/
def SgRegs.reset : SgRegs :=
  { alg := 0, fb := 0, lfoIdx := 0, fbReg := 0, damper := 0, sost := 0, vibDepth := 0, trmDepth := 0, vibFreq := 0,
    trmFreq := 0, sgRate := 0 }

/-- The block right after reset (R36, R260), with no command presented yet, a response port of 0 and the configuration
`DEFAULT` (assumptions 1, 2 and 4: these three are the model's own fields). -/
def State.reset : State :=
  { osc := { osc1 := Osc.reset, osc2 := Osc.reset, osc3 := Osc.reset, osc4 := Osc.reset, lfoAm := Osc.reset,
             lfoVib := Osc.reset, lfoTrm := Osc.reset }
    eg := { eg1 := Eg.reset, eg2 := Eg.reset, eg3 := Eg.reset, eg4 := Eg.reset }
    op := { op1 := OpRegs.reset, op2 := OpRegs.reset, op3 := OpRegs.reset, op4 := OpRegs.reset }
    sg := SgRegs.reset
    rsp := 0
    host := []
    cfg := .dflt }

end Sys2Proof.Machine
end

