-- ==== Sys2Proof/Machine/Tables.lean ====
section
/-! DEFINITION. The contents of the two named configurations: `DEFAULT` from the formulas of 00_scope.md R6 and 41_envelope.md R141 to
R144, and `T8` from 95_test_vectors.md section 2. Each formula is evaluated exactly in integers, as section 3's opening
requires. -/

namespace Sys2Proof.Machine

/-- `SINE_ROM`: `trunc(32767 * sin(2*pi*i / 4096))` (R6, R120), from the first quarter turn by symmetry. -/
def dfltSine (i : Nat) : Int :=
  let j := i % 4096
  if j ≤ 1024 then sineQuarter j
  else if j ≤ 2048 then sineQuarter (2048 - j)
  else if j ≤ 3072 then -(sineQuarter (j - 2048) : Int)
  else -(sineQuarter (4096 - j) : Int)

/-- `EXP_ROM[i] = trunc(32767^(i / 4096))` (R142). -/
def dfltExp (i : Nat) : Nat := rootFloor 4096 (32767 ^ i) 15

/-- `LIN2LOG(v) = trunc(2^16 * (4096 / log10(32767)) * log10(v))`, and 0 for `v = 0` (R142); a code step is
`log(v) / log(32767)` in units of `2^-28`. -/
def dfltLin2log (v : Nat) : Nat := if v = 0 then 0 else logFloor 28 v

/-- `TL_ROM[t] = max(1, trunc(32767 * 10^(-0.075*t)))` (R141): the 40th root of `32767^40 / 10^(3t)`. -/
def dfltTl (t : BitVec 7) : Nat := max 1 (rootFloor 40 (32767 ^ 40 / 10 ^ (3 * t.toNat)) 15)

/-- `floor(2^92 * log(10) / log(32767))`. -/
def logTen : Nat := logFloor 92 10

/-- `SL_ROM[s][t]` (R143): with `m = 3*t + 12*s` the level is `log10(32767) - m/40`, and the code is
`floor(2^28 * (1 - m/40 * log(10)/log(32767)))`. -/
def dfltSl (s : BitVec 4) (t : BitVec 7) : Nat :=
  let m := 3 * t.toNat + 12 * s.toNat
  if 32767 ^ 40 ≤ 10 ^ m then 0 else (40 * 2 ^ 92 - m * logTen) * 2 ^ 28 / (40 * 2 ^ 92)

/-- `ARATE_ROM[r][t] = floor(TL_ROM[t] / (15.3262 * 10^(-0.075*r)))` (R144). -/
def dfltArate (r : BitVec 6) (t : BitVec 7) : Nat :=
  rootFloor 40 ((dfltTl t * 10000) ^ 40 * 10 ^ (3 * r.toNat) / 153262 ^ 40) 30

/-- `RRATE_ROM[r][t] = floor(2^16 * K * 4.8 / (211.84 * 10^(-0.075*r)))` for every `t`, with `2^16 * K = 2^28 / log10(32767)` (R144). -/
def dfltRrate (r : BitVec 6) : Nat :=
  rootFloor 40 ((logTen * 2 ^ 28 * 480) ^ 40 * 10 ^ (3 * r.toNat) / (21184 * 2 ^ 92) ^ 40) 40

/-- `KEYSCALE_ROM[k][key] = key >> (5 - k)` (R181); the same in both configurations. -/
def dfltKeyscale (k : BitVec 2) (key : BitVec 7) : Nat := key.toNat >>> (5 - k.toNat)

/-- `AMS_ROM = 0, 36, 95, 119` (R187); the same in both configurations. -/
def dfltAms (a : BitVec 2) : Nat := [0, 36, 95, 119].getD a.toNat 0

/-- The default routing rows (43_soundgen.md R207): `M2`, `M3`, `M4`, carriers. -/
def dfltAlg (a : BitVec 3) : AlgRow :=
  match a.toNat with
  | 0 => AlgRow.serial
  | 1 => ⟨⟨false, false, false, false⟩, ⟨true, true, false, false⟩, ⟨false, false, true, false⟩, ⟨false, false, false, true⟩⟩
  | 2 => ⟨⟨false, false, false, false⟩, ⟨false, true, false, false⟩, ⟨true, false, true, false⟩, ⟨false, false, false, true⟩⟩
  | 3 => ⟨⟨true, false, false, false⟩, ⟨false, false, false, false⟩, ⟨false, true, true, false⟩, ⟨false, false, false, true⟩⟩
  | 4 => ⟨⟨true, false, false, false⟩, ⟨false, false, false, false⟩, ⟨false, false, true, false⟩, ⟨false, true, false, true⟩⟩
  | 5 => ⟨⟨true, false, false, false⟩, ⟨true, false, false, false⟩, ⟨true, false, false, false⟩, ⟨false, true, true, true⟩⟩
  | 6 => ⟨⟨true, false, false, false⟩, ⟨false, false, false, false⟩, ⟨false, false, false, false⟩, ⟨false, true, true, true⟩⟩
  | _ => AlgRow.parallel

/-- `LFOFREQ_ROM`: 3.98, 5.56, 6.02, 6.37, 6.88, 9.63, 48.1, 72.2 Hz (R204). -/
def dfltLfofreq (i : BitVec 3) : ℚ := ([398, 556, 602, 637, 688, 963, 4810, 7220].getD i.toNat 100 : Nat) / 100

/-- `VIB_ROM(x) = trunc((2^(x/768) - 1) * 65536)` (R209): `floor(2^(16 + x/768)) - 65536` upward; downward the difference is negative
and `trunc` takes the ceiling. -/
def dfltVib (x : Int) : Int :=
  match x with
  | .ofNat m => (rootFloor 768 (2 ^ (12288 + m)) 28 : Int) - 65536
  | .negSucc n =>
    let m := n + 1
    let y := rootFloor 768 (2 ^ (12288 - m)) 17
    (if y ^ 768 = 2 ^ (12288 - m) then (y : Int) else (y : Int) + 1) - 65536

/-- `DEFAULT` (R6, R7). -/
def dfltConfig : Config where
  sineDiv := 4096
  phaseFrac := 15
  sineRom := dfltSine
  modFull := 65536
  logSize := 4096
  logFrac := 16
  expRom := dfltExp
  lin2log := dfltLin2log
  tlRom := dfltTl
  slRom := dfltSl
  arateRom := fun r t => dfltArate r t
  rrateRom := fun r _ => dfltRrate r
  soundoffLevel := 1024
  keyscaleRom := dfltKeyscale
  detuneRom := fun _ _ => 0
  amsRom := dfltAms
  algTable := dfltAlg
  fbshiftRom := fbshiftTable
  fbPreshift := 0
  lfofreqRom := dfltLfofreq
  vibRom := dfltVib

/-- `T8`'s `SINE_ROM`. -/
def t8Sine (i : Nat) : Int := ([0, 23170, 32767, 23170, 0, -23170, -32767, -23170] : List Int).getD (i % 8) 0

/-- `T8`'s `EXP_ROM`. -/
def t8Exp (i : Nat) : Nat :=
  [1, 2, 4, 8, 16, 32, 64, 128, 256, 512, 1024, 2048, 4096, 8192, 16384, 32767].getD i 32767

/-- `T8`'s `LIN2LOG`: `n * 65536 + floor((v - 2^n) * 65536 / 2^n)` with `n = floor(log2(v))`. -/
def t8Lin2log (v : Nat) : Nat :=
  if v = 0 then 0 else v.log2 * 65536 + (v - 2 ^ v.log2) * 65536 / 2 ^ v.log2

/-- `T8`'s `TL_ROM[t] = max(1, 32767 >> (t >> 3))`. -/
def t8Tl (t : BitVec 7) : Nat := max 1 (32767 >>> (t.toNat >>> 3))

/-- `T8`: the test configuration of 95_test_vectors.md section 2. -/
def t8Config : Config where
  sineDiv := 8
  phaseFrac := 15
  sineRom := t8Sine
  modFull := 65536
  logSize := 16
  logFrac := 16
  expRom := t8Exp
  lin2log := t8Lin2log
  tlRom := t8Tl
  slRom := fun s t => t8Lin2log (t8Tl t) - s.toNat * 65536
  arateRom := fun r _ => (1000 * (r.toNat + 1) : Nat)
  rrateRom := fun r _ => (4096 * (r.toNat + 1) : Nat)
  soundoffLevel := 16
  keyscaleRom := dfltKeyscale
  detuneRom := fun d _ => d.toNat
  amsRom := dfltAms
  algTable := dfltAlg
  fbshiftRom := fbshiftTable
  fbPreshift := 0
  lfofreqRom := fun i => (i.toNat + 1 : Nat)
  vibRom := fun x => 64 * x

/-- The record a configuration's name stands for (R7). -/
def configOf (n : ConfigName) : Config :=
  match n with
  | .dflt => dfltConfig
  | .t8 => t8Config
  | .given => Config.given.cfg

end Sys2Proof.Machine
end

