-- ==== Sys2Proof/Syntax.lean ====
section
/-! DEFINITION. The commands as syntax: the units, the parameter records and one constructor for each of the 30 rows of
spec/opcode_table.json (30_encoding.md R98). Operand fields have exactly the widths of R94. -/

namespace Sys2Proof

/-- The seven oscillator units of class OSC (00_scope.md R11, 30_encoding.md R93): those of OP1 to OP4 and the three LFOs. -/
inductive OscId where
  | osc1
  | osc2
  | osc3
  | osc4
  | lfoAm
  | lfoVib
  | lfoTrm
  deriving DecidableEq, Repr

/-- The four operators OP1 to OP4; the same number selects the envelope generator in class EG (R11, R93). -/
inductive OpId where
  | op1
  | op2
  | op3
  | op4
  deriving DecidableEq, Repr

/-- `OP[o]` contains `OSC[o]` (R11). -/
def OpId.osc : OpId → OscId
  | .op1 => .osc1
  | .op2 => .osc2
  | .op3 => .osc3
  | .op4 => .osc4

/-- One OperatorParameters record, each field as wide as its range (R5, R96). -/
structure OpParams where
  ar : BitVec 5
  dr : BitVec 5
  sr : BitVec 5
  rr : BitVec 4
  sl : BitVec 4
  tl : BitVec 7
  ks : BitVec 2
  ml : BitVec 4
  dt : BitVec 3
  ams : BitVec 2
  deriving DecidableEq, Repr

/-- One command (R98). The docstring of each constructor gives its opcode, its mnemonic and the rule of its meaning. -/
inductive Instr where
  /-- 0x01 `OSC.SETCYC` (R121); `arg` is Q16.16 samples per cycle. -/
  | oscSetcyc (u : OscId) (arg : BitVec 32)
  /-- 0x02 `OSC.NEXT` (R122). -/
  | oscNext (u : OscId)
  /-- 0x03 `OSC.NEXTM` (R123); `arg` is S32. -/
  | oscNextm (u : OscId) (arg : BitVec 32)
  /-- 0x04 `OSC.ADDPH` (R124); `arg` is S32. -/
  | oscAddph (u : OscId) (arg : BitVec 32)
  /-- 0x10 `EG.INIT` (R148). -/
  | egInit (e : OpId) (rar rdr rsr rrr : BitVec 6) (sl : BitVec 4) (tl : BitVec 7)
  /-- 0x11 `EG.SETRATE` (R149); `rate` is HZ20. -/
  | egSetrate (e : OpId) (rate : BitVec 20)
  /-- 0x12 `EG.UPDATE` (R147). -/
  | egUpdate (e : OpId)
  /-- 0x13 `EG.SETHOLD` (R158); `holdn` is legal up to 16129 (R104). -/
  | egSethold (e : OpId) (holdn : BitVec 15)
  /-- 0x14 `EG.SETFRZ` (R159). -/
  | egSetfrz (e : OpId) (val : BitVec 7)
  /-- 0x15 `EG.KEYOFF` (R157). -/
  | egKeyoff (e : OpId)
  /-- 0x16 `EG.SNDOFF` (R156). -/
  | egSndoff (e : OpId)
  /-- 0x17 `EG.NEXT` (R150). -/
  | egNext (e : OpId)
  /-- 0x20 `OP.INIT` (R180). -/
  | opInit (o : OpId) (p : OpParams) (key : BitVec 7)
  /-- 0x21 `OP.SETFREQ` (R183); `freq` is Q16.16 Hz, `rate` is HZ20. -/
  | opSetfreq (o : OpId) (freq : BitVec 32) (rate : BitVec 20)
  /-- 0x22 `OP.NEXT` (R184). -/
  | opNext (o : OpId)
  /-- 0x23 `OP.NEXTM` (R185); `arg` is S32. -/
  | opNextm (o : OpId) (arg : BitVec 32)
  /-- 0x24 `OP.NEXTAM` (R186); `amv` is S9, `mod` is S32. -/
  | opNextam (o : OpId) (amv : BitVec 9) (mod : BitVec 32)
  /-- 0x25 `OP.FIN` (R188). -/
  | opFin (o : OpId)
  /-- 0x30 `SG.CONFIG` (R201). -/
  | sgConfig (alg fb lfo : BitVec 3)
  /-- 0x31 `SG.SETFREQ` (R203). -/
  | sgSetfreq (freq : BitVec 32) (rate : BitVec 20)
  /-- 0x32 `SG.NEXT` (R211). -/
  | sgNext
  /-- 0x33 `SG.FIN` (R215). -/
  | sgFin
  /-- 0x34 `SG.KEYOFF` (R216). -/
  | sgKeyoff
  /-- 0x35 `SG.SNDOFF` (R217). -/
  | sgSndoff
  /-- 0x36 `SG.SETDAMPER` (R219). -/
  | sgSetdamper (val : BitVec 7)
  /-- 0x37 `SG.SETSOST` (R220). -/
  | sgSetsost (val : BitVec 7)
  /-- 0x38 `SG.SETFRZ` (R221). -/
  | sgSetfrz (val : BitVec 7)
  /-- 0x39 `SG.SETVIB` (R205). -/
  | sgSetvib (depth : BitVec 13) (freq : BitVec 32)
  /-- 0x3A `SG.SETTRM` (R222); `depth` is legal up to 127. -/
  | sgSettrm (depth : BitVec 13) (freq : BitVec 32)
  /-- 0x3F `SG.RESET` (R261). -/
  | sgReset
  deriving DecidableEq, Repr

end Sys2Proof
end

