-- ==== Sys2Proof/Machine/Ops.lean ====
section
/-! DEFINITION. The one home of every register: access to the units of a state (00_scope.md R11), the configuration a state runs with,
the response, and the two whole-machine operations, reset (70_reset_and_hazards.md R260) and ignoring a reserved command
(30_encoding.md R99). FMVC has no exception (60_exceptions.md R240, R245, R246): a reserved command is what stands where a processor
would take one, so there is no exception entry or return to model. -/

namespace Sys2Proof.Machine

/-- The outcome of a command. -/
abbrev Result := Host.Outcome State Fault Refusal

/-- The configuration record the block runs with (R6, R63). -/
def State.config (s : State) : Config := configOf s.cfg

/-- Read oscillator unit `u`. -/
def State.oscAt (s : State) (u : OscId) : Osc :=
  match u with
  | .osc1 => s.osc.osc1
  | .osc2 => s.osc.osc2
  | .osc3 => s.osc.osc3
  | .osc4 => s.osc.osc4
  | .lfoAm => s.osc.lfoAm
  | .lfoVib => s.osc.lfoVib
  | .lfoTrm => s.osc.lfoTrm

/-- Write oscillator unit `u`. -/
def State.setOsc (s : State) (u : OscId) (o : Osc) : State :=
  match u with
  | .osc1 => { s with osc := { s.osc with osc1 := o } }
  | .osc2 => { s with osc := { s.osc with osc2 := o } }
  | .osc3 => { s with osc := { s.osc with osc3 := o } }
  | .osc4 => { s with osc := { s.osc with osc4 := o } }
  | .lfoAm => { s with osc := { s.osc with lfoAm := o } }
  | .lfoVib => { s with osc := { s.osc with lfoVib := o } }
  | .lfoTrm => { s with osc := { s.osc with lfoTrm := o } }

/-- Read envelope unit `e`. -/
def State.egAt (s : State) (e : OpId) : Eg :=
  match e with
  | .op1 => s.eg.eg1
  | .op2 => s.eg.eg2
  | .op3 => s.eg.eg3
  | .op4 => s.eg.eg4

/-- Write envelope unit `e`. -/
def State.setEg (s : State) (e : OpId) (v : Eg) : State :=
  match e with
  | .op1 => { s with eg := { s.eg with eg1 := v } }
  | .op2 => { s with eg := { s.eg with eg2 := v } }
  | .op3 => { s with eg := { s.eg with eg3 := v } }
  | .op4 => { s with eg := { s.eg with eg4 := v } }

/-- Read operator `o`'s own registers. -/
def State.opAt (s : State) (o : OpId) : OpRegs :=
  match o with
  | .op1 => s.op.op1
  | .op2 => s.op.op2
  | .op3 => s.op.op3
  | .op4 => s.op.op4

/-- Write operator `o`'s own registers. -/
def State.setOp (s : State) (o : OpId) (v : OpRegs) : State :=
  match o with
  | .op1 => { s with op := { s.op with op1 := v } }
  | .op2 => { s with op := { s.op with op2 := v } }
  | .op3 => { s with op := { s.op with op3 := v } }
  | .op4 => { s with op := { s.op with op4 := v } }

/-- Write the sound generator's registers. -/
def State.setSg (s : State) (v : SgRegs) : State := { s with sg := v }

/-- `rsp <- v`: the response port carries the low 32 bits (R11, R90, 43_soundgen.md R211; assumption 5). -/
def respond (v : Int) (s : State) : State := { s with rsp := u32 v }

/-- Apply a change to all four operators in the order OP1 to OP4. -/
def forAllOps (f : OpId → State → State) (s : State) : State := f .op4 (f .op3 (f .op2 (f .op1 s)))

/-- Every register takes its reset value (R260); the configuration is not touched, and the ports are no registers. -/
def resetRegisters (s : State) : State :=
  { s with osc := State.reset.osc, eg := State.reset.eg, op := State.reset.op, sg := State.reset.sg }

/-- A reserved command changes no register and returns 0 (R99, R241). -/
def ignoreReserved (s : State) : State := respond 0 s

end Sys2Proof.Machine
end

