-- ==== Sys2Proof/Machine/Envelope.lean ====
section
/-! DEFINITION. Class EG: the envelope generator (41_envelope.md). Each procedure acts on one unit; its form on a state is shared with
the operator and the sound generator. -/

namespace Sys2Proof.Machine

/-- `UpdateParams` (R145): the seven latched registers from the parameter and control registers, each exact rational floored once. -/
def updateParams (c : Config) (e : Eg) : Eg :=
  let div : ℚ := if e.rate = 0 then 1 else (hz20 e.rate : ℚ)
  let a := c.arateRom e.rar e.tl / div
  let d := c.rrateRom e.rdr e.tl / div
  let s := c.rrateRom e.rsr e.tl / div
  let r := c.rrateRom e.rrr e.tl / div
  let a := if a < 1 then 1 else a
  let r := if r < 1 then 1 else r
  let k := (1 - (e.hold.toNat : ℚ) / 16129) * (1 - (e.freeze.toNat : ℚ) / 127)
  { e with
    fAr := BitVec.ofNat 32 (floorNat a)
    fDr := floorSat (d * k)
    fSr := floorSat (s * k)
    fRr := floorSat (r * k)
    fOr := BitVec.ofNat 32 (max 1 (min (floorNat (c.rrateRom 63 0 / div)) (2 ^ 32 - 1)))
    fTl := BitVec.ofNat 16 (c.tlRom e.tl)
    fSl := BitVec.ofNat 32 (c.slRom e.sl e.tl) }

/-- `Dec` (R146): the decoded output of a log-domain `CUR`, the index clamped. -/
def decodeLevel (c : Config) (cur : BitVec 32) : Nat := c.expRom (min (cur.toNat >>> c.logFrac) (c.logSize - 1))

/-- `EgInit` (R148): construction, "Initial = ATTACK". -/
def egInit (c : Config) (rar rdr rsr rrr : BitVec 6) (sl : BitVec 4) (tl : BitVec 7) (e : Eg) : Eg :=
  updateParams c
    { e with rar := rar, rdr := rdr, rsr := rsr, rrr := rrr, sl := sl, tl := tl, rate := 0, hold := 0, freeze := 0,
             st := .attack, cur := 0 }

/-- `EgSetRate` (R149). -/
def egSetRate (c : Config) (rate : BitVec 20) (e : Eg) : Eg := updateParams c { e with rate := rate }

/-- `EgSetHold` (R158). -/
def egSetHold (c : Config) (n : BitVec 15) (e : Eg) : Eg := updateParams c { e with hold := n }

/-- `EgSetFreeze` (R159). -/
def egSetFreeze (c : Config) (v : BitVec 7) (e : Eg) : Eg := updateParams c { e with freeze := v }

/-- `EgKeyOff` (R157). -/
def egKeyOff (e : Eg) : Eg :=
  match e.st with
  | .attack => { e with st := .attackRelease }
  | .decay => { e with st := .decayRelease }
  | .sastain => { e with st := .release }
  | .release => e
  | .attackRelease => e
  | .decayRelease => e
  | .soundoff => e
  | .finished => e

/-- `LIN2LOG` of an amplitude as a level code (R142, R151, R156). -/
def levelCode (c : Config) (v : Nat) : BitVec 32 := BitVec.ofNat 32 (c.lin2log v)

/-- `EgSoundOff` (R156): no effect in FINISHED; a linear level is converted first. -/
def egSoundOff (c : Config) (e : Eg) : Eg :=
  match e.st with
  | .finished => e
  | .attack => { e with cur := levelCode c e.cur.toNat, st := .soundoff }
  | .attackRelease => { e with cur := levelCode c e.cur.toNat, st := .soundoff }
  | .decay => { e with st := .soundoff }
  | .sastain => { e with st := .soundoff }
  | .release => { e with st := .soundoff }
  | .decayRelease => { e with st := .soundoff }
  | .soundoff => { e with st := .soundoff }

/-- The ATTACK and ATTACK_RELEASE arm (R151), handing over to `after`. -/
def egRise (c : Config) (after : EgState) (e : Eg) : Eg × Nat :=
  if e.cur.toNat < e.fTl.toNat then
    ({ e with cur := e.cur + e.fAr }, (e.cur + e.fAr).toNat)
  else
    ({ e with cur := levelCode c e.fTl.toNat, st := after }, e.fTl.toNat)

/-- The common form of the DECAY and DECAY_RELEASE arms (R152, R153): fall by `x` or land on the sustain level and go on to `after`.
`FSL + x` is compared exactly (44_arith_laws.md R231). -/
def egFall (c : Config) (x : BitVec 32) (after : EgState) (e : Eg) : Eg × Nat :=
  let e' : Eg :=
    if e.fSl.toNat + x.toNat < e.cur.toNat then { e with cur := e.cur - x }
    else { e with cur := if e.cur ≤ e.fSl then e.cur else e.fSl, st := after }
  (e', decodeLevel c e'.cur)

/-- The common form of the SASTAIN and SOUNDOFF arms (R154, R160): fall by `x` until the decoded output is 1 or less or the code is
exhausted, then finish. -/
def egFade (c : Config) (x : BitVec 32) (e : Eg) : Eg × Nat :=
  if x.toNat < e.cur.toNat then
    if 1 < decodeLevel c (e.cur - x) then ({ e with cur := e.cur - x }, decodeLevel c (e.cur - x))
    else ({ e with cur := e.cur - x, st := .finished }, 0)
  else ({ e with st := .finished }, 0)

/-- The RELEASE arm (R155). -/
def egReleaseArm (c : Config) (e : Eg) : Eg × Nat :=
  if e.fRr.toNat < e.cur.toNat then
    if decodeLevel c (e.cur - e.fRr) < c.soundoffLevel then
      ({ e with cur := e.cur - e.fRr, st := .soundoff }, decodeLevel c (e.cur - e.fRr))
    else ({ e with cur := e.cur - e.fRr }, decodeLevel c (e.cur - e.fRr))
  else ({ e with st := .finished }, 0)

/-- `max(FDR, FRR)`, the decrement of DECAY_RELEASE (R153). -/
def decayReleaseStep (e : Eg) : BitVec 32 := if e.fDr ≤ e.fRr then e.fRr else e.fDr

/-- `EgNext` (R150): one sample of the envelope, by `ST` at the start of the command. -/
def egNext (c : Config) (e : Eg) : Eg × Nat :=
  match e.st with
  | .attack => egRise c .decay e
  | .attackRelease => egRise c .decayRelease e
  | .decay => egFall c e.fDr .sastain e
  | .decayRelease => egFall c (decayReleaseStep e) .release e
  | .sastain => egFade c e.fSr e
  | .release => egReleaseArm c e
  | .soundoff => egFade c e.fOr e
  | .finished => (e, 0)

/-- A change of envelope unit `e` of a state. -/
def onEg (e : OpId) (f : Eg → Eg) (s : State) : State := s.setEg e (f (s.egAt e))

/-- `EgNext(e)` on a state. -/
def egNextAt (e : OpId) (s : State) : State × Nat :=
  (s.setEg e (egNext s.config (s.egAt e)).1, (egNext s.config (s.egAt e)).2)

/-- `EG.INIT` (R148). -/
def execEgInit (e : OpId) (rar rdr rsr rrr : BitVec 6) (sl : BitVec 4) (tl : BitVec 7) (s : State) : Result :=
  .next (respond 0 (onEg e (egInit s.config rar rdr rsr rrr sl tl) s))

/-- `EG.SETRATE` (R149). -/
def execEgSetrate (e : OpId) (rate : BitVec 20) (s : State) : Result := .next (respond 0 (onEg e (egSetRate s.config rate) s))

/-- `EG.UPDATE` (R147). -/
def execEgUpdate (e : OpId) (s : State) : Result := .next (respond 0 (onEg e (updateParams s.config) s))

/-- `EG.SETHOLD` (R158): a numerator above 16129 makes the command reserved (R99, R104). -/
def execEgSethold (e : OpId) (holdn : BitVec 15) (s : State) : Result :=
  if 16129 < holdn.toNat then .next (ignoreReserved s) else .next (respond 0 (onEg e (egSetHold s.config holdn) s))

/-- `EG.SETFRZ` (R159). -/
def execEgSetfrz (e : OpId) (val : BitVec 7) (s : State) : Result := .next (respond 0 (onEg e (egSetFreeze s.config val) s))

/-- `EG.KEYOFF` (R157). -/
def execEgKeyoff (e : OpId) (s : State) : Result := .next (respond 0 (onEg e egKeyOff s))

/-- `EG.SNDOFF` (R156). -/
def execEgSndoff (e : OpId) (s : State) : Result := .next (respond 0 (onEg e (egSoundOff s.config) s))

/-- `EG.NEXT` (R150). -/
def execEgNext (e : OpId) (s : State) : Result := .next (respond (egNextAt e s).2 (egNextAt e s).1)

end Sys2Proof.Machine
end

