-- ==== Sys2Proof/Machine/Flags.lean ====
section
/-! DEFINITION. The status values: pure functions of the registers, recomputed whenever they are read (10_state.md R33), and the `FIN`
output (30_encoding.md R90). FMVC has no condition codes, so no flag is stored. -/

namespace Sys2Proof.Machine

/-- `OPFIN[o] = (EG[o].ST = FINISHED)` (R33). -/
def opFinished (s : State) (o : OpId) : Bool := (s.egAt o).st == .finished

/-- `AMEN`: some operator has a nonzero `AMS` (R33). -/
def amEnabled (s : State) : Bool :=
  (s.opAt .op1).ams != 0 || (s.opAt .op2).ams != 0 || (s.opAt .op3).ams != 0 || (s.opAt .op4).ams != 0

/-- `VIBON` (R33). -/
def vibOn (s : State) : Bool := s.sg.vibDepth != 0

/-- `TRMON` (R33). -/
def trmOn (s : State) : Bool := s.sg.trmDepth != 0

/-- Membership in a set of operators (R206). -/
def opSetHas (x : OpSet) (o : OpId) : Bool :=
  match o with
  | .op1 => x.op1
  | .op2 => x.op2
  | .op3 => x.op3
  | .op4 => x.op4

/-- The routing row that `ALG` selects (R207). -/
def algRow (s : State) : AlgRow := s.config.algTable s.sg.alg

/-- An operator that is a carrier has finished; a pure modulator does not count (43_soundgen.md R215). -/
def carrierDone (s : State) (o : OpId) : Bool := !opSetHas (algRow s).c o || opFinished s o

/-- `SGFIN`: every carrier of the selected `ALG` has finished (R33, R215). -/
def sgFinished (s : State) : Bool :=
  carrierDone s .op1 && carrierDone s .op2 && carrierDone s .op3 && carrierDone s .op4

/-- The level output `FIN`, equal to `SGFIN` at every moment (R90, 60_exceptions.md R243). -/
def finPin (s : State) : Bool := sgFinished s

end Sys2Proof.Machine
end

