-- ==== Sys2Proof/Machine/Oscillator.lean ====
section
/-! DEFINITION. Class OSC: the sine-phase oscillator (40_oscillator.md). The procedures `OscSetCycle`, `OscNext`, `OscNextM` and
`OscAddPh` act on one unit; their forms on a state are shared with the operator and the sound generator. -/

namespace Sys2Proof.Machine

/-- The table index of a phase before wrapping: `p >> PHASE_FRAC` (R120). -/
def phaseIndex (c : Config) (pos : BitVec 32) : Nat := pos.toNat >>> c.phaseFrac

/-- `Idx(p) = (p >> PHASE_FRAC) mod SINE_DIV` (R120). -/
def sineIndex (c : Config) (pos : BitVec 32) : Nat := phaseIndex c pos % c.sineDiv

/-- `m = tdiv(mod * SINE_DIV, MOD_FULL)` (R123). -/
def modOffset (c : Config) (mod : Int) : Int := tdiv (mod * c.sineDiv) c.modFull

/-- `((POS >> PHASE_FRAC) + m) mod SINE_DIV`, in range for a negative `m` too (R123). -/
def modIndex (c : Config) (pos : BitVec 32) (mod : Int) : Nat :=
  (((phaseIndex c pos : Int) + modOffset c mod) % (c.sineDiv : Int)).toNat

/-- `OscSetCycle` (R121): the step that makes one turn in `cycle` samples; cycle 0 stops the phase. -/
def oscSetCycle (c : Config) (cycle : ℚ) (o : Osc) : Osc :=
  if cycle = 0 then { o with step := 0 }
  else { o with step := u32 (((c.sineDiv : ℚ) * (2 ^ c.phaseFrac : Nat) / cycle).floor) }

/-- The accumulator advances by the step, modulo 2^32 (R122). -/
def oscAdvance (o : Osc) : Osc := { o with pos := o.pos + o.step }

/-- `OscNext` (R122): advance, then look up. -/
def oscNext (c : Config) (o : Osc) : Osc × Int := (oscAdvance o, c.sineRom (sineIndex c (oscAdvance o).pos))

/-- `OscNextM` (R123): as `OscNext`, with the lookup index of this one sample offset. -/
def oscNextM (c : Config) (mod : Int) (o : Osc) : Osc × Int :=
  (oscAdvance o, c.sineRom (modIndex c (oscAdvance o).pos mod))

/-- `OscAddPh` (R124): move the phase by `x / 65536` of a step, floored. -/
def oscAddPh (x : Int) (o : Osc) : Osc := { o with pos := o.pos + u32 (asr ((o.step.toNat : Int) * x) 16) }

/-- `OscSetCycle(u, cycle)` on a state. -/
def oscSetCycleAt (u : OscId) (cycle : ℚ) (s : State) : State := s.setOsc u (oscSetCycle s.config cycle (s.oscAt u))

/-- `OscNext(u)` on a state. -/
def oscNextAt (u : OscId) (s : State) : State × Int :=
  (s.setOsc u (oscNext s.config (s.oscAt u)).1, (oscNext s.config (s.oscAt u)).2)

/-- `OscNextM(u, mod)` on a state. -/
def oscNextMAt (u : OscId) (mod : Int) (s : State) : State × Int :=
  (s.setOsc u (oscNextM s.config mod (s.oscAt u)).1, (oscNextM s.config mod (s.oscAt u)).2)

/-- `OscAddPh(u, x)` on a state. -/
def oscAddPhAt (u : OscId) (x : Int) (s : State) : State := s.setOsc u (oscAddPh x (s.oscAt u))

/-- `OSC.SETCYC` (R121). -/
def execOscSetcyc (u : OscId) (arg : BitVec 32) (s : State) : Result := .next (respond 0 (oscSetCycleAt u (q16 arg) s))

/-- `OSC.NEXT` (R122). -/
def execOscNext (u : OscId) (s : State) : Result := .next (respond (oscNextAt u s).2 (oscNextAt u s).1)

/-- `OSC.NEXTM` (R123). -/
def execOscNextm (u : OscId) (arg : BitVec 32) (s : State) : Result :=
  .next (respond (oscNextMAt u (s32 arg) s).2 (oscNextMAt u (s32 arg) s).1)

/-- `OSC.ADDPH` (R124). -/
def execOscAddph (u : OscId) (arg : BitVec 32) (s : State) : Result := .next (respond 0 (oscAddPhAt u (s32 arg) s))

end Sys2Proof.Machine
end

