-- ==== Sys2Proof/Machine/Operator.lean ====
section
/-! DEFINITION. Class OP: the operator (42_operator.md). -/

namespace Sys2Proof.Machine

/-- `min(63, 2*R + k)` for a five-bit rate (R181). -/
def scaledRate (r : BitVec 5) (k : Nat) : BitVec 6 := BitVec.ofNat 6 (min 63 (2 * r.toNat + k))

/-- `min(63, 4*RR + 2 + k)` for the four-bit release rate (R181). -/
def scaledRelease (rr : BitVec 4) (k : Nat) : BitVec 6 := BitVec.ofNat 6 (min 63 (4 * rr.toNat + 2 + k))

/-- `OpInit` (R180): the operator's registers, a stopped oscillator at phase 0, and the envelope constructed with key-scaled rates. -/
def opInitAt (o : OpId) (p : OpParams) (key : BitVec 7) (s : State) : State :=
  let k := s.config.keyscaleRom p.ks key
  let s1 := s.setOp o { ks := p.ks, ml := p.ml, dt := p.dt, ams := p.ams, key := key }
  let s2 := s1.setOsc o.osc { pos := 0, step := 0 }
  onEg o (egInit s.config (scaledRate p.ar k) (scaledRate p.dr k) (scaledRate p.sr k) (scaledRelease p.rr k) p.sl p.tl) s2

/-- `Mul(o)`: `ML`, or 1/2 for 0 (R182). -/
def opMul (r : OpRegs) : ℚ := if r.ml = 0 then 1 / 2 else (r.ml.toNat : ℚ)

/-- `Det(o)` in Hz: the table entry of `DT mod 4`, negative for `DT >= 4` (R182). -/
def opDet (c : Config) (r : OpRegs) : ℚ :=
  let d := c.detuneRom (r.dt.setWidth 2) r.key
  if r.dt.toNat < 4 then d else -d

/-- `fe = f * Mul(o) + Det(o)` (R183). -/
def effectiveFreq (c : Config) (r : OpRegs) (f : ℚ) : ℚ := f * opMul r + opDet c r

/-- The cycle `rate / f` in samples, or 0 for a frequency of zero or below or an unset rate (R183, 43_soundgen.md R202). -/
def cycleOf (f : ℚ) (rate : BitVec 20) : ℚ := if f ≤ 0 ∨ rate = 0 then 0 else (hz20 rate : ℚ) / f

/-- `OpSetFreqRate` (R183). -/
def opSetFreqRateAt (o : OpId) (f : ℚ) (rate : BitVec 20) (s : State) : State :=
  onEg o (egSetRate s.config rate)
    (oscSetCycleAt o.osc (cycleOf (effectiveFreq s.config (s.opAt o) f) rate) s)

/-- The oscillator sample times the envelope level, normalized by 15 bits (R184). -/
def opOutput (sample : Int) (level : Nat) : Int := asr (sample * level) 15

/-- `OpNext` (R184). -/
def opNextAt (o : OpId) (s : State) : State × Int :=
  let a := oscNextAt o.osc s
  let b := egNextAt o a.1
  (b.1, opOutput a.2 b.2)

/-- `OpNextM` (R185). -/
def opNextMAt (o : OpId) (mod : Int) (s : State) : State × Int :=
  let a := oscNextMAt o.osc mod s
  let b := egNextAt o a.1
  (b.1, opOutput a.2 b.2)

/-- `AmsFactor(o)` (R187). -/
def amsFactor (c : Config) (r : OpRegs) : Int := (c.amsRom r.ams / 2 : Nat)

/-- `AmsBias(o)` (R187). -/
def amsBias (c : Config) (r : OpRegs) : Int := 32768 - amsFactor c r * 256

/-- The gain `g = am * AmsFactor + AmsBias` on the scale 32768 (R186). -/
def amGain (c : Config) (r : OpRegs) (am : Int) : Int := am * amsFactor c r + amsBias c r

/-- `OpNextAM` (R186). -/
def opNextAmAt (o : OpId) (am mod : Int) (s : State) : State × Int :=
  let x := opNextMAt o mod s
  (x.1, asr (x.2 * amGain s.config (s.opAt o) am) 15)

/-- A `FIN` response (R188, 43_soundgen.md R215). -/
def finResponse (b : Bool) : Int := if b then 1 else 0

/-- `OP.INIT` (R180). -/
def execOpInit (o : OpId) (p : OpParams) (key : BitVec 7) (s : State) : Result := .next (respond 0 (opInitAt o p key s))

/-- `OP.SETFREQ` (R183). -/
def execOpSetfreq (o : OpId) (freq : BitVec 32) (rate : BitVec 20) (s : State) : Result :=
  .next (respond 0 (opSetFreqRateAt o (q16 freq) rate s))

/-- `OP.NEXT` (R184). -/
def execOpNext (o : OpId) (s : State) : Result := .next (respond (opNextAt o s).2 (opNextAt o s).1)

/-- `OP.NEXTM` (R185). -/
def execOpNextm (o : OpId) (arg : BitVec 32) (s : State) : Result :=
  .next (respond (opNextMAt o (s32 arg) s).2 (opNextMAt o (s32 arg) s).1)

/-- `OP.NEXTAM` (R186). -/
def execOpNextam (o : OpId) (amv : BitVec 9) (mod : BitVec 32) (s : State) : Result :=
  .next (respond (opNextAmAt o (s9 amv) (s32 mod) s).2 (opNextAmAt o (s9 amv) (s32 mod) s).1)

/-- `OP.FIN` (R188). -/
def execOpFin (o : OpId) (s : State) : Result := .next (respond (finResponse (opFinished s o)) s)

end Sys2Proof.Machine
end

