-- ==== Sys2Proof/Machine/SoundGen.lean ====
section
/-! DEFINITION. Class SG: the sound generator (43_soundgen.md), and the reset command `SG.RESET` (70_reset_and_hazards.md R261). -/

namespace Sys2Proof.Machine

/-- `SG.CONFIG`'s effect (R201): the whole SG bank, and the three LFOs cleared. -/
def sgConfigure (alg fb lfo : BitVec 3) (s : State) : State :=
  let s1 := s.setSg
    { alg := alg, fb := fb, lfoIdx := lfo, fbReg := 0, damper := 0, sost := 0, vibDepth := 0, trmDepth := 0, vibFreq := 0,
      trmFreq := 0, sgRate := 0 }
  ((s1.setOsc .lfoAm { pos := 0, step := 0 }).setOsc .lfoVib { pos := 0, step := 0 }).setOsc .lfoTrm { pos := 0, step := 0 }

/-- `LfoSetFreq` (R202), at the stored sample rate. -/
def lfoSetFreq (u : OscId) (f : ℚ) (s : State) : State := oscSetCycleAt u (cycleOf f s.sg.sgRate) s

/-- `SG.SETFREQ`'s effect (R203, R204): the rate stored, the four operators and the three LFOs retuned. -/
def sgSetFreq (f : ℚ) (rate : BitVec 20) (s : State) : State :=
  let s1 := s.setSg { s.sg with sgRate := rate }
  let s2 := forAllOps (fun o => opSetFreqRateAt o f rate) s1
  let s3 := lfoSetFreq .lfoAm (s2.config.lfofreqRom s2.sg.lfoIdx) s2
  let s4 := lfoSetFreq .lfoVib (q16 s3.sg.vibFreq) s3
  lfoSetFreq .lfoTrm (q16 s4.sg.trmFreq) s4

/-- `SG.SETVIB`'s effect (R205). -/
def sgSetVib (depth : BitVec 13) (freq : BitVec 32) (s : State) : State :=
  lfoSetFreq .lfoVib (q16 freq) (s.setSg { s.sg with vibDepth := depth, vibFreq := freq })

/-- `SG.SETTRM`'s effect for a depth of 0 to 127 (R222). -/
def sgSetTrm (depth : BitVec 7) (freq : BitVec 32) (s : State) : State :=
  lfoSetFreq .lfoTrm (q16 freq) (s.setSg { s.sg with trmDepth := depth, trmFreq := freq })

/-- The hold numerator `n = 16129 - (127 - DAMPER) * (127 - SOST)` (R218). -/
def holdNumerator (damper sost : BitVec 7) : BitVec 15 :=
  BitVec.ofNat 15 (16129 - (127 - damper.toNat) * (127 - sost.toNat))

/-- `SgHold` (R218). -/
def sgHold (s : State) : State :=
  forAllOps (fun o => onEg o (egSetHold s.config (holdNumerator s.sg.damper s.sg.sost))) s

/-- The pitch deviation `x = asr(s * VIBDEPTH, 15)` in units of 1/768 octave (R209). -/
def vibDeviation (sample : Int) (depth : BitVec 13) : Int := asr (sample * depth.toNat) 15

/-- The vibrato step (R209): the LFO advances, and all four operators' phases move, only while vibrato is active. -/
def vibratoStep (s : State) : State :=
  if s.sg.vibDepth = 0 then s
  else
    let a := oscNextAt .lfoVib s
    forAllOps (fun o => oscAddPhAt o.osc (s.config.vibRom (vibDeviation a.2 s.sg.vibDepth))) a.1

/-- The amplitude-modulation step (R210): the AM LFO advances, and its value is passed on, only while `AMEN`. -/
def amStep (s : State) : State × Option Int :=
  if amEnabled s then ((oscNextAt .lfoAm s).1, some (asr (oscNextAt .lfoAm s).2 7)) else (s, none)

/-- `f(OPn, m)` of R210: one sample of operator `o` with modulation `mod`, with the AM value if there is one. -/
def sampleOp (am : Option Int) (o : OpId) (mod : Int) (s : State) : State × Int :=
  match am with
  | some a => opNextAmAt o a mod s
  | none => opNextMAt o mod s

/-- `FBSH = FBSHIFT_ROM[FB]` (R208). -/
def feedbackShift (s : State) : Nat := s.config.fbshiftRom s.sg.fb

/-- `fb = asr(FBREG * 2^FB_PRESHIFT, FBSH)` (R208). -/
def feedbackValue (s : State) : Int := asr (s.sg.fbReg.toInt * (2 ^ s.config.fbPreshift : Nat)) (feedbackShift s)

/-- The sum of the outputs of the operators in a set; an empty sum is 0 (R211). -/
def sumOver (x : OpSet) (o1 o2 o3 o4 : Int) : Int :=
  (if x.op1 then o1 else 0) + (if x.op2 then o2 else 0) + (if x.op3 then o3 else 0) + (if x.op4 then o4 else 0)

/-- The algorithm (R211 part 3): OP1 to OP4 in order, `FBREG` written after OP1 is sampled, the carriers summed. -/
def algorithmStep (am : Option Int) (s : State) : State × Int :=
  let row := algRow s
  let r1 := sampleOp am .op1 (feedbackValue s) s
  let s1 := r1.1.setSg { r1.1.sg with fbReg := u32 r1.2 }
  let r2 := sampleOp am .op2 (sumOver row.m2 r1.2 0 0 0) s1
  let r3 := sampleOp am .op3 (sumOver row.m3 r1.2 r2.2 0 0) r2.1
  let r4 := sampleOp am .op4 (sumOver row.m4 r1.2 r2.2 r3.2 0) r3.1
  (r4.1, sumOver row.c r1.2 r2.2 r3.2 r4.2)

/-- The tremolo gain `4096 - asr((s + 32768) * TRMDEPTH, 11)` on the scale 4096 (R213). -/
def trmGain (sample : Int) (depth : BitVec 7) : Int := 4096 - asr ((sample + 32768) * depth.toNat) 11

/-- The tremolo step (R213): the LFO advances, and the sum is scaled, only while tremolo is active. -/
def tremoloStep (s : State) (ret : Int) : State × Int :=
  if s.sg.trmDepth = 0 then (s, ret)
  else ((oscNextAt .lfoTrm s).1, asr (ret * trmGain (oscNextAt .lfoTrm s).2 s.sg.trmDepth) 12)

/-- `SG.NEXT`'s effect (R211, R212, 70_reset_and_hazards.md R268): vibrato, AM LFO, algorithm, tremolo. -/
def sgNextSample (s : State) : State × Int :=
  let a := amStep (vibratoStep s)
  let b := algorithmStep a.2 a.1
  tremoloStep b.1 b.2

/-- `SG.CONFIG` (R201). -/
def execSgConfig (alg fb lfo : BitVec 3) (s : State) : Result := .next (respond 0 (sgConfigure alg fb lfo s))

/-- `SG.SETFREQ` (R203). -/
def execSgSetfreq (freq : BitVec 32) (rate : BitVec 20) (s : State) : Result := .next (respond 0 (sgSetFreq (q16 freq) rate s))

/-- `SG.NEXT` (R211). -/
def execSgNext (s : State) : Result := .next (respond (sgNextSample s).2 (sgNextSample s).1)

/-- `SG.FIN` (R215). -/
def execSgFin (s : State) : Result := .next (respond (finResponse (sgFinished s)) s)

/-- `SG.KEYOFF` (R216). -/
def execSgKeyoff (s : State) : Result := .next (respond 0 (forAllOps (fun o => onEg o egKeyOff) s))

/-- `SG.SNDOFF` (R217). -/
def execSgSndoff (s : State) : Result := .next (respond 0 (forAllOps (fun o => onEg o (egSoundOff s.config)) s))

/-- `SG.SETDAMPER` (R219). -/
def execSgSetdamper (val : BitVec 7) (s : State) : Result := .next (respond 0 (sgHold (s.setSg { s.sg with damper := val })))

/-- `SG.SETSOST` (R220). -/
def execSgSetsost (val : BitVec 7) (s : State) : Result := .next (respond 0 (sgHold (s.setSg { s.sg with sost := val })))

/-- `SG.SETFRZ` (R221). -/
def execSgSetfrz (val : BitVec 7) (s : State) : Result :=
  .next (respond 0 (forAllOps (fun o => onEg o (egSetFreeze s.config val)) s))

/-- `SG.SETVIB` (R205). -/
def execSgSetvib (depth : BitVec 13) (freq : BitVec 32) (s : State) : Result := .next (respond 0 (sgSetVib depth freq s))

/-- `SG.SETTRM` (R222): a depth above 127 makes the command reserved (R99). -/
def execSgSettrm (depth : BitVec 13) (freq : BitVec 32) (s : State) : Result :=
  if 127 < depth.toNat then .next (ignoreReserved s) else .next (respond 0 (sgSetTrm (depth.setWidth 7) freq s))

/-- `SG.RESET` (R261). -/
def execSgReset (s : State) : Result := .next (respond 0 (resetRegisters s))

end Sys2Proof.Machine
end

