-- ==== Sys2Proof/Machine/Dispatch.lean ====
section
/-! DEFINITION. One arm per constructor of Instr, each one direct call of its meaning. -/

namespace Sys2Proof.Machine

open Sys2Proof

def exec (i : Instr) (s : State) : Host.Outcome State Fault Refusal :=
  match i with
  -- class OSC
  | .oscSetcyc u arg => Sys2Proof.Machine.execOscSetcyc u arg s
  | .oscNext u => Sys2Proof.Machine.execOscNext u s
  | .oscNextm u arg => Sys2Proof.Machine.execOscNextm u arg s
  | .oscAddph u arg => Sys2Proof.Machine.execOscAddph u arg s
  -- class EG
  | .egInit e rar rdr rsr rrr sl tl => Sys2Proof.Machine.execEgInit e rar rdr rsr rrr sl tl s
  | .egSetrate e rate => Sys2Proof.Machine.execEgSetrate e rate s
  | .egUpdate e => Sys2Proof.Machine.execEgUpdate e s
  | .egSethold e holdn => Sys2Proof.Machine.execEgSethold e holdn s
  | .egSetfrz e val => Sys2Proof.Machine.execEgSetfrz e val s
  | .egKeyoff e => Sys2Proof.Machine.execEgKeyoff e s
  | .egSndoff e => Sys2Proof.Machine.execEgSndoff e s
  | .egNext e => Sys2Proof.Machine.execEgNext e s
  -- class OP
  | .opInit o p key => Sys2Proof.Machine.execOpInit o p key s
  | .opSetfreq o freq rate => Sys2Proof.Machine.execOpSetfreq o freq rate s
  | .opNext o => Sys2Proof.Machine.execOpNext o s
  | .opNextm o arg => Sys2Proof.Machine.execOpNextm o arg s
  | .opNextam o amv mod => Sys2Proof.Machine.execOpNextam o amv mod s
  | .opFin o => Sys2Proof.Machine.execOpFin o s
  -- class SG
  | .sgConfig alg fb lfo => Sys2Proof.Machine.execSgConfig alg fb lfo s
  | .sgSetfreq freq rate => Sys2Proof.Machine.execSgSetfreq freq rate s
  | .sgNext => Sys2Proof.Machine.execSgNext s
  | .sgFin => Sys2Proof.Machine.execSgFin s
  | .sgKeyoff => Sys2Proof.Machine.execSgKeyoff s
  | .sgSndoff => Sys2Proof.Machine.execSgSndoff s
  | .sgSetdamper val => Sys2Proof.Machine.execSgSetdamper val s
  | .sgSetsost val => Sys2Proof.Machine.execSgSetsost val s
  | .sgSetfrz val => Sys2Proof.Machine.execSgSetfrz val s
  | .sgSetvib depth freq => Sys2Proof.Machine.execSgSetvib depth freq s
  | .sgSettrm depth freq => Sys2Proof.Machine.execSgSettrm depth freq s
  | .sgReset => Sys2Proof.Machine.execSgReset s

end Sys2Proof.Machine
end

