-- ==== Sys2Proof/WellFormed.lean ====
section
/-! DEFINITION. Which commands are legal beyond the widths of their fields: the two range limits of 30_encoding.md R99 (d) and (e). -/

namespace Sys2Proof

/-- `HOLDN / 16129` must lie in [0, 1] (R104). -/
def holdInRange (holdn : BitVec 15) : Bool := holdn.toNat ≤ 16129

/-- A tremolo depth is on the 0 to 127 scale (R99 (e), 43_soundgen.md R222). -/
def trmDepthInRange (depth : BitVec 13) : Bool := depth.toNat ≤ 127

/-- A command that R99 (d) and (e) do not reserve. Every other field is exactly as wide as its legal range (R96). -/
def Instr.wellFormed : Instr → Bool
  | .oscSetcyc _ _ => true
  | .oscNext _ => true
  | .oscNextm _ _ => true
  | .oscAddph _ _ => true
  | .egInit _ _ _ _ _ _ _ => true
  | .egSetrate _ _ => true
  | .egUpdate _ => true
  | .egSethold _ holdn => holdInRange holdn
  | .egSetfrz _ _ => true
  | .egKeyoff _ => true
  | .egSndoff _ => true
  | .egNext _ => true
  | .opInit _ _ _ => true
  | .opSetfreq _ _ _ => true
  | .opNext _ => true
  | .opNextm _ _ => true
  | .opNextam _ _ _ => true
  | .opFin _ => true
  | .sgConfig _ _ _ => true
  | .sgSetfreq _ _ => true
  | .sgNext => true
  | .sgFin => true
  | .sgKeyoff => true
  | .sgSndoff => true
  | .sgSetdamper _ => true
  | .sgSetsost _ => true
  | .sgSetfrz _ => true
  | .sgSetvib _ _ => true
  | .sgSettrm depth _ => trmDepthInRange depth
  | .sgReset => true

/-- The well-formed commands as a proposition. -/
abbrev Instr.WellFormed (i : Instr) : Prop := i.wellFormed = true

end Sys2Proof
end

