-- ==== Sys2Proof/Decode.lean ====
section
/-! DEFINITION. From command words to commands and back: the decoder, total on every 64-bit word and rejecting a reserved word by
name (30_encoding.md R91 to R99), then the encoder (R103), both written from the format table R94 and the opcode map R98.
The byte-wide transport of 20_memory.md R64 stands last. -/

namespace Sys2Proof

/-- Why a command word is reserved: the cases of R99. -/
inductive Reserved where
  | opcode        -- (a) `OPC` is not in the opcode map
  | unit          -- (b) `UNIT` is outside the range of the class
  | payloadBits   -- (c) a reserved `PAYLOAD` bit is 1
  | operandRange  -- (d) `HOLDN > 16129`, (e) tremolo `DEPTH > 127`
  deriving DecidableEq, Repr

/-- `OPC = CMD[63:56]` (R91). -/
def opcField (w : Command) : BitVec 8 := w.extractLsb' 56 8

/-- `UNIT = CMD[55:52]` (R91). -/
def unitField (w : Command) : BitVec 4 := w.extractLsb' 52 4

/-- `PAYLOAD = CMD[51:0]` (R91). -/
def payloadField (w : Command) : BitVec 52 := w.extractLsb' 0 52

/-- R93, class OSC. -/
def oscOfUnit (u : BitVec 4) : Option OscId :=
  match u.toNat with
  | 0 => some .osc1
  | 1 => some .osc2
  | 2 => some .osc3
  | 3 => some .osc4
  | 4 => some .lfoAm
  | 5 => some .lfoVib
  | 6 => some .lfoTrm
  | _ => none

/-- R93, classes EG and OP. -/
def opOfUnit (u : BitVec 4) : Option OpId :=
  match u.toNat with
  | 0 => some .op1
  | 1 => some .op2
  | 2 => some .op3
  | 3 => some .op4
  | _ => none

/-- R94: the fields of every format fill the low bits of `PAYLOAD` without a gap, so a format is checked by its width:
N 0, B7 7, SGC 9, H 15, R 20, W 32, EGI 35, AM 41, DF 45, OPI 48, FR 52. -/
def payloadFits (width : Nat) (p : BitVec 52) : Bool := p.toNat < 2 ^ width

/-- A command of class OSC whose format is `width` bits wide. -/
def decodeOsc (u : BitVec 4) (width : Nat) (p : BitVec 52) (k : OscId → Instr) : Except Reserved Instr :=
  match oscOfUnit u with
  | none => .error .unit
  | some o => if payloadFits width p then .ok (k o) else .error .payloadBits

/-- A command of class EG or OP whose format is `width` bits wide. -/
def decodeOp (u : BitVec 4) (width : Nat) (p : BitVec 52) (k : OpId → Instr) : Except Reserved Instr :=
  match opOfUnit u with
  | none => .error .unit
  | some o => if payloadFits width p then .ok (k o) else .error .payloadBits

/-- A command of class SG, whose `UNIT` must be 0 (R93). -/
def decodeSg (u : BitVec 4) (width : Nat) (p : BitVec 52) (i : Instr) : Except Reserved Instr :=
  if u = 0 then (if payloadFits width p then .ok i else .error .payloadBits) else .error .unit

/-- Format OPI (R94, R95). -/
def opParamsOfPayload (p : BitVec 52) : OpParams :=
  { ar := p.extractLsb' 0 5, dr := p.extractLsb' 5 5, sr := p.extractLsb' 10 5, rr := p.extractLsb' 15 4,
    sl := p.extractLsb' 19 4, tl := p.extractLsb' 23 7, ks := p.extractLsb' 30 2, ml := p.extractLsb' 32 4,
    dt := p.extractLsb' 36 3, ams := p.extractLsb' 39 2 }

/-- R98 with R93 and R94: opcode, unit and reserved bits. -/
def decodeFields (w : Command) : Except Reserved Instr :=
  let u := unitField w
  let p := payloadField w
  match (opcField w).toNat with
  | 0x01 => decodeOsc u 32 p fun o => .oscSetcyc o (p.extractLsb' 0 32)
  | 0x02 => decodeOsc u 0 p .oscNext
  | 0x03 => decodeOsc u 32 p fun o => .oscNextm o (p.extractLsb' 0 32)
  | 0x04 => decodeOsc u 32 p fun o => .oscAddph o (p.extractLsb' 0 32)
  | 0x10 => decodeOp u 35 p fun e =>
      .egInit e (p.extractLsb' 0 6) (p.extractLsb' 6 6) (p.extractLsb' 12 6) (p.extractLsb' 18 6)
        (p.extractLsb' 24 4) (p.extractLsb' 28 7)
  | 0x11 => decodeOp u 20 p fun e => .egSetrate e (p.extractLsb' 0 20)
  | 0x12 => decodeOp u 0 p .egUpdate
  | 0x13 => decodeOp u 15 p fun e => .egSethold e (p.extractLsb' 0 15)
  | 0x14 => decodeOp u 7 p fun e => .egSetfrz e (p.extractLsb' 0 7)
  | 0x15 => decodeOp u 0 p .egKeyoff
  | 0x16 => decodeOp u 0 p .egSndoff
  | 0x17 => decodeOp u 0 p .egNext
  | 0x20 => decodeOp u 48 p fun o => .opInit o (opParamsOfPayload p) (p.extractLsb' 41 7)
  | 0x21 => decodeOp u 52 p fun o => .opSetfreq o (p.extractLsb' 0 32) (p.extractLsb' 32 20)
  | 0x22 => decodeOp u 0 p .opNext
  | 0x23 => decodeOp u 32 p fun o => .opNextm o (p.extractLsb' 0 32)
  | 0x24 => decodeOp u 41 p fun o => .opNextam o (p.extractLsb' 32 9) (p.extractLsb' 0 32)
  | 0x25 => decodeOp u 0 p .opFin
  | 0x30 => decodeSg u 9 p (.sgConfig (p.extractLsb' 0 3) (p.extractLsb' 3 3) (p.extractLsb' 6 3))
  | 0x31 => decodeSg u 52 p (.sgSetfreq (p.extractLsb' 0 32) (p.extractLsb' 32 20))
  | 0x32 => decodeSg u 0 p .sgNext
  | 0x33 => decodeSg u 0 p .sgFin
  | 0x34 => decodeSg u 0 p .sgKeyoff
  | 0x35 => decodeSg u 0 p .sgSndoff
  | 0x36 => decodeSg u 7 p (.sgSetdamper (p.extractLsb' 0 7))
  | 0x37 => decodeSg u 7 p (.sgSetsost (p.extractLsb' 0 7))
  | 0x38 => decodeSg u 7 p (.sgSetfrz (p.extractLsb' 0 7))
  | 0x39 => decodeSg u 45 p (.sgSetvib (p.extractLsb' 32 13) (p.extractLsb' 0 32))
  | 0x3A => decodeSg u 45 p (.sgSettrm (p.extractLsb' 32 13) (p.extractLsb' 0 32))
  | 0x3F => decodeSg u 0 p .sgReset
  | _ => .error .opcode

/-- R99 (d) and (e): a decoded command whose operand is out of its range is reserved. -/
def checkRange (i : Instr) : Except Reserved Instr :=
  if i.wellFormed then .ok i else .error .operandRange

/-- The decoder: the command a word stands for, or why the word is reserved (R99). -/
def decode (w : Command) : Except Reserved Instr :=
  match decodeFields w with
  | .ok i => checkRange i
  | .error e => .error e

/-- What the decoder reads from the command whose table bits are `w`: bit 0 of the table's numbering is bit 0 of the word. -/
def decodeTableWord (nbits w : Nat) : Option Instr :=
  match decode (BitVec.ofNat 64 (w % 2 ^ nbits)) with
  | .ok i => some i
  | .error _ => none

/-- The opcode of a command (R98). -/
def Instr.opcode : Instr → BitVec 8
  | .oscSetcyc _ _ => 0x01
  | .oscNext _ => 0x02
  | .oscNextm _ _ => 0x03
  | .oscAddph _ _ => 0x04
  | .egInit _ _ _ _ _ _ _ => 0x10
  | .egSetrate _ _ => 0x11
  | .egUpdate _ => 0x12
  | .egSethold _ _ => 0x13
  | .egSetfrz _ _ => 0x14
  | .egKeyoff _ => 0x15
  | .egSndoff _ => 0x16
  | .egNext _ => 0x17
  | .opInit _ _ _ => 0x20
  | .opSetfreq _ _ _ => 0x21
  | .opNext _ => 0x22
  | .opNextm _ _ => 0x23
  | .opNextam _ _ _ => 0x24
  | .opFin _ => 0x25
  | .sgConfig _ _ _ => 0x30
  | .sgSetfreq _ _ => 0x31
  | .sgNext => 0x32
  | .sgFin => 0x33
  | .sgKeyoff => 0x34
  | .sgSndoff => 0x35
  | .sgSetdamper _ => 0x36
  | .sgSetsost _ => 0x37
  | .sgSetfrz _ => 0x38
  | .sgSetvib _ _ => 0x39
  | .sgSettrm _ _ => 0x3A
  | .sgReset => 0x3F

/-- R93, class OSC. -/
def OscId.unit : OscId → BitVec 4
  | .osc1 => 0
  | .osc2 => 1
  | .osc3 => 2
  | .osc4 => 3
  | .lfoAm => 4
  | .lfoVib => 5
  | .lfoTrm => 6

/-- R93, classes EG and OP. -/
def OpId.unit : OpId → BitVec 4
  | .op1 => 0
  | .op2 => 1
  | .op3 => 2
  | .op4 => 3

/-- The `UNIT` field of a command (R93). -/
def Instr.unitCode : Instr → BitVec 4
  | .oscSetcyc u _ => u.unit
  | .oscNext u => u.unit
  | .oscNextm u _ => u.unit
  | .oscAddph u _ => u.unit
  | .egInit e _ _ _ _ _ _ => e.unit
  | .egSetrate e _ => e.unit
  | .egUpdate e => e.unit
  | .egSethold e _ => e.unit
  | .egSetfrz e _ => e.unit
  | .egKeyoff e => e.unit
  | .egSndoff e => e.unit
  | .egNext e => e.unit
  | .opInit o _ _ => o.unit
  | .opSetfreq o _ _ => o.unit
  | .opNext o => o.unit
  | .opNextm o _ => o.unit
  | .opNextam o _ _ => o.unit
  | .opFin o => o.unit
  | .sgConfig _ _ _ => 0
  | .sgSetfreq _ _ => 0
  | .sgNext => 0
  | .sgFin => 0
  | .sgKeyoff => 0
  | .sgSndoff => 0
  | .sgSetdamper _ => 0
  | .sgSetsost _ => 0
  | .sgSetfrz _ => 0
  | .sgSetvib _ _ => 0
  | .sgSettrm _ _ => 0
  | .sgReset => 0

/-- A field's value shifted left by its low bit position in R94 (R103). -/
def placed {n : Nat} (lo : Nat) (f : BitVec n) : Nat := f.toNat <<< lo

/-- Format OPI (R94, R95). -/
def payloadOfOpParams (p : OpParams) (key : BitVec 7) : Nat :=
  placed 0 p.ar + placed 5 p.dr + placed 10 p.sr + placed 15 p.rr + placed 19 p.sl + placed 23 p.tl + placed 30 p.ks +
    placed 32 p.ml + placed 36 p.dt + placed 39 p.ams + placed 41 key

/-- The `PAYLOAD` of a command as the sum of its placed fields; reserved bits are 0 (R94, R103). -/
def Instr.payload : Instr → Nat
  | .oscSetcyc _ arg => placed 0 arg
  | .oscNext _ => 0
  | .oscNextm _ arg => placed 0 arg
  | .oscAddph _ arg => placed 0 arg
  | .egInit _ rar rdr rsr rrr sl tl =>
    placed 0 rar + placed 6 rdr + placed 12 rsr + placed 18 rrr + placed 24 sl + placed 28 tl
  | .egSetrate _ rate => placed 0 rate
  | .egUpdate _ => 0
  | .egSethold _ holdn => placed 0 holdn
  | .egSetfrz _ val => placed 0 val
  | .egKeyoff _ => 0
  | .egSndoff _ => 0
  | .egNext _ => 0
  | .opInit _ p key => payloadOfOpParams p key
  | .opSetfreq _ freq rate => placed 0 freq + placed 32 rate
  | .opNext _ => 0
  | .opNextm _ arg => placed 0 arg
  | .opNextam _ amv mod => placed 0 mod + placed 32 amv
  | .opFin _ => 0
  | .sgConfig alg fb lfo => placed 0 alg + placed 3 fb + placed 6 lfo
  | .sgSetfreq freq rate => placed 0 freq + placed 32 rate
  | .sgNext => 0
  | .sgFin => 0
  | .sgKeyoff => 0
  | .sgSndoff => 0
  | .sgSetdamper val => placed 0 val
  | .sgSetsost val => placed 0 val
  | .sgSetfrz val => placed 0 val
  | .sgSetvib depth freq => placed 0 freq + placed 32 depth
  | .sgSettrm depth freq => placed 0 freq + placed 32 depth
  | .sgReset => 0

/-- The encoder: `CMD = (OPC << 56) + (UNIT << 52) + PAYLOAD` (R103). -/
def encode (i : Instr) : Command :=
  BitVec.ofNat 64 (placed 56 i.opcode + placed 52 i.unitCode + i.payload)

/-- The bytes of a word on a byte-wide transport, least significant byte first (R64). -/
def bytesOfWord : (n : Nat) → BitVec (8 * n) → List Byte
  | 0, _ => []
  | n + 1, w => w.setWidth 8 :: bytesOfWord n ((w >>> 8).setWidth (8 * n))

/-- The word that bytes sent least significant first carry (R64). -/
def wordOfBytes : (n : Nat) → List Byte → Option (BitVec (8 * n))
  | 0, [] => some 0
  | 0, _ :: _ => none
  | _ + 1, [] => none
  | n + 1, b :: bs =>
    match wordOfBytes n bs with
    | some w => some ((w.setWidth (8 * (n + 1)) <<< 8) ||| b.setWidth (8 * (n + 1)))
    | none => none

/-- A command as its eight bytes (R64). -/
def bytesOfCommand (w : Command) : List Byte := bytesOfWord 8 w

/-- The command that eight bytes carry; a command is always one whole word (20_memory.md R65). -/
def commandOfBytes (bs : List Byte) : Option Command := wordOfBytes 8 bs

/-- A response as its four bytes (R64). -/
def bytesOfResponse (r : Response) : List Byte := bytesOfWord 4 r

/-- The response that four bytes carry (R64). -/
def responseOfBytes (bs : List Byte) : Option Response := wordOfBytes 4 bs

end Sys2Proof
end

