-- ==== Sys2Proof/Machine/Port.lean ====
section
/-! DEFINITION. The host's side of the block (10_state.md R21, 20_memory.md R70, 30_encoding.md R90): which event comes next, the
`RESET` input (70_reset_and_hazards.md R260), and presenting commands. -/

namespace Sys2Proof.Machine

/-- The host's next event, oldest first, and the state that has it taken off the host's list. -/
def takeEvent (s : State) : Option (HostEvent × State) :=
  match s.host with
  | [] => none
  | ev :: rest => some (ev, { s with host := rest })

/-- The `RESET` input, asserted between commands (R260). It is no command, so it returns no response (assumption 2). -/
def pinReset (s : State) : State := resetRegisters s

/-- The host presents one command before whatever it has still to present. -/
def presentCommand (w : Command) (s : State) : State := { s with host := .command w :: s.host }

/-- The host presents commands in order, after whatever it has still to present. -/
def enqueueCommands (ws : List Command) (s : State) : State := { s with host := s.host ++ ws.map HostEvent.command }

end Sys2Proof.Machine
end

