-- ==== Sys2Proof/Machine/Step.lean ====
section
/-! DEFINITION. One step: the host's next event takes effect completely (20_memory.md R70). -/

namespace Sys2Proof.Machine

open Sys2Proof

/-- One step. A command word runs as the instruction it decodes to, or, if it is reserved, changes nothing and returns 0 (R99); the
`RESET` input resets (R260); with no event nothing happens, since nothing happens in FMVC between commands (60_exceptions.md R243). -/
def step (s : State) : Host.Outcome State Fault Refusal :=
  match takeEvent s with
  | none => .next s
  | some (.reset, s') => .next (pinReset s')
  | some (.command w, s') =>
    match decode w with
    | .ok i => exec i s'
    | .error _ => .next (ignoreReserved s')

/-- `s` with the command whose table bits are `w` presented next. -/
def State.withFetchWord (s : State) (nbits w : Nat) : State := presentCommand (BitVec.ofNat 64 (w % 2 ^ nbits)) s

end Sys2Proof.Machine
end

