-- ==== Sys2Proof/Machine/Asm.lean ====
section
/-! DEFINITION. The assembler language (30_encoding.md R101): `MNEMONIC unit, operand, ...`, with the unit names that count from 1 and
`name=value` operands for the formats EGI, OPI and SGC. First commands to text (a Q16.16 operand as its raw word), then text to words,
with the one-line pseudo-commands of R102. -/

namespace Sys2Proof.Machine

open Sys2Proof

/-- The mnemonic of a command (R98). -/
def mnemonicOf (i : Instr) : String :=
  match i with
  | .oscSetcyc _ _ => "OSC.SETCYC"
  | .oscNext _ => "OSC.NEXT"
  | .oscNextm _ _ => "OSC.NEXTM"
  | .oscAddph _ _ => "OSC.ADDPH"
  | .egInit _ _ _ _ _ _ _ => "EG.INIT"
  | .egSetrate _ _ => "EG.SETRATE"
  | .egUpdate _ => "EG.UPDATE"
  | .egSethold _ _ => "EG.SETHOLD"
  | .egSetfrz _ _ => "EG.SETFRZ"
  | .egKeyoff _ => "EG.KEYOFF"
  | .egSndoff _ => "EG.SNDOFF"
  | .egNext _ => "EG.NEXT"
  | .opInit _ _ _ => "OP.INIT"
  | .opSetfreq _ _ _ => "OP.SETFREQ"
  | .opNext _ => "OP.NEXT"
  | .opNextm _ _ => "OP.NEXTM"
  | .opNextam _ _ _ => "OP.NEXTAM"
  | .opFin _ => "OP.FIN"
  | .sgConfig _ _ _ => "SG.CONFIG"
  | .sgSetfreq _ _ => "SG.SETFREQ"
  | .sgNext => "SG.NEXT"
  | .sgFin => "SG.FIN"
  | .sgKeyoff => "SG.KEYOFF"
  | .sgSndoff => "SG.SNDOFF"
  | .sgSetdamper _ => "SG.SETDAMPER"
  | .sgSetsost _ => "SG.SETSOST"
  | .sgSetfrz _ => "SG.SETFRZ"
  | .sgSetvib _ _ => "SG.SETVIB"
  | .sgSettrm _ _ => "SG.SETTRM"
  | .sgReset => "SG.RESET"

/-- R101: `OSC1` to `OSC4`, `LFOAM`, `LFOVIB`, `LFOTRM`. -/
def oscName (u : OscId) : String :=
  match u with
  | .osc1 => "OSC1"
  | .osc2 => "OSC2"
  | .osc3 => "OSC3"
  | .osc4 => "OSC4"
  | .lfoAm => "LFOAM"
  | .lfoVib => "LFOVIB"
  | .lfoTrm => "LFOTRM"

/-- R101: the number a unit's name counts by. -/
def opNumber (o : OpId) : String :=
  match o with
  | .op1 => "1"
  | .op2 => "2"
  | .op3 => "3"
  | .op4 => "4"

/-- R101: `EG1` to `EG4`. -/
def egName (e : OpId) : String := "EG" ++ opNumber e

/-- R101: `OP1` to `OP4`. -/
def opName (o : OpId) : String := "OP" ++ opNumber o

/-- An unsigned decimal operand. -/
def dec {n : Nat} (v : BitVec n) : String := toString v.toNat

/-- A signed decimal operand. -/
def sdec {n : Nat} (v : BitVec n) : String := toString v.toInt

/-- A Q16.16 operand as its raw word `0x...`. -/
def rawWord (v : BitVec 32) : String := "0x" ++ String.ofList (Nat.toDigits 16 v.toNat)

/-- A `name=value` operand. -/
def named {n : Nat} (name : String) (v : BitVec n) : String := name ++ "=" ++ dec v

/-- The unit and operands of a command, in the order of R101's examples. -/
def operandTexts (i : Instr) : List String :=
  match i with
  | .oscSetcyc u arg => [oscName u, rawWord arg]
  | .oscNext u => [oscName u]
  | .oscNextm u arg => [oscName u, sdec arg]
  | .oscAddph u arg => [oscName u, sdec arg]
  | .egInit e rar rdr rsr rrr sl tl =>
    [egName e, named "rar" rar, named "rdr" rdr, named "rsr" rsr, named "rrr" rrr, named "sl" sl, named "tl" tl]
  | .egSetrate e rate => [egName e, dec rate]
  | .egUpdate e => [egName e]
  | .egSethold e holdn => [egName e, dec holdn]
  | .egSetfrz e val => [egName e, dec val]
  | .egKeyoff e => [egName e]
  | .egSndoff e => [egName e]
  | .egNext e => [egName e]
  | .opInit o p key =>
    [opName o, named "ar" p.ar, named "dr" p.dr, named "sr" p.sr, named "rr" p.rr, named "sl" p.sl, named "tl" p.tl,
     named "ks" p.ks, named "ml" p.ml, named "dt" p.dt, named "ams" p.ams, named "key" key]
  | .opSetfreq o freq rate => [opName o, rawWord freq, dec rate]
  | .opNext o => [opName o]
  | .opNextm o arg => [opName o, sdec arg]
  | .opNextam o amv mod => [opName o, sdec amv, sdec mod]
  | .opFin o => [opName o]
  | .sgConfig alg fb lfo => [named "alg" alg, named "fb" fb, named "lfo" lfo]
  | .sgSetfreq freq rate => [rawWord freq, dec rate]
  | .sgNext => []
  | .sgFin => []
  | .sgKeyoff => []
  | .sgSndoff => []
  | .sgSetdamper val => [dec val]
  | .sgSetsost val => [dec val]
  | .sgSetfrz val => [dec val]
  | .sgSetvib depth freq => [dec depth, rawWord freq]
  | .sgSettrm depth freq => [dec depth, rawWord freq]
  | .sgReset => []

/-- Operands separated by a comma and a space. -/
def joinOperands (xs : List String) : String :=
  match xs with
  | [] => ""
  | [x] => x
  | x :: rest => x ++ ", " ++ joinOperands rest

/-- A command as one line of assembler text (R101). -/
def asmText (i : Instr) : String :=
  match operandTexts i with
  | [] => mnemonicOf i
  | xs => mnemonicOf i ++ " " ++ joinOperands xs

/-- A line of a listing: the command and, after `->`, its response (R101). -/
def listingLine (i : Instr) (r : Response) : String := asmText i ++ " -> " ++ sdec r

/-! ### Text to words -/

/-- A line without its comment, which `;` starts. -/
def stripComment (cs : List Char) : List Char := cs.takeWhile (fun c => c != ';')

/-- A piece of text without the blanks around it. -/
def trimBlanks (cs : List Char) : List Char :=
  ((cs.dropWhile Char.isWhitespace).reverse.dropWhile Char.isWhitespace).reverse

/-- The pieces of a text between the separators `sep`; `part` is the piece being read, reversed. -/
def splitText (sep : Char) (part : List Char) : List Char → List (List Char)
  | [] => [part.reverse]
  | c :: rest => if c = sep then part.reverse :: splitText sep [] rest else splitText sep (c :: part) rest

/-- The operands of a command, separated by commas. -/
def operandsOf (cs : List Char) : List (List Char) :=
  if (trimBlanks cs).isEmpty then [] else (splitText ',' [] cs).map trimBlanks

/-- The value of a digit, decimal or hexadecimal. -/
def digitValue (c : Char) : Option Nat :=
  if '0' ≤ c ∧ c ≤ '9' then some (c.toNat - 48)
  else if 'a' ≤ c ∧ c ≤ 'f' then some (c.toNat - 87)
  else if 'A' ≤ c ∧ c ≤ 'F' then some (c.toNat - 55)
  else none

/-- Digits of a base, read after the number `acc`. -/
def digitsFrom (base acc : Nat) : List Char → Option Nat
  | [] => some acc
  | c :: rest =>
    match digitValue c with
    | some d => if d < base then digitsFrom base (acc * base + d) rest else none
    | none => none

/-- A natural number, decimal or `0x` hexadecimal. -/
def natOperand (cs : List Char) : Option Nat :=
  match cs with
  | [] => none
  | ['0', 'x'] => none
  | '0' :: 'x' :: rest => digitsFrom 16 0 rest
  | cs => digitsFrom 10 0 cs

/-- An unsigned operand of `n` bits. -/
def fieldOperand (n : Nat) (cs : List Char) : Option (BitVec n) :=
  match natOperand cs with
  | some v => if v < 2 ^ n then some (BitVec.ofNat n v) else none
  | none => none

/-- A signed operand of `n` bits, with a leading `-` when it is negative. -/
def signedOperand (n : Nat) (cs : List Char) : Option (BitVec n) :=
  match cs with
  | '-' :: rest =>
    match natOperand rest with
    | some v => if v ≤ 2 ^ (n - 1) then some (BitVec.ofInt n (-(v : Int))) else none
    | none => none
  | cs =>
    match natOperand cs with
    | some v => if v < 2 ^ (n - 1) then some (BitVec.ofNat n v) else none
    | none => none

/-- A Q16.16 operand: a decimal number with a point, assembled as `floor(value * 65536)`, or a raw word `0x...`. -/
def q16Operand (cs : List Char) : Option (BitVec 32) :=
  match cs with
  | '0' :: 'x' :: _ => fieldOperand 32 cs
  | cs =>
    match splitText '.' [] cs with
    | [a, b] =>
      match (if a.isEmpty then none else digitsFrom 10 0 a), (if b.isEmpty then none else digitsFrom 10 0 b) with
      | some whole, some frac =>
        let v := (whole * 10 ^ b.length + frac) * 65536 / 10 ^ b.length
        if v < 2 ^ 32 then some (BitVec.ofNat 32 v) else none
      | _, _ => none
    | _ => none

/-- An oscillator unit by its name. -/
def oscNamed (cs : List Char) : Option OscId :=
  [OscId.osc1, .osc2, .osc3, .osc4, .lfoAm, .lfoVib, .lfoTrm].find? (fun u => (oscName u).toList == cs)

/-- An envelope unit by its name. -/
def egNamed (cs : List Char) : Option OpId := [OpId.op1, .op2, .op3, .op4].find? (fun e => (egName e).toList == cs)

/-- An operator unit by its name. -/
def opNamed (cs : List Char) : Option OpId := [OpId.op1, .op2, .op3, .op4].find? (fun o => (opName o).toList == cs)

/-- The text after `name=` in the one operand of that name. -/
def namedText (name : String) (xs : List (List Char)) : Option (List Char) :=
  match xs.filter (fun x => (name ++ "=").toList.isPrefixOf x) with
  | [x] => some (x.drop (name.length + 1))
  | _ => none

/-- A `name=value` operand of `n` bits, wherever it stands. -/
def namedOperand (n : Nat) (name : String) (xs : List (List Char)) : Option (BitVec n) := namedText name xs >>= fieldOperand n

/-- The operands of a command of format OPI after the unit. -/
def opParamsNamed (xs : List (List Char)) : Option OpParams := do
  let ar ← namedOperand 5 "ar" xs
  let dr ← namedOperand 5 "dr" xs
  let sr ← namedOperand 5 "sr" xs
  let rr ← namedOperand 4 "rr" xs
  let sl ← namedOperand 4 "sl" xs
  let tl ← namedOperand 7 "tl" xs
  let ks ← namedOperand 2 "ks" xs
  let ml ← namedOperand 4 "ml" xs
  let dt ← namedOperand 3 "dt" xs
  let ams ← namedOperand 2 "ams" xs
  return { ar := ar, dr := dr, sr := sr, rr := rr, sl := sl, tl := tl, ks := ks, ml := ml, dt := dt, ams := ams }

/-- A command of class OSC, by mnemonic. -/
def oscLine (m : String) (xs : List (List Char)) : Option Instr :=
  match xs with
  | [u] => if m = "OSC.NEXT" then Instr.oscNext <$> oscNamed u else none
  | [u, a] =>
    if m = "OSC.SETCYC" then Instr.oscSetcyc <$> oscNamed u <*> q16Operand a
    else if m = "OSC.NEXTM" then Instr.oscNextm <$> oscNamed u <*> signedOperand 32 a
    else if m = "OSC.ADDPH" then Instr.oscAddph <$> oscNamed u <*> signedOperand 32 a
    else none
  | _ => none

/-- A command of class EG, by mnemonic. -/
def egLine (m : String) (xs : List (List Char)) : Option Instr :=
  match xs with
  | [e] =>
    if m = "EG.UPDATE" then Instr.egUpdate <$> egNamed e
    else if m = "EG.KEYOFF" then Instr.egKeyoff <$> egNamed e
    else if m = "EG.SNDOFF" then Instr.egSndoff <$> egNamed e
    else if m = "EG.NEXT" then Instr.egNext <$> egNamed e
    else none
  | [e, a] =>
    if m = "EG.SETRATE" then Instr.egSetrate <$> egNamed e <*> fieldOperand 20 a
    else if m = "EG.SETHOLD" then Instr.egSethold <$> egNamed e <*> fieldOperand 15 a
    else if m = "EG.SETFRZ" then Instr.egSetfrz <$> egNamed e <*> fieldOperand 7 a
    else none
  | e :: ys =>
    if m = "EG.INIT" ∧ ys.length = 6 then
      Instr.egInit <$> egNamed e <*> namedOperand 6 "rar" ys <*> namedOperand 6 "rdr" ys <*> namedOperand 6 "rsr" ys <*>
        namedOperand 6 "rrr" ys <*> namedOperand 4 "sl" ys <*> namedOperand 7 "tl" ys
    else none
  | [] => none

/-- A command of class OP, by mnemonic, with the operator-level names that R102 gives to four EG commands. -/
def opLine (m : String) (xs : List (List Char)) : Option Instr :=
  match xs with
  | [o] =>
    if m = "OP.NEXT" then Instr.opNext <$> opNamed o
    else if m = "OP.FIN" then Instr.opFin <$> opNamed o
    else if m = "OP.KEYOFF" then Instr.egKeyoff <$> opNamed o
    else if m = "OP.SNDOFF" then Instr.egSndoff <$> opNamed o
    else none
  | [o, a] =>
    if m = "OP.NEXTM" then Instr.opNextm <$> opNamed o <*> signedOperand 32 a
    else if m = "OP.SETHOLD" then Instr.egSethold <$> opNamed o <*> fieldOperand 15 a
    else if m = "OP.SETFRZ" then Instr.egSetfrz <$> opNamed o <*> fieldOperand 7 a
    else none
  | [o, a, b] =>
    if m = "OP.SETFREQ" then Instr.opSetfreq <$> opNamed o <*> q16Operand a <*> fieldOperand 20 b
    else if m = "OP.NEXTAM" then Instr.opNextam <$> opNamed o <*> signedOperand 9 a <*> signedOperand 32 b
    else none
  | o :: ys =>
    if m = "OP.INIT" ∧ ys.length = 11 then Instr.opInit <$> opNamed o <*> opParamsNamed ys <*> namedOperand 7 "key" ys
    else none
  | [] => none

/-- A command of class SG, by mnemonic; SG commands take no unit. -/
def sgLine (m : String) (xs : List (List Char)) : Option Instr :=
  match xs with
  | [] =>
    if m = "SG.NEXT" then some .sgNext
    else if m = "SG.FIN" then some .sgFin
    else if m = "SG.KEYOFF" then some .sgKeyoff
    else if m = "SG.SNDOFF" then some .sgSndoff
    else if m = "SG.RESET" then some .sgReset
    else none
  | [a] =>
    if m = "SG.SETDAMPER" then Instr.sgSetdamper <$> fieldOperand 7 a
    else if m = "SG.SETSOST" then Instr.sgSetsost <$> fieldOperand 7 a
    else if m = "SG.SETFRZ" then Instr.sgSetfrz <$> fieldOperand 7 a
    else none
  | [a, b] =>
    if m = "SG.SETFREQ" then Instr.sgSetfreq <$> q16Operand a <*> fieldOperand 20 b
    else if m = "SG.SETVIB" then Instr.sgSetvib <$> fieldOperand 13 a <*> q16Operand b
    else if m = "SG.SETTRM" then Instr.sgSettrm <$> fieldOperand 13 a <*> q16Operand b
    else none
  | xs =>
    if m = "SG.CONFIG" ∧ xs.length = 3 then
      Instr.sgConfig <$> namedOperand 3 "alg" xs <*> namedOperand 3 "fb" xs <*> namedOperand 3 "lfo" xs
    else none

/-- A command by mnemonic and operands: the classes' mnemonics are distinct. -/
def commandLine (m : String) (xs : List (List Char)) : Option Instr :=
  oscLine m xs <|> egLine m xs <|> opLine m xs <|> sgLine m xs

/-- One line of assembler text as the word it stands for; `NOP` is the all-zero word (R102), and a line whose operand is out of its
range (R99 (d), (e)) is no command. -/
def assemble (line : List Char) : Option Command :=
  let body := trimBlanks (stripComment line)
  let m := body.takeWhile (fun c => !c.isWhitespace)
  let xs := operandsOf (body.drop m.length)
  if m = "NOP".toList ∧ xs = [] then some 0
  else
    match commandLine (String.ofList m) xs with
    | some i => if i.wellFormed then some (encode i) else none
    | none => none

end Sys2Proof.Machine
end

