-- ==== Sys2Proof/Machine/Pseudo.lean ====
section
/-! DEFINITION. The pseudo-commands and their expansions into command words (30_encoding.md R102), with the VoiceParameters record (R5). -/

namespace Sys2Proof.Machine

open Sys2Proof

/-- One VoiceParameters record (R5). -/
structure VoiceParams where
  alg : BitVec 3
  fb : BitVec 3
  lfo : BitVec 3
  op1 : OpParams
  op2 : OpParams
  op3 : OpParams
  op4 : OpParams
  deriving DecidableEq, Repr

/-- The pseudo-commands of R102. -/
inductive Pseudo where
  | nop
  | opKeyoff (o : OpId)
  | opSndoff (o : OpId)
  | opSethold (o : OpId) (h : BitVec 15)
  | opSetfrz (o : OpId) (v : BitVec 7)
  | voiceLoad (p : VoiceParams) (key : BitVec 7)
  | noteOn (p : VoiceParams) (key : BitVec 7) (f : BitVec 32) (rate : BitVec 20)
  deriving DecidableEq, Repr

/-- The commands of `VOICE.LOAD p, key`, in the order R102 lists them. -/
def voiceLoadCommands (p : VoiceParams) (key : BitVec 7) : List Instr :=
  [.opInit .op1 p.op1 key, .opInit .op2 p.op2 key, .opInit .op3 p.op3 key, .opInit .op4 p.op4 key,
   .sgConfig p.alg p.fb p.lfo]

/-- The words a pseudo-command stands for (R102), VOICE.LOAD in the listed order; `NOP` is the all-zero word, which is reserved. -/
def expand (x : Pseudo) : List Command :=
  match x with
  | .nop => [0]
  | .opKeyoff o => [encode (.egKeyoff o)]
  | .opSndoff o => [encode (.egSndoff o)]
  | .opSethold o h => [encode (.egSethold o h)]
  | .opSetfrz o v => [encode (.egSetfrz o v)]
  | .voiceLoad p key => (voiceLoadCommands p key).map encode
  | .noteOn p key f rate => (voiceLoadCommands p key ++ [Instr.sgSetfreq f rate]).map encode

/-- `ws` is an expansion of the pseudo-command: R102 lets the words of VOICE.LOAD stand in any order. -/
def Expansion (x : Pseudo) (ws : List Command) : Prop :=
  match x with
  | .nop => ws = [0]
  | .opKeyoff o => ws = [encode (.egKeyoff o)]
  | .opSndoff o => ws = [encode (.egSndoff o)]
  | .opSethold o h => ws = [encode (.egSethold o h)]
  | .opSetfrz o v => ws = [encode (.egSetfrz o v)]
  | .voiceLoad p key => ∃ load : List Instr, load.Perm (voiceLoadCommands p key) ∧ ws = load.map encode
  | .noteOn p key f rate =>
    ∃ load : List Instr, load.Perm (voiceLoadCommands p key) ∧ ws = (load ++ [Instr.sgSetfreq f rate]).map encode

end Sys2Proof.Machine
end

