-- ==== Sys2Proof/Safety.lean ====
section
/-! DEFINITION. What the statements are stated in: legal register values (10_state.md R37), the invariant every step keeps, frames
(what a command leaves unchanged), and runs of commands. -/

namespace Sys2Proof.Machine

open Sys2Proof

/-- The states in which `CUR` is read as a linear amplitude (10_state.md R27). -/
def linearState (x : EgState) : Bool := x == .attack || x == .attackRelease

/-- R145 as the spec writes it: the seven latched registers against the parameter and control registers. -/
def EgLatched (c : Config) (e : Eg) : Prop :=
  let div : ℚ := max 1 (e.rate.toNat : ℚ)
  let k : ℚ := (1 - (e.hold.toNat : ℚ) / 16129) * (1 - (e.freeze.toNat : ℚ) / 127)
  e.fAr.toNat = ⌊max 1 (c.arateRom e.rar e.tl / div)⌋₊ ∧
  e.fDr.toNat = min ⌊c.rrateRom e.rdr e.tl / div * k⌋₊ (2 ^ 32 - 1) ∧
  e.fSr.toNat = min ⌊c.rrateRom e.rsr e.tl / div * k⌋₊ (2 ^ 32 - 1) ∧
  e.fRr.toNat = min ⌊max 1 (c.rrateRom e.rrr e.tl / div) * k⌋₊ (2 ^ 32 - 1) ∧
  e.fOr.toNat = max 1 (min ⌊c.rrateRom 63 0 / div⌋₊ (2 ^ 32 - 1)) ∧
  e.fTl.toNat = c.tlRom e.tl ∧
  e.fSl.toNat = c.slRom e.sl e.tl

/-- `e` with the latched registers of `l`. -/
def withLatched (e l : Eg) : Eg :=
  { e with fTl := l.fTl, fSl := l.fSl, fAr := l.fAr, fDr := l.fDr, fSr := l.fSr, fRr := l.fRr, fOr := l.fOr }

/-- The largest `FAR` that the parameters of a unit allow: R145 divides by at least 1, whatever `RATE` is. -/
def topAttackStep (c : Config) (e : Eg) : Nat := ⌊max 1 (c.arateRom e.rar e.tl)⌋₊

/-- R37 (d) as it is worded. A step that lowers `FAR` while `CUR` is past the peak can end it until the next
sample (assumption 18), so it is no part of `EgInv`. -/
def AttackBelowSum (e : Eg) : Prop := linearState e.st = true → e.cur.toNat < e.fTl.toNat + e.fAr.toNat

/-- The invariant of one envelope unit (R37): `HOLD` is legal; the latched registers agree with the parameters unless the unit is as
reset left it; a linear level is below the peak plus the largest `FAR` the unit has had, so it never wraps. -/
def EgInv (c : Config) (e : Eg) : Prop :=
  e.hold.toNat ≤ 16129 ∧
  (e = Eg.reset ∨ EgLatched c e) ∧
  (linearState e.st = true → e.cur.toNat < e.fTl.toNat + topAttackStep c e)

/-- The invariant of a state (R37). -/
def State.Inv (s : State) : Prop := ∀ e, EgInv s.config (s.egAt e)

/-- What carries over unchanged in every command: the host's further events and the configuration. -/
def SameOutside (s t : State) : Prop := t.host = s.host ∧ t.cfg = s.cfg

/-- Nothing but oscillator `u` and the response has changed. -/
def OnlyOsc (u : OscId) (s t : State) : Prop :=
  (∀ v, v ≠ u → t.oscAt v = s.oscAt v) ∧ t.eg = s.eg ∧ t.op = s.op ∧ t.sg = s.sg ∧ SameOutside s t

/-- Nothing but envelope unit `e` and the response has changed. -/
def OnlyEg (e : OpId) (s t : State) : Prop :=
  t.osc = s.osc ∧ (∀ f, f ≠ e → t.egAt f = s.egAt f) ∧ t.op = s.op ∧ t.sg = s.sg ∧ SameOutside s t

/-- Nothing but operator `o`, its oscillator and its envelope, and the response has changed. -/
def OnlyOperator (o : OpId) (s t : State) : Prop :=
  (∀ v, v ≠ o.osc → t.oscAt v = s.oscAt v) ∧ (∀ f, f ≠ o → t.egAt f = s.egAt f) ∧
  (∀ p, p ≠ o → t.opAt p = s.opAt p) ∧ t.sg = s.sg ∧ SameOutside s t

/-- Nothing but the response has changed. -/
def OnlyResponse (s t : State) : Prop := t.osc = s.osc ∧ t.eg = s.eg ∧ t.op = s.op ∧ t.sg = s.sg ∧ SameOutside s t

/-- Every register holds the reset value of 10_state.md R36, written out: every `ST` is FINISHED, all the rest is 0. The ports and the
configuration are no registers. -/
def RegistersReset (t : State) : Prop :=
  (∀ u, t.oscAt u = { pos := 0, step := 0 }) ∧
  (∀ e, t.egAt e =
    { st := .finished, cur := 0, rar := 0, rdr := 0, rsr := 0, rrr := 0, sl := 0, tl := 0, rate := 0, hold := 0, freeze := 0,
      fTl := 0, fSl := 0, fAr := 0, fDr := 0, fSr := 0, fRr := 0, fOr := 0 }) ∧
  (∀ o, t.opAt o = { ks := 0, ml := 0, dt := 0, ams := 0, key := 0 }) ∧
  t.sg = { alg := 0, fb := 0, lfoIdx := 0, fbReg := 0, damper := 0, sost := 0, vibDepth := 0, trmDepth := 0, vibFreq := 0,
           trmFreq := 0, sgRate := 0 }

/-- Every envelope level can be read back from the signed 32-bit response. R6 bounds `EXP_ROM` by nothing but its order; both named
configurations meet this (assumption 6). -/
def LevelsFit (c : Config) : Prop := c.expRom (c.logSize - 1) < 2 ^ 31

/-- `Dec` (41_envelope.md R146) of a code, in plain arithmetic. -/
def decoded (c : Config) (code : Nat) : Nat := c.expRom (min (code / 2 ^ c.logFrac) (c.logSize - 1))

/-- `Idx` (40_oscillator.md R120) of a phase, in plain arithmetic. -/
def tableIndex (c : Config) (pos : Nat) : Nat := pos / 2 ^ c.phaseFrac % c.sineDiv

/-- The step of a frequency `f` at a sample rate (40_oscillator.md R121, 42_operator.md R183, 43_soundgen.md R202): units of the
accumulator per sample, floored once and taken modulo 2^32; 0 for a frequency of 0 or below or an unset rate. -/
def stepFor (c : Config) (f : ℚ) (rate : BitVec 20) : Nat :=
  if f ≤ 0 ∨ rate.toNat = 0 then 0 else ⌊(c.sineDiv : ℚ) * 2 ^ c.phaseFrac * f / rate.toNat⌋₊ % 2 ^ 32

/-- The command runs `EgNext` on envelope unit `e` (41_envelope.md R150, 42_operator.md R184 to R186, 43_soundgen.md R211). -/
def advances (i : Instr) (e : OpId) : Bool :=
  match i with
  | .egNext x => x == e
  | .opNext x => x == e
  | .opNextm x _ => x == e
  | .opNextam x _ _ => x == e
  | .sgNext => true
  | .oscSetcyc _ _ | .oscNext _ | .oscNextm _ _ | .oscAddph _ _ | .egInit _ _ _ _ _ _ _ | .egSetrate _ _ | .egUpdate _
  | .egSethold _ _ | .egSetfrz _ _ | .egKeyoff _ | .egSndoff _ | .opInit _ _ _ | .opSetfreq _ _ _ | .opFin _
  | .sgConfig _ _ _ | .sgSetfreq _ _ | .sgFin | .sgKeyoff | .sgSndoff | .sgSetdamper _ | .sgSetsost _ | .sgSetfrz _
  | .sgSetvib _ _ | .sgSettrm _ _ | .sgReset => false

/-- The command is a key-off for envelope unit `e` (41_envelope.md R157, 43_soundgen.md R216). -/
def keysOff (i : Instr) (e : OpId) : Bool :=
  match i with
  | .egKeyoff x => x == e
  | .sgKeyoff => true
  | .oscSetcyc _ _ | .oscNext _ | .oscNextm _ _ | .oscAddph _ _ | .egInit _ _ _ _ _ _ _ | .egSetrate _ _ | .egUpdate _
  | .egSethold _ _ | .egSetfrz _ _ | .egSndoff _ | .egNext _ | .opInit _ _ _ | .opSetfreq _ _ _ | .opNext _ | .opNextm _ _
  | .opNextam _ _ _ | .opFin _ | .sgConfig _ _ _ | .sgSetfreq _ _ | .sgNext | .sgFin | .sgSndoff | .sgSetdamper _
  | .sgSetsost _ | .sgSetfrz _ | .sgSetvib _ _ | .sgSettrm _ _ | .sgReset => false

/-- The command is a sound-off for envelope unit `e` (41_envelope.md R156, 43_soundgen.md R217). -/
def soundsOff (i : Instr) (e : OpId) : Bool :=
  match i with
  | .egSndoff x => x == e
  | .sgSndoff => true
  | .oscSetcyc _ _ | .oscNext _ | .oscNextm _ _ | .oscAddph _ _ | .egInit _ _ _ _ _ _ _ | .egSetrate _ _ | .egUpdate _
  | .egSethold _ _ | .egSetfrz _ _ | .egKeyoff _ | .egNext _ | .opInit _ _ _ | .opSetfreq _ _ _ | .opNext _ | .opNextm _ _
  | .opNextam _ _ _ | .opFin _ | .sgConfig _ _ _ | .sgSetfreq _ _ | .sgNext | .sgFin | .sgKeyoff | .sgSetdamper _
  | .sgSetsost _ | .sgSetfrz _ | .sgSetvib _ _ | .sgSettrm _ _ | .sgReset => false

/-- The command constructs envelope unit `e` (41_envelope.md R148, 42_operator.md R180). -/
def constructs (i : Instr) (e : OpId) : Bool :=
  match i with
  | .egInit x _ _ _ _ _ _ => x == e
  | .opInit x _ _ => x == e
  | .oscSetcyc _ _ | .oscNext _ | .oscNextm _ _ | .oscAddph _ _ | .egSetrate _ _ | .egUpdate _ | .egSethold _ _
  | .egSetfrz _ _ | .egKeyoff _ | .egSndoff _ | .egNext _ | .opSetfreq _ _ _ | .opNext _ | .opNextm _ _ | .opNextam _ _ _
  | .opFin _ | .sgConfig _ _ _ | .sgSetfreq _ _ | .sgNext | .sgFin | .sgKeyoff | .sgSndoff | .sgSetdamper _ | .sgSetsost _
  | .sgSetfrz _ | .sgSetvib _ _ | .sgSettrm _ _ | .sgReset => false

/-- The command sets the sample rate of envelope unit `e` and constructs nothing (41_envelope.md R149, 42_operator.md R183, 43_soundgen.md
R203). -/
def setsRate (i : Instr) (e : OpId) : Bool :=
  match i with
  | .egSetrate x _ => x == e
  | .opSetfreq x _ _ => x == e
  | .sgSetfreq _ _ => true
  | .oscSetcyc _ _ | .oscNext _ | .oscNextm _ _ | .oscAddph _ _ | .egInit _ _ _ _ _ _ _ | .egUpdate _ | .egSethold _ _
  | .egSetfrz _ _ | .egKeyoff _ | .egSndoff _ | .egNext _ | .opInit _ _ _ | .opNext _ | .opNextm _ _ | .opNextam _ _ _
  | .opFin _ | .sgConfig _ _ _ | .sgNext | .sgFin | .sgKeyoff | .sgSndoff | .sgSetdamper _ | .sgSetsost _ | .sgSetfrz _
  | .sgSetvib _ _ | .sgSettrm _ _ | .sgReset => false

/-- The oscillator is one of the three LFOs (00_scope.md R11). -/
def isLfo (u : OscId) : Bool := u == .lfoAm || u == .lfoVib || u == .lfoTrm

/-- The command is among those that 10_state.md R25 lists as writing `POS` of oscillator `u`. -/
def writesPos (i : Instr) (u : OscId) : Bool :=
  match i with
  | .oscNext x => x == u
  | .oscNextm x _ => x == u
  | .oscAddph x _ => x == u
  | .opInit o _ _ => o.osc == u
  | .opNext o => o.osc == u
  | .opNextm o _ => o.osc == u
  | .opNextam o _ _ => o.osc == u
  | .sgConfig _ _ _ => isLfo u
  | .sgNext => true
  | .sgReset => true
  | .oscSetcyc _ _ | .egInit _ _ _ _ _ _ _ | .egSetrate _ _ | .egUpdate _ | .egSethold _ _ | .egSetfrz _ _ | .egKeyoff _
  | .egSndoff _ | .egNext _ | .opSetfreq _ _ _ | .opFin _ | .sgSetfreq _ _ | .sgFin | .sgKeyoff | .sgSndoff
  | .sgSetdamper _ | .sgSetsost _ | .sgSetfrz _ | .sgSetvib _ _ | .sgSettrm _ _ => false

/-- The command is among those that R25 lists as writing `STEP` of oscillator `u`. -/
def writesStep (i : Instr) (u : OscId) : Bool :=
  match i with
  | .oscSetcyc x _ => x == u
  | .opInit o _ _ => o.osc == u
  | .opSetfreq o _ _ => o.osc == u
  | .sgConfig _ _ _ => isLfo u
  | .sgSetfreq _ _ => true
  | .sgSetvib _ _ => u == .lfoVib
  | .sgSettrm _ _ => u == .lfoTrm
  | .sgReset => true
  | .oscNext _ | .oscNextm _ _ | .oscAddph _ _ | .egInit _ _ _ _ _ _ _ | .egSetrate _ _ | .egUpdate _ | .egSethold _ _
  | .egSetfrz _ _ | .egKeyoff _ | .egSndoff _ | .egNext _ | .opNext _ | .opNextm _ _ | .opNextam _ _ _ | .opFin _
  | .sgNext | .sgFin | .sgKeyoff | .sgSndoff | .sgSetdamper _ | .sgSetsost _ | .sgSetfrz _ => false

/-- The `EG.NEXT` column of the transition table of 41_envelope.md R162. -/
def stAfterNext (c : Config) (e : Eg) : EgState :=
  let riseDone := e.fTl.toNat ≤ e.cur.toNat
  let atSl (x : Nat) := e.cur.toNat ≤ e.fSl.toNat + x
  let quiet (x : Nat) := e.cur.toNat ≤ x ∨ decoded c (e.cur.toNat - x) ≤ 1
  let low (x : Nat) := decoded c (e.cur.toNat - x) < c.soundoffLevel
  match e.st with
  | .attack => if riseDone then .decay else .attack
  | .decay => if atSl e.fDr.toNat then .sastain else .decay
  | .sastain => if quiet e.fSr.toNat then .finished else .sastain
  | .release => if e.cur.toNat ≤ e.fRr.toNat then .finished else if low e.fRr.toNat then .soundoff else .release
  | .attackRelease => if riseDone then .decayRelease else .attackRelease
  | .decayRelease => if atSl (max e.fDr.toNat e.fRr.toNat) then .release else .decayRelease
  | .soundoff => if quiet e.fOr.toNat then .finished else .soundoff
  | .finished => .finished

/-- The `EG.KEYOFF` column of R162. -/
def stAfterKeyoff (x : EgState) : EgState :=
  match x with
  | .attack => .attackRelease
  | .decay => .decayRelease
  | .sastain => .release
  | .release => .release
  | .attackRelease => .attackRelease
  | .decayRelease => .decayRelease
  | .soundoff => .soundoff
  | .finished => .finished

/-- The `EG.SNDOFF` column of R162. -/
def stAfterSndoff (x : EgState) : EgState := if x = .finished then .finished else .soundoff

/-- The two chains of 41_envelope.md R163. -/
def playingChain : List EgState := [.attack, .decay, .sastain, .finished]

/-- The chain a released or choked note moves along (R163). -/
def releasedChain : List EgState := [.attackRelease, .decayRelease, .release, .soundoff, .finished]

/-- `b` is `a` or stands after `a` in one of the two chains (R163). -/
abbrev Forward (a b : EgState) : Prop := a = b ∨ [a, b].Sublist playingChain ∨ [a, b].Sublist releasedChain

/-- The accumulator after a plain advance (40_oscillator.md R122). -/
def advancedPos (o : Osc) : Nat := (o.pos.toNat + o.step.toNat) % 2 ^ 32

/-- The accumulator after an offset of `m / 65536` of a step and a plain advance (40_oscillator.md R124, R122). -/
def offsetPos (o : Osc) (m : Int) : Nat :=
  (((o.pos.toNat : Int) + (o.step.toNat : Int) * m / 65536 + o.step.toNat) % 2 ^ 32).toNat

/-- The next sample of an unmodulated oscillator (R122). -/
def nextSample (c : Config) (o : Osc) : Int := c.sineRom (tableIndex c (advancedPos o))

/-- The closed form of 43_soundgen.md R209: the offset `m` of this sample, 0 without vibrato. -/
def voiceVib (s : State) : Int :=
  if s.sg.vibDepth = 0 then 0
  else s.config.vibRom (nextSample s.config (s.oscAt .lfoVib) * s.sg.vibDepth.toNat / 2 ^ 15)

/-- The closed form of R210: the AM value of this sample, if some operator has a nonzero `AMS`. -/
def voiceAm (s : State) : Option Int :=
  if ∀ o ∈ [OpId.op1, .op2, .op3, .op4], (s.opAt o).ams = 0 then none
  else some (nextSample s.config (s.oscAt .lfoAm) / 2 ^ 7)

/-- The closed form of `f(OPn, mod)` (R210, 42_operator.md R184 to R187). -/
def voiceOp (s : State) (o : OpId) (mod : Int) : Int :=
  let index := ((offsetPos (s.oscAt o.osc) (voiceVib s) / 2 ^ s.config.phaseFrac : Nat) : Int)
    + (mod * s.config.sineDiv).tdiv s.config.modFull
  let x := s.config.sineRom (index % s.config.sineDiv).toNat * (egNext s.config (s.egAt o)).2 / 2 ^ 15
  let factor : Int := (s.config.amsRom (s.opAt o).ams / 2 : Nat)
  match voiceAm s with
  | none => x
  | some am => x * (am * factor + (32768 - factor * 256)) / 2 ^ 15

/-- OP1's output (R208, R211). -/
def voiceOut1 (s : State) : Int :=
  voiceOp s .op1 (s.sg.fbReg.toInt * 2 ^ s.config.fbPreshift / 2 ^ fbshiftTable s.sg.fb)

/-- OP2's output (R211). -/
def voiceOut2 (s : State) : Int :=
  voiceOp s .op2 (if (s.config.algTable s.sg.alg).m2.op1 then voiceOut1 s else 0)

/-- OP3's output (R211). -/
def voiceOut3 (s : State) : Int :=
  let m := (s.config.algTable s.sg.alg).m3
  voiceOp s .op3 ((if m.op1 then voiceOut1 s else 0) + (if m.op2 then voiceOut2 s else 0))

/-- OP4's output (R211). -/
def voiceOut4 (s : State) : Int :=
  let m := (s.config.algTable s.sg.alg).m4
  voiceOp s .op4 ((if m.op1 then voiceOut1 s else 0) + (if m.op2 then voiceOut2 s else 0) + (if m.op3 then voiceOut3 s else 0))

/-- The carriers' sum (R211). -/
def voiceMix (s : State) : Int :=
  let m := (s.config.algTable s.sg.alg).c
  (if m.op1 then voiceOut1 s else 0) + (if m.op2 then voiceOut2 s else 0) + (if m.op3 then voiceOut3 s else 0) +
    (if m.op4 then voiceOut4 s else 0)

/-- The sum after tremolo (R213). -/
def voiceReturn (s : State) : Int :=
  if s.sg.trmDepth = 0 then voiceMix s
  else voiceMix s * (4096 - (nextSample s.config (s.oscAt .lfoTrm) + 32768) * s.sg.trmDepth.toNat / 2 ^ 11) / 2 ^ 12

/-- A row of the opcode map (30_encoding.md R98): the opcode, how many units its class has (R93), and how many low bits of `PAYLOAD`
its format names (R94). -/
structure OpcodeRow where
  opc : Nat
  units : Nat
  width : Nat
  deriving DecidableEq, Repr

/-- The opcode map (R98). -/
def opcodeMap : List OpcodeRow :=
  [⟨0x01, 7, 32⟩, ⟨0x02, 7, 0⟩, ⟨0x03, 7, 32⟩, ⟨0x04, 7, 32⟩] ++
  [⟨0x10, 4, 35⟩, ⟨0x11, 4, 20⟩, ⟨0x12, 4, 0⟩, ⟨0x13, 4, 15⟩, ⟨0x14, 4, 7⟩, ⟨0x15, 4, 0⟩, ⟨0x16, 4, 0⟩, ⟨0x17, 4, 0⟩] ++
  [⟨0x20, 4, 48⟩, ⟨0x21, 4, 52⟩, ⟨0x22, 4, 0⟩, ⟨0x23, 4, 32⟩, ⟨0x24, 4, 41⟩, ⟨0x25, 4, 0⟩] ++
  [⟨0x30, 1, 9⟩, ⟨0x31, 1, 52⟩, ⟨0x32, 1, 0⟩, ⟨0x33, 1, 0⟩, ⟨0x34, 1, 0⟩, ⟨0x35, 1, 0⟩] ++
  [⟨0x36, 1, 7⟩, ⟨0x37, 1, 7⟩, ⟨0x38, 1, 7⟩, ⟨0x39, 1, 45⟩, ⟨0x3A, 1, 45⟩, ⟨0x3F, 1, 0⟩]

/-- The reserved command words, case by case as 30_encoding.md R99 lists them, in plain arithmetic on the word. -/
def ReservedWord (w : Command) : Prop :=
  let opc := w.toNat / 2 ^ 56
  let unit := w.toNat / 2 ^ 52 % 16
  let payload := w.toNat % 2 ^ 52
  (∀ r ∈ opcodeMap, r.opc ≠ opc) ∨
  (∃ r ∈ opcodeMap, r.opc = opc ∧ r.units ≤ unit) ∨
  (∃ r ∈ opcodeMap, r.opc = opc ∧ 2 ^ r.width ≤ payload) ∨
  (opc = 0x13 ∧ 16129 < payload % 2 ^ 15) ∨
  (opc = 0x3A ∧ 127 < payload / 2 ^ 32 % 2 ^ 13)

/-- The outcome of the commands of a list, one after the other (20_memory.md R70). -/
def execAll : List Instr → State → Result
  | [], s => .next s
  | i :: rest, s =>
    match exec i s with
    | .next t => execAll rest t
    | .fault f => .fault f
    | .refused r => .refused r

/-- `n` samples of envelope unit `e` leave its code as it is and its state among `sts`, change nothing else, and the last of them returns
the decoded code. -/
def StaysHeld (e : OpId) (n : Nat) (sts : List EgState) (s : State) : Prop :=
  ∃ t, execAll (List.replicate n (.egNext e)) s = .next t ∧
    t.egAt e = { s.egAt e with st := (t.egAt e).st } ∧ (t.egAt e).st ∈ sts ∧
    (1 ≤ n → t.rsp = BitVec.ofNat 32 (decoded s.config (s.egAt e).cur.toNat)) ∧ OnlyEg e s t

end Sys2Proof.Machine
end

