-- ==== Sys2Proof/Certificates/Slice0/Obligations.lean ====
section
/-! DEFINITION. The statements for the provers, in the order of spec/: the command port, the oscillators, the envelopes, the operators,
the sound generator, reset, and the invariant of the whole machine. A statement of what a command does has the form "exec answers
next t, and t is ...", so it says that the command completes; its last clauses are the frame. -/

open Sys2Proof Sys2Proof.Machine

/-! ### The command port -/

/-- 60_exceptions.md R240, 20_memory.md R63: every command completes, and so does every step; the configuration is never touched by a
command, and neither is the list of the host's further events, which is the model's own (assumption 1). -/
def Obligations.EveryCommandCompletes : Prop :=
  (∀ (i : Instr) (s : State), ∃ t, exec i s = .next t ∧ SameOutside s t) ∧ ∀ s : State, ∃ t, step s = .next t

/-- 20_memory.md R70, 60_exceptions.md R243: a step takes the host's next event off its list; a word that decodes to a command runs as
that command and nothing else; with no event nothing happens. That the list is in the state is the model's choice (assumption 1). -/
def Obligations.StepRunsDecodedCommand : Prop :=
  (∀ (s : State) (w : Command) (rest : List HostEvent) (i : Instr),
    s.host = .command w :: rest → decode w = .ok i → step s = exec i { s with host := rest } ∧ i.WellFormed) ∧
  ∀ s : State, s.host = [] → step s = .next s

/-- 30_encoding.md R99: exactly the words of cases (a) to (e) are reserved, and presenting one changes nothing and returns 0. -/
def Obligations.ReservedWordIgnored : Prop :=
  (∀ w : Command, ReservedWord w ↔ ∃ e, decode w = .error e) ∧
  ∀ (s : State) (w : Command) (rest : List HostEvent),
    s.host = .command w :: rest → ReservedWord w → step s = .next { s with host := rest, rsp := 0 }

/-- 30_encoding.md R91 to R98, R103: decoding an encoded well-formed command gives it back. -/
def Obligations.DecodeEncodeAgree : Prop :=
  ∀ i : Instr, i.WellFormed → decode (encode i) = .ok i

/-- 30_encoding.md R98, R99: a word that decodes is the encoding of the well-formed command it decodes to, so every legal command has
exactly one word. -/
def Obligations.EncodeDecodeAgree : Prop :=
  ∀ (w : Command) (i : Instr), decode w = .ok i → i.WellFormed ∧ encode i = w

/-- 30_encoding.md R103 and 95_test_vectors.md E1: words written out in the spec decode to the commands they stand for. -/
def Obligations.SpecWordsDecode : Prop :=
  decode 0x201078424C13815F#64 =
    .ok (.opInit .op2 { ar := 31, dr := 10, sr := 0, rr := 7, sl := 2, tl := 24, ks := 1, ml := 2, dt := 4, ams := 0 } 60) ∧
  decode 0x03100000FFFFE000#64 = .ok (.oscNextm .osc2 (BitVec.ofInt 32 (-8192))) ∧
  decode 0x10000000023C33C7#64 = .ok (.egInit .op1 7 15 3 15 2 0) ∧
  decode 0x3900004000050000#64 = .ok (.sgSetvib 64 0x00050000) ∧
  decode 0x2400010000002000#64 = .ok (.opNextam .op1 (BitVec.ofInt 9 (-256)) 8192)

/-- 20_memory.md R64, R65: over a byte-wide transport byte k carries bits 8k+7 to 8k, least significant byte first, and the words come
back; no other byte string is a command or a response. -/
def Obligations.ByteTransport : Prop :=
  (∀ (w : Command) (k : Nat), k < 8 → (bytesOfCommand w)[k]? = some (w.extractLsb' (8 * k) 8)) ∧
  (∀ (r : Response) (k : Nat), k < 4 → (bytesOfResponse r)[k]? = some (r.extractLsb' (8 * k) 8)) ∧
  (∀ (bs : List Byte) (w : Command), commandOfBytes bs = some w ↔ bs = bytesOfCommand w) ∧
  ∀ (bs : List Byte) (r : Response), responseOfBytes bs = some r ↔ bs = bytesOfResponse r

/-- 20_memory.md R62: in every configuration every computed table index is in range. -/
def Obligations.TableIndexInRange : Prop :=
  ∀ c : Config, c.Valid →
    (∀ pos, sineIndex c pos < c.sineDiv) ∧
    (∀ pos mod, modIndex c pos mod < c.sineDiv) ∧
    (∀ cur : BitVec 32, min (cur.toNat >>> c.logFrac) (c.logSize - 1) < c.logSize) ∧
    (∀ e, EgInv c e → e.fTl.toNat < 2 ^ 31 ∧ (linearState e.st = true → e.cur.toNat < 2 ^ 31)) ∧
    ∀ (i : Nat) (depth : BitVec 13), i < c.sineDiv →
      -8191 ≤ vibDeviation (c.sineRom i) depth ∧ vibDeviation (c.sineRom i) depth ≤ 8190

/-- 10_state.md R25, R26, R28, R31, as a rule over all commands: which commands write the phase and the step of an oscillator, that only
construction leads out of FINISHED, and that the rate, level and operator parameters are written by construction and reset alone. -/
def Obligations.RegisterWriters : Prop :=
  ∀ (i : Instr) (s t : State), exec i s = .next t →
    (∀ u, writesPos i u = false → (t.oscAt u).pos = (s.oscAt u).pos) ∧
    (∀ u, writesStep i u = false → (t.oscAt u).step = (s.oscAt u).step) ∧
    (∀ e, constructs i e = false → (s.egAt e).st = .finished → (t.egAt e).st = .finished) ∧
    (∀ e, constructs i e = false → i ≠ .sgReset →
      (t.egAt e).rar = (s.egAt e).rar ∧ (t.egAt e).rdr = (s.egAt e).rdr ∧ (t.egAt e).rsr = (s.egAt e).rsr ∧
      (t.egAt e).rrr = (s.egAt e).rrr ∧ (t.egAt e).sl = (s.egAt e).sl ∧ (t.egAt e).tl = (s.egAt e).tl) ∧
    ∀ o, (∀ p key, i ≠ .opInit o p key) → i ≠ .sgReset → t.opAt o = s.opAt o

/-! ### Class OSC -/

/-- 40_oscillator.md R121: the step is floor(SINE_DIV * 2^PHASE_FRAC / (ARG / 65536)), its low 32 bits; a zero cycle gives step 0; the
phase is kept. -/
def Obligations.OscSetcycStep : Prop :=
  ∀ (u : OscId) (arg : BitVec 32) (s : State), ∃ t, exec (.oscSetcyc u arg) s = .next t ∧
    (t.oscAt u).pos = (s.oscAt u).pos ∧
    (t.oscAt u).step.toNat =
      (if arg = 0 then 0 else s.config.sineDiv * 2 ^ s.config.phaseFrac * 65536 / arg.toNat % 2 ^ 32) ∧
    t.rsp = 0 ∧ OnlyOsc u s t

/-- 40_oscillator.md R122 with R120, R126: advance modulo 2^32, then look up; the response is the table entry, within 32767; with step
0 the entry at the frozen phase is returned. -/
def Obligations.OscNextSample : Prop :=
  ∀ (u : OscId) (s : State), ∃ t, exec (.oscNext u) s = .next t ∧
    (t.oscAt u).pos.toNat = ((s.oscAt u).pos.toNat + (s.oscAt u).step.toNat) % 2 ^ 32 ∧
    (t.oscAt u).step = (s.oscAt u).step ∧
    t.rsp.toInt = s.config.sineRom ((t.oscAt u).pos.toNat / 2 ^ s.config.phaseFrac % s.config.sineDiv) ∧
    -32767 ≤ t.rsp.toInt ∧ t.rsp.toInt ≤ 32767 ∧
    ((s.oscAt u).step = 0 → t.oscAt u = s.oscAt u) ∧ OnlyOsc u s t

/-- 40_oscillator.md R123: the lookup index of this one sample is offset by tdiv(mod * SINE_DIV, MOD_FULL); the accumulator moves as in
OSC.NEXT. -/
def Obligations.OscNextmSample : Prop :=
  ∀ (u : OscId) (arg : BitVec 32) (s : State), ∃ t, exec (.oscNextm u arg) s = .next t ∧
    (t.oscAt u).pos.toNat = ((s.oscAt u).pos.toNat + (s.oscAt u).step.toNat) % 2 ^ 32 ∧
    (t.oscAt u).step = (s.oscAt u).step ∧
    t.rsp.toInt = s.config.sineRom
      ((((t.oscAt u).pos.toNat / 2 ^ s.config.phaseFrac : Nat) + (arg.toInt * s.config.sineDiv).tdiv s.config.modFull)
        % (s.config.sineDiv : Int)).toNat ∧
    OnlyOsc u s t

/-- 40_oscillator.md R123 corner cases (a) to (c): a modulation below one table entry either way, or of whole turns, is no modulation. -/
def Obligations.OscNextmCorners : Prop :=
  ∀ (u : OscId) (arg : BitVec 32) (s : State),
    (arg.toInt.natAbs * s.config.sineDiv < s.config.modFull ∨ (s.config.modFull : Int) ∣ arg.toInt) →
    exec (.oscNextm u arg) s = exec (.oscNext u) s

/-- 40_oscillator.md R124: the phase moves by floor(STEP * x / 65536), modulo 2^32; x = 65536 is one whole step; x = 0 or STEP = 0 is
no move. -/
def Obligations.OscAddphMove : Prop :=
  ∀ (u : OscId) (arg : BitVec 32) (s : State), ∃ t, exec (.oscAddph u arg) s = .next t ∧
    ((t.oscAt u).pos.toNat : Int) =
      ((s.oscAt u).pos.toNat + ((s.oscAt u).step.toNat : Int) * arg.toInt / 65536) % 2 ^ 32 ∧
    (t.oscAt u).step = (s.oscAt u).step ∧
    (arg = 65536 → (t.oscAt u).pos = (s.oscAt u).pos + (s.oscAt u).step) ∧
    (arg = 0 ∨ (s.oscAt u).step = 0 → t.oscAt u = s.oscAt u) ∧
    t.rsp = 0 ∧ OnlyOsc u s t

/-- 40_oscillator.md R125: the n-th unmodulated sample after phase p is the entry at p + n * STEP, and the sequence repeats after
2^32 / gcd(STEP, 2^32) samples. -/
def Obligations.OscSampleSequence : Prop :=
  ∀ (u : OscId) (n : Nat) (s : State), 1 ≤ n → ∃ t, execAll (List.replicate n (.oscNext u)) s = .next t ∧
    (t.oscAt u).pos.toNat = ((s.oscAt u).pos.toNat + n * (s.oscAt u).step.toNat) % 2 ^ 32 ∧
    (t.oscAt u).step = (s.oscAt u).step ∧
    t.rsp.toInt = s.config.sineRom (tableIndex s.config (t.oscAt u).pos.toNat) ∧
    (∀ v, execAll (List.replicate (n + 2 ^ 32 / Nat.gcd (s.oscAt u).step.toNat (2 ^ 32)) (.oscNext u)) s = .next v →
      v.oscAt u = t.oscAt u ∧ v.rsp = t.rsp)

/-! ### Class EG -/

/-- 41_envelope.md R148 with R145: construction loads the parameters, clears rate, hold and freeze, starts ATTACK at level 0 and
latches. -/
def Obligations.EgInitConstructs : Prop :=
  ∀ (e : OpId) (rar rdr rsr rrr : BitVec 6) (sl : BitVec 4) (tl : BitVec 7) (s : State),
    ∃ t, exec (.egInit e rar rdr rsr rrr sl tl) s = .next t ∧
      t.egAt e = withLatched
        { s.egAt e with rar := rar, rdr := rdr, rsr := rsr, rrr := rrr, sl := sl, tl := tl, rate := 0, hold := 0, freeze := 0,
                        st := .attack, cur := 0 } (t.egAt e) ∧
      EgLatched s.config (t.egAt e) ∧ t.rsp = 0 ∧ OnlyEg e s t

/-- 41_envelope.md R149, R159 with R145: EG.SETRATE and EG.SETFRZ store their operand and latch; level and state are kept. -/
def Obligations.EgRateAndFreeze : Prop :=
  (∀ (e : OpId) (rate : BitVec 20) (s : State), ∃ t, exec (.egSetrate e rate) s = .next t ∧
    t.egAt e = withLatched { s.egAt e with rate := rate } (t.egAt e) ∧
    EgLatched s.config (t.egAt e) ∧ t.rsp = 0 ∧ OnlyEg e s t) ∧
  ∀ (e : OpId) (val : BitVec 7) (s : State), ∃ t, exec (.egSetfrz e val) s = .next t ∧
    t.egAt e = withLatched { s.egAt e with freeze := val } (t.egAt e) ∧
    EgLatched s.config (t.egAt e) ∧ t.rsp = 0 ∧ OnlyEg e s t

/-- 41_envelope.md R158, 30_encoding.md R104: a numerator up to 16129 is stored and latched; at 16129 the decay, sustain and release
decrements are 0; a larger one makes the command reserved. -/
def Obligations.EgSetholdStores : Prop :=
  ∀ (e : OpId) (holdn : BitVec 15) (s : State),
    (holdn.toNat ≤ 16129 → ∃ t, exec (.egSethold e holdn) s = .next t ∧
      t.egAt e = withLatched { s.egAt e with hold := holdn } (t.egAt e) ∧
      EgLatched s.config (t.egAt e) ∧ t.rsp = 0 ∧ OnlyEg e s t ∧
      (holdn.toNat = 16129 → (t.egAt e).fDr = 0 ∧ (t.egAt e).fSr = 0 ∧ (t.egAt e).fRr = 0)) ∧
    (16129 < holdn.toNat → exec (.egSethold e holdn) s = .next { s with rsp := 0 })

/-- 41_envelope.md R147 with R145: EG.UPDATE latches and does nothing else, and in a state of the invariant it changes nothing except
on a unit that is as reset left it. -/
def Obligations.EgUpdateLatches : Prop :=
  ∀ (e : OpId) (s : State), ∃ t, exec (.egUpdate e) s = .next t ∧
    t.egAt e = withLatched (s.egAt e) (t.egAt e) ∧ EgLatched s.config (t.egAt e) ∧ t.rsp = 0 ∧ OnlyEg e s t ∧
    (s.Inv → s.egAt e ≠ Eg.reset → t = { s with rsp := 0 })

/-- 41_envelope.md R157: key-off turns ATTACK, DECAY and SASTAIN into their release twins and does nothing in the other five states;
only the state register changes; a second one changes nothing. -/
def Obligations.EgKeyoffReleases : Prop :=
  ∀ (e : OpId) (s : State), ∃ t, exec (.egKeyoff e) s = .next t ∧
    t.egAt e = { s.egAt e with st := (t.egAt e).st } ∧
    ((s.egAt e).st = .attack → (t.egAt e).st = .attackRelease) ∧
    ((s.egAt e).st = .decay → (t.egAt e).st = .decayRelease) ∧
    ((s.egAt e).st = .sastain → (t.egAt e).st = .release) ∧
    ((s.egAt e).st ∈ [EgState.release, .attackRelease, .decayRelease, .soundoff, .finished] → (t.egAt e).st = (s.egAt e).st) ∧
    exec (.egKeyoff e) t = .next t ∧ t.rsp = 0 ∧ OnlyEg e s t

/-- 41_envelope.md R156: sound-off jumps to SOUNDOFF from every state but FINISHED, converting a linear level to its code first; a
second one changes nothing. -/
def Obligations.EgSndoffJumps : Prop :=
  ∀ (e : OpId) (s : State), ∃ t, exec (.egSndoff e) s = .next t ∧
    ((s.egAt e).st = .finished → t.egAt e = s.egAt e) ∧
    ((s.egAt e).st ≠ .finished → linearState (s.egAt e).st = false → t.egAt e = { s.egAt e with st := .soundoff }) ∧
    (linearState (s.egAt e).st = true →
      t.egAt e = { s.egAt e with st := .soundoff, cur := (t.egAt e).cur } ∧
      ((s.egAt e).cur.toNat < 2 ^ 31 → (t.egAt e).cur.toNat = s.config.lin2log (s.egAt e).cur.toNat)) ∧
    exec (.egSndoff e) t = .next t ∧ t.rsp = 0 ∧ OnlyEg e s t

/-- 41_envelope.md R151: below the peak the level grows by FAR, without wrapping; at or above it the level becomes the code of the peak
and the state goes on to DECAY or DECAY_RELEASE; no command but a construction or a reset changes the peak. -/
def Obligations.EgNextAttack : Prop :=
  ∀ (e : OpId) (s : State), s.Inv → linearState (s.egAt e).st = true → ∃ t, exec (.egNext e) s = .next t ∧
    ((s.egAt e).cur.toNat < (s.egAt e).fTl.toNat →
      t.egAt e = { s.egAt e with cur := (t.egAt e).cur } ∧
      (t.egAt e).cur.toNat = (s.egAt e).cur.toNat + (s.egAt e).fAr.toNat ∧ t.rsp = (t.egAt e).cur) ∧
    ((s.egAt e).fTl.toNat ≤ (s.egAt e).cur.toNat →
      t.egAt e = { s.egAt e with cur := (t.egAt e).cur, st := if (s.egAt e).st = .attack then .decay else .decayRelease } ∧
      (t.egAt e).cur.toNat = s.config.lin2log (s.egAt e).fTl.toNat ∧ t.rsp.toNat = (s.egAt e).fTl.toNat) ∧
    OnlyEg e s t ∧
    (∀ (i : Instr) (u : State), exec i s = .next u → constructs i e = false → i ≠ .sgReset →
      (u.egAt e).fTl = (s.egAt e).fTl)

/-- 41_envelope.md R152, R153: the code falls by FDR (in DECAY_RELEASE by the larger of FDR and FRR) while it is above the exact sum
FSL + decrement, and otherwise lands on min(CUR, FSL) and goes on to SASTAIN or RELEASE; the decoded output is returned. -/
def Obligations.EgNextDecay : Prop :=
  ∀ (e : OpId) (s : State) (x : Nat) (after : EgState),
    ((s.egAt e).st = .decay ∧ x = (s.egAt e).fDr.toNat ∧ after = .sastain) ∨
    ((s.egAt e).st = .decayRelease ∧ x = max (s.egAt e).fDr.toNat (s.egAt e).fRr.toNat ∧ after = .release) →
    ∃ t, exec (.egNext e) s = .next t ∧
      ((s.egAt e).fSl.toNat + x < (s.egAt e).cur.toNat →
        t.egAt e = { s.egAt e with cur := (t.egAt e).cur } ∧ (t.egAt e).cur.toNat = (s.egAt e).cur.toNat - x) ∧
      ((s.egAt e).cur.toNat ≤ (s.egAt e).fSl.toNat + x →
        t.egAt e = { s.egAt e with cur := (t.egAt e).cur, st := after } ∧
        (t.egAt e).cur.toNat = min (s.egAt e).cur.toNat (s.egAt e).fSl.toNat) ∧
      t.rsp = BitVec.ofNat 32 (decoded s.config (t.egAt e).cur.toNat) ∧ OnlyEg e s t

/-- 41_envelope.md R154, R160: in SASTAIN the code falls by FSR and in SOUNDOFF by FOR; while the decoded output is above 1 it is
returned, otherwise the state becomes FINISHED and 0 is returned; an exhausted code is left as it is. -/
def Obligations.EgNextFade : Prop :=
  ∀ (e : OpId) (s : State) (x : Nat),
    ((s.egAt e).st = .sastain ∧ x = (s.egAt e).fSr.toNat) ∨ ((s.egAt e).st = .soundoff ∧ x = (s.egAt e).fOr.toNat) →
    ∃ t, exec (.egNext e) s = .next t ∧
      (x < (s.egAt e).cur.toNat →
        (t.egAt e).cur.toNat = (s.egAt e).cur.toNat - x ∧
        (1 < decoded s.config (t.egAt e).cur.toNat →
          t.egAt e = { s.egAt e with cur := (t.egAt e).cur } ∧
          t.rsp = BitVec.ofNat 32 (decoded s.config (t.egAt e).cur.toNat)) ∧
        (decoded s.config (t.egAt e).cur.toNat ≤ 1 →
          t.egAt e = { s.egAt e with cur := (t.egAt e).cur, st := .finished } ∧ t.rsp = 0)) ∧
      ((s.egAt e).cur.toNat ≤ x → t.egAt e = { s.egAt e with st := .finished } ∧ t.rsp = 0) ∧ OnlyEg e s t

/-- 41_envelope.md R155, R161: in RELEASE the code falls by FRR and the decoded output is returned; below SOUNDOFF_LEVEL the state
becomes SOUNDOFF; an exhausted code finishes. In FINISHED nothing is written and 0 is returned. -/
def Obligations.EgNextRelease : Prop :=
  (∀ (e : OpId) (s : State), (s.egAt e).st = .finished → exec (.egNext e) s = .next { s with rsp := 0 }) ∧
  ∀ (e : OpId) (s : State), (s.egAt e).st = .release → ∃ t, exec (.egNext e) s = .next t ∧
    ((s.egAt e).fRr.toNat < (s.egAt e).cur.toNat →
      (t.egAt e).cur.toNat = (s.egAt e).cur.toNat - (s.egAt e).fRr.toNat ∧
      t.egAt e = { s.egAt e with
        cur := (t.egAt e).cur,
        st := if decoded s.config (t.egAt e).cur.toNat < s.config.soundoffLevel then .soundoff else .release } ∧
      t.rsp = BitVec.ofNat 32 (decoded s.config (t.egAt e).cur.toNat)) ∧
    ((s.egAt e).cur.toNat ≤ (s.egAt e).fRr.toNat → t.egAt e = { s.egAt e with st := .finished } ∧ t.rsp = 0) ∧ OnlyEg e s t

/-- 41_envelope.md R162, the complete transition table: what each command does to the state register of each envelope, that no
other transition exists, and that a sound-off converts a linear level. -/
def Obligations.EnvelopeTransitions : Prop :=
  ∀ (i : Instr) (s t : State) (e : OpId), exec i s = .next t →
    (t.egAt e).st =
      (if advances i e then stAfterNext s.config (s.egAt e)
      else if keysOff i e then stAfterKeyoff (s.egAt e).st
      else if soundsOff i e then stAfterSndoff (s.egAt e).st
      else if constructs i e then .attack
      else if i = .sgReset then .finished
      else (s.egAt e).st) ∧
    (soundsOff i e = true → linearState (s.egAt e).st = true → (s.egAt e).cur.toNat < 2 ^ 31 →
      (t.egAt e).cur.toNat = s.config.lin2log (s.egAt e).cur.toNat)

/-- 41_envelope.md R163: a sample command moves the state only forward along one of the two chains; only key-off and sound-off lead from
the first chain to the second; only construction leads back. -/
def Obligations.EnvelopeNeverRegresses : Prop :=
  ∀ (i : Instr) (s t : State) (e : OpId), exec i s = .next t →
    (advances i e = true → Forward (s.egAt e).st (t.egAt e).st) ∧
    ((s.egAt e).st ∈ playingChain → (t.egAt e).st ∈ releasedChain → (t.egAt e).st ≠ .finished →
      keysOff i e = true ∨ soundsOff i e = true) ∧
    ((s.egAt e).st ∈ releasedChain → (t.egAt e).st ∈ playingChain → (t.egAt e).st ≠ .finished → constructs i e = true)

/-- 41_envelope.md R165 (a): over any run of commands that does not construct the unit, begun outside ATTACK and ATTACK_RELEASE, a later
EG.NEXT response is never above an earlier one (under assumption 6, since R6 does not bound EXP_ROM). -/
def Obligations.LevelNonIncreasing : Prop :=
  ∀ (e : OpId) (s s1 s2 s3 : State) (run : List Instr),
    s.Inv → LevelsFit s.config → linearState (s.egAt e).st = false → (∀ i ∈ run, constructs i e = false) →
    exec (.egNext e) s = .next s1 → execAll run s1 = .next s2 → exec (.egNext e) s2 = .next s3 →
    s3.rsp.toInt ≤ s1.rsp.toInt

/-- 41_envelope.md R165 (d), R166, R145 (b), R155: with hold or freeze at its maximum a note keeps its code and its output for any number
of samples: in DECAY and SASTAIN while its decoded output is above 1, in DECAY_RELEASE and RELEASE while it is not below SOUNDOFF_LEVEL, and
in DECAY and DECAY_RELEASE at any output while its code is above FSL. In RELEASE with a decoded output below SOUNDOFF_LEVEL (and a code
above 0) the next sample still returns that output, but goes to SOUNDOFF. -/
def Obligations.HeldNoteStays : Prop :=
  ∀ (e : OpId) (s : State) (n : Nat), s.Inv → (s.egAt e).hold.toNat = 16129 ∨ (s.egAt e).freeze.toNat = 127 →
    ((s.egAt e).st ∈ [EgState.decay, .sastain] → 1 < decoded s.config (s.egAt e).cur.toNat →
      StaysHeld e n [.decay, .sastain] s) ∧
    ((s.egAt e).st ∈ [EgState.decayRelease, .release] → s.config.soundoffLevel ≤ decoded s.config (s.egAt e).cur.toNat →
      StaysHeld e n [.decayRelease, .release] s) ∧
    ((s.egAt e).st ∈ [EgState.decay, .decayRelease] → (s.egAt e).fSl.toNat < (s.egAt e).cur.toNat →
      StaysHeld e n [(s.egAt e).st] s) ∧
    ((s.egAt e).st = .release → 0 < (s.egAt e).cur.toNat →
      decoded s.config (s.egAt e).cur.toNat < s.config.soundoffLevel →
      ∃ t, exec (.egNext e) s = .next t ∧ t.egAt e = { s.egAt e with st := .soundoff } ∧
        t.rsp = BitVec.ofNat 32 (decoded s.config (s.egAt e).cur.toNat) ∧ OnlyEg e s t)

/-- 41_envelope.md R165 (c): with hold and freeze at 0, a unit keyed off in any state is FINISHED after a bounded number of samples. -/
def Obligations.ReleaseFinishes : Prop :=
  ∀ (e : OpId) (s : State), s.Inv → (s.egAt e).hold = 0 → (s.egAt e).freeze = 0 →
    ∃ n, n ≤ 2 ^ 15 + 3 * 2 ^ 32 ∧
      ∃ t, execAll (.egKeyoff e :: List.replicate n (.egNext e)) s = .next t ∧ (t.egAt e).st = .finished

/-- 41_envelope.md R165 (e), R160: after EG.SNDOFF a unit is FINISHED once it has been advanced as often as its code is high (at least
once), whatever other commands come between, unless it is constructed anew. -/
def Obligations.SoundOffFinishes : Prop :=
  ∀ (e : OpId) (s s1 s2 : State) (run : List Instr), s.Inv →
    exec (.egSndoff e) s = .next s1 → execAll run s1 = .next s2 → (∀ i ∈ run, constructs i e = false) →
    max 1 (s1.egAt e).cur.toNat ≤ run.countP (fun i => advances i e) → (s2.egAt e).st = .finished

/-! ### Class OP -/

/-- 42_operator.md R180, R181: construction of an operator: its registers, a stopped oscillator at phase 0, and its envelope constructed
with the four key-scaled rates. -/
def Obligations.OpInitConstructs : Prop :=
  ∀ (o : OpId) (p : OpParams) (key : BitVec 7) (s : State), ∃ t, exec (.opInit o p key) s = .next t ∧
    t.opAt o = { ks := p.ks, ml := p.ml, dt := p.dt, ams := p.ams, key := key } ∧
    t.oscAt o.osc = { pos := 0, step := 0 } ∧
    (t.egAt o).rar.toNat = min 63 (2 * p.ar.toNat + s.config.keyscaleRom p.ks key) ∧
    (t.egAt o).rdr.toNat = min 63 (2 * p.dr.toNat + s.config.keyscaleRom p.ks key) ∧
    (t.egAt o).rsr.toNat = min 63 (2 * p.sr.toNat + s.config.keyscaleRom p.ks key) ∧
    (t.egAt o).rrr.toNat = min 63 (4 * p.rr.toNat + 2 + s.config.keyscaleRom p.ks key) ∧
    (t.egAt o).sl = p.sl ∧ (t.egAt o).tl = p.tl ∧ (t.egAt o).rate = 0 ∧ (t.egAt o).hold = 0 ∧ (t.egAt o).freeze = 0 ∧
    (t.egAt o).st = .attack ∧ (t.egAt o).cur = 0 ∧ EgLatched s.config (t.egAt o) ∧
    t.rsp = 0 ∧ OnlyOperator o s t

/-- 42_operator.md R182, R183: the step of the frequency baseFreq * multiplier + detune at the given rate, one rounding in all, 0 for a
frequency of 0 or below; the phase is kept; the envelope gets the rate. -/
def Obligations.OpSetfreqTunes : Prop :=
  ∀ (o : OpId) (freq : BitVec 32) (rate : BitVec 20) (s : State), ∃ t, exec (.opSetfreq o freq rate) s = .next t ∧
    (t.oscAt o.osc).pos = (s.oscAt o.osc).pos ∧
    (∀ mul det : ℚ,
      mul = (if (s.opAt o).ml.toNat = 0 then 1 / 2 else ((s.opAt o).ml.toNat : ℚ)) →
      det = (if (s.opAt o).dt.toNat < 4 then 1 else -1) *
        s.config.detuneRom (BitVec.ofNat 2 ((s.opAt o).dt.toNat % 4)) (s.opAt o).key →
      (t.oscAt o.osc).step.toNat = stepFor s.config ((freq.toNat : ℚ) / 65536 * mul + det) rate) ∧
    t.egAt o = withLatched { s.egAt o with rate := rate } (t.egAt o) ∧ EgLatched s.config (t.egAt o) ∧
    t.opAt o = s.opAt o ∧ t.rsp = 0 ∧ OnlyOperator o s t

/-- 42_operator.md R184: OP.NEXT advances the oscillator as OSC.NEXT and the envelope as EG.NEXT do, and returns floor(s * v / 2^15) of
their two responses (where every level can be read back from the response, assumption 6). -/
def Obligations.OpNextSample : Prop :=
  ∀ (o : OpId) (s t1 t2 : State), exec (.oscNext o.osc) s = .next t1 → exec (.egNext o) s = .next t2 →
    ∃ t, exec (.opNext o) s = .next t ∧
      t.oscAt o.osc = t1.oscAt o.osc ∧ t.egAt o = t2.egAt o ∧ t.opAt o = s.opAt o ∧ OnlyOperator o s t ∧
      (s.Inv → LevelsFit s.config → t.rsp.toInt = t1.rsp.toInt * t2.rsp.toInt / 2 ^ 15)

/-- 42_operator.md R185: as OP.NEXT, with the oscillator sampled by OSC.NEXTM; modulation 0 is OP.NEXT (the response under assumption 6). -/
def Obligations.OpNextmSample : Prop :=
  (∀ (o : OpId) (arg : BitVec 32) (s t1 t2 : State),
    exec (.oscNextm o.osc arg) s = .next t1 → exec (.egNext o) s = .next t2 →
    ∃ t, exec (.opNextm o arg) s = .next t ∧
      t.oscAt o.osc = t1.oscAt o.osc ∧ t.egAt o = t2.egAt o ∧ t.opAt o = s.opAt o ∧ OnlyOperator o s t ∧
      (s.Inv → LevelsFit s.config → t.rsp.toInt = t1.rsp.toInt * t2.rsp.toInt / 2 ^ 15)) ∧
  ∀ (o : OpId) (s : State), exec (.opNextm o 0) s = exec (.opNext o) s

/-- 42_operator.md R186, R187: OP.NEXTAM leaves what OP.NEXTM leaves and scales its response by the gain am * factor + bias on the scale
32768; with AMS = 0 it is OP.NEXTM (the response under assumption 6). -/
def Obligations.OpNextamSample : Prop :=
  (∀ (o : OpId) (amv : BitVec 9) (mod : BitVec 32) (s t1 : State), exec (.opNextm o mod) s = .next t1 →
    ∃ t, exec (.opNextam o amv mod) s = .next t ∧ t = { t1 with rsp := t.rsp } ∧
      (∀ factor : Int, factor = (s.config.amsRom (s.opAt o).ams / 2 : Nat) → s.Inv → LevelsFit s.config →
        t.rsp.toInt = t1.rsp.toInt * (amv.toInt * factor + (32768 - factor * 256)) / 2 ^ 15)) ∧
  ∀ (o : OpId) (amv : BitVec 9) (mod : BitVec 32) (s : State), (s.opAt o).ams = 0 →
    exec (.opNextam o amv mod) s = exec (.opNextm o mod) s

/-- 42_operator.md R190: the three sample forms move the oscillator and the envelope alike and touch nothing else; of a finished operator
all three return 0 and leave it finished. -/
def Obligations.OperatorSampleForms : Prop :=
  ∀ (o : OpId) (amv : BitVec 9) (mod : BitVec 32) (s : State), ∃ t1 t2 t3,
    exec (.opNext o) s = .next t1 ∧ exec (.opNextm o mod) s = .next t2 ∧ exec (.opNextam o amv mod) s = .next t3 ∧
    t2 = { t1 with rsp := t2.rsp } ∧ t3 = { t1 with rsp := t3.rsp } ∧ OnlyOperator o s t1 ∧ t1.opAt o = s.opAt o ∧
    ((s.egAt o).st = .finished → t1.rsp = 0 ∧ t2.rsp = 0 ∧ t3.rsp = 0 ∧ t1.egAt o = s.egAt o)

/-- 42_operator.md R188: OP.FIN returns 1 exactly when the envelope is FINISHED, and changes no register. -/
def Obligations.OpFinReads : Prop :=
  ∀ (o : OpId) (s : State), exec (.opFin o) s = .next { s with rsp := if (s.egAt o).st = .finished then 1 else 0 }

/-! ### Class SG -/

/-- 43_soundgen.md R201: SG.CONFIG writes every SG register and clears the three LFOs; operators and envelopes are not touched. -/
def Obligations.SgConfigConstructs : Prop :=
  ∀ (alg fb lfo : BitVec 3) (s : State), ∃ t, exec (.sgConfig alg fb lfo) s = .next t ∧
    t.sg = { alg := alg, fb := fb, lfoIdx := lfo, fbReg := 0, damper := 0, sost := 0, vibDepth := 0, trmDepth := 0,
             vibFreq := 0, trmFreq := 0, sgRate := 0 } ∧
    (∀ u ∈ [OscId.lfoAm, .lfoVib, .lfoTrm], t.oscAt u = { pos := 0, step := 0 }) ∧
    (∀ o : OpId, t.oscAt o.osc = s.oscAt o.osc) ∧ t.eg = s.eg ∧ t.op = s.op ∧ t.rsp = 0 ∧ SameOutside s t

/-- 43_soundgen.md R202 to R204: SG.SETFREQ stores the rate, retunes each operator as OP.SETFREQ would, and sets the three LFOs to their
frequencies at that rate; every phase is kept. -/
def Obligations.SgSetfreqTunes : Prop :=
  ∀ (freq : BitVec 32) (rate : BitVec 20) (s : State), ∃ t, exec (.sgSetfreq freq rate) s = .next t ∧
    t.sg = { s.sg with sgRate := rate } ∧
    (∀ (o : OpId) (u : State), exec (.opSetfreq o freq rate) s = .next u →
      t.oscAt o.osc = u.oscAt o.osc ∧ t.egAt o = u.egAt o) ∧
    (∀ u, (t.oscAt u).pos = (s.oscAt u).pos) ∧
    (t.oscAt .lfoAm).step.toNat = stepFor s.config (s.config.lfofreqRom s.sg.lfoIdx) rate ∧
    (t.oscAt .lfoVib).step.toNat = stepFor s.config ((s.sg.vibFreq.toNat : ℚ) / 65536) rate ∧
    (t.oscAt .lfoTrm).step.toNat = stepFor s.config ((s.sg.trmFreq.toNat : ℚ) / 65536) rate ∧
    t.op = s.op ∧ t.rsp = 0 ∧ SameOutside s t

/-- 43_soundgen.md R205, R222, R202: SG.SETVIB and SG.SETTRM store depth and frequency and set their LFO's step at the stored rate,
keeping its phase; a tremolo depth above 127 makes the command reserved. -/
def Obligations.VibratoAndTremoloStore : Prop :=
  (∀ (depth : BitVec 13) (freq : BitVec 32) (s : State), ∃ t, exec (.sgSetvib depth freq) s = .next t ∧
    t.sg = { s.sg with vibDepth := depth, vibFreq := freq } ∧
    (t.oscAt .lfoVib).pos = (s.oscAt .lfoVib).pos ∧
    (t.oscAt .lfoVib).step.toNat = stepFor s.config ((freq.toNat : ℚ) / 65536) s.sg.sgRate ∧
    (∀ u, u ≠ .lfoVib → t.oscAt u = s.oscAt u) ∧ t.eg = s.eg ∧ t.op = s.op ∧ t.rsp = 0 ∧ SameOutside s t) ∧
  ∀ (depth : BitVec 13) (freq : BitVec 32) (s : State),
    (depth.toNat ≤ 127 → ∃ t, exec (.sgSettrm depth freq) s = .next t ∧
      t.sg = { s.sg with trmDepth := t.sg.trmDepth, trmFreq := freq } ∧ t.sg.trmDepth.toNat = depth.toNat ∧
      (t.oscAt .lfoTrm).pos = (s.oscAt .lfoTrm).pos ∧
      (t.oscAt .lfoTrm).step.toNat = stepFor s.config ((freq.toNat : ℚ) / 65536) s.sg.sgRate ∧
      (∀ u, u ≠ .lfoTrm → t.oscAt u = s.oscAt u) ∧ t.eg = s.eg ∧ t.op = s.op ∧ t.rsp = 0 ∧ SameOutside s t) ∧
    (127 < depth.toNat → exec (.sgSettrm depth freq) s = .next { s with rsp := 0 })

/-- 43_soundgen.md R223: SG.SETFREQ, SG.SETVIB and a legal SG.SETTRM may be issued in either order. -/
def Obligations.TuningOrderIrrelevant : Prop :=
  ∀ (freq vf tf : BitVec 32) (rate : BitVec 20) (vd td : BitVec 13) (s : State),
    execAll [.sgSetfreq freq rate, .sgSetvib vd vf] s = execAll [.sgSetvib vd vf, .sgSetfreq freq rate] s ∧
    execAll [.sgSetfreq freq rate, .sgSettrm td tf] s = execAll [.sgSettrm td tf, .sgSetfreq freq rate] s

/-- 43_soundgen.md R216, R217, R221: SG.KEYOFF, SG.SNDOFF and SG.SETFRZ do to each of the four envelopes what EG.KEYOFF, EG.SNDOFF and
EG.SETFRZ do to it, and nothing else; of the freeze value no copy is kept. -/
def Obligations.SgForwardsToEnvelopes : Prop :=
  (∀ s : State, ∃ t, exec .sgKeyoff s = .next t ∧
    (∀ (e : OpId) (u : State), exec (.egKeyoff e) s = .next u → t.egAt e = u.egAt e) ∧
    t.osc = s.osc ∧ t.op = s.op ∧ t.sg = s.sg ∧ t.rsp = 0 ∧ SameOutside s t) ∧
  (∀ s : State, ∃ t, exec .sgSndoff s = .next t ∧
    (∀ (e : OpId) (u : State), exec (.egSndoff e) s = .next u → t.egAt e = u.egAt e) ∧
    t.osc = s.osc ∧ t.op = s.op ∧ t.sg = s.sg ∧ t.rsp = 0 ∧ SameOutside s t) ∧
  ∀ (val : BitVec 7) (s : State), ∃ t, exec (.sgSetfrz val) s = .next t ∧
    (∀ (e : OpId) (u : State), exec (.egSetfrz e val) s = .next u → t.egAt e = u.egAt e) ∧
    t.osc = s.osc ∧ t.op = s.op ∧ t.sg = s.sg ∧ t.rsp = 0 ∧ SameOutside s t

/-- 43_soundgen.md R218 to R220: SG.SETDAMPER and SG.SETSOST store their operand and give every envelope, as EG.SETHOLD would, the
numerator whose fraction of 16129 is 1 - (1 - damper/127)(1 - sostenuto/127) exactly. -/
def Obligations.PedalsSetHold : Prop :=
  ∀ (val : BitVec 7) (s : State), ∃ t1 t2,
    exec (.sgSetdamper val) s = .next t1 ∧ t1.sg = { s.sg with damper := val } ∧
    exec (.sgSetsost val) s = .next t2 ∧ t2.sg = { s.sg with sost := val } ∧
    ∀ t ∈ [t1, t2],
      (∃ n : BitVec 15, n.toNat ≤ 16129 ∧
        (n.toNat : ℚ) / 16129 = 1 - (1 - (t.sg.damper.toNat : ℚ) / 127) * (1 - (t.sg.sost.toNat : ℚ) / 127) ∧
        ∀ (e : OpId) (u : State), exec (.egSethold e n) s = .next u → t.egAt e = u.egAt e) ∧
      t.osc = s.osc ∧ t.op = s.op ∧ t.rsp = 0 ∧ SameOutside s t

/-- 43_soundgen.md R208 to R213, R224 (a), the closed form of one SG.NEXT: vibrato, AM, the four operators in order with feedback into
OP1, the carriers' sum, tremolo; all four operators advance, each LFO only while its effect is active, and nothing changes but the phases, ST
and CUR, FBREG and the response. That FBREG keeps the low 32 bits of OP1's output is the model's reading of R211 (assumption 5). -/
def Obligations.SgNextSample : Prop :=
  ∀ s : State, ∃ t, exec .sgNext s = .next t ∧
    t.rsp = BitVec.ofInt 32 (voiceReturn s) ∧
    t.sg = { s.sg with fbReg := BitVec.ofInt 32 (voiceOut1 s) } ∧
    (∀ o : OpId, t.oscAt o.osc =
        { pos := BitVec.ofNat 32 (offsetPos (s.oscAt o.osc) (voiceVib s)), step := (s.oscAt o.osc).step } ∧
      t.egAt o = (egNext s.config (s.egAt o)).1 ∧
      t.egAt o = { s.egAt o with st := (t.egAt o).st, cur := (t.egAt o).cur }) ∧
    (∀ (u : OscId) (active : Prop),
      (u = .lfoVib ∧ (active ↔ s.sg.vibDepth ≠ 0)) ∨ (u = .lfoAm ∧ (active ↔ ∃ o, (s.opAt o).ams ≠ 0)) ∨
        (u = .lfoTrm ∧ (active ↔ s.sg.trmDepth ≠ 0)) →
      (active → t.oscAt u = { pos := BitVec.ofNat 32 (advancedPos (s.oscAt u)), step := (s.oscAt u).step }) ∧
      (¬ active → t.oscAt u = s.oscAt u)) ∧
    t.op = s.op ∧ SameOutside s t

/-- 43_soundgen.md R224 (b): with no vibrato, no tremolo and no AM the LFOs stand still, and the sample depends on nothing but the
operators, the routing registers and FBREG: two states that agree on these answer alike. -/
def Obligations.PlainVoiceDependsOnOperators : Prop :=
  ∀ s s' : State,
    s'.cfg = s.cfg → s'.sg.alg = s.sg.alg → s'.sg.fb = s.sg.fb → s'.sg.fbReg = s.sg.fbReg →
    (∀ o : OpId, s'.oscAt o.osc = s.oscAt o.osc ∧ s'.egAt o = s.egAt o ∧ (s.opAt o).ams = 0 ∧ (s'.opAt o).ams = 0) →
    s.sg.vibDepth = 0 → s'.sg.vibDepth = 0 → s.sg.trmDepth = 0 → s'.sg.trmDepth = 0 →
    ∃ t t', exec .sgNext s = .next t ∧ exec .sgNext s' = .next t' ∧ t'.rsp = t.rsp ∧ t'.sg.fbReg = t.sg.fbReg ∧
      (∀ o : OpId, t'.oscAt o.osc = t.oscAt o.osc ∧ t'.egAt o = t.egAt o) ∧
      ∀ u ∈ [OscId.lfoAm, .lfoVib, .lfoTrm], t.oscAt u = s.oscAt u ∧ t'.oscAt u = s'.oscAt u

/-- 43_soundgen.md R207: the eight routing rows of the two named configurations. -/
def Obligations.DefaultAlgorithms : Prop :=
  ∀ n ∈ [ConfigName.dflt, .t8], ∀ alg : BitVec 3, (configOf n).algTable alg =
    (if alg = 0 then ⟨⟨true, false, false, false⟩, ⟨false, true, false, false⟩, ⟨false, false, true, false⟩, ⟨false, false, false, true⟩⟩
     else if alg = 1 then ⟨⟨false, false, false, false⟩, ⟨true, true, false, false⟩, ⟨false, false, true, false⟩, ⟨false, false, false, true⟩⟩
     else if alg = 2 then ⟨⟨false, false, false, false⟩, ⟨false, true, false, false⟩, ⟨true, false, true, false⟩, ⟨false, false, false, true⟩⟩
     else if alg = 3 then ⟨⟨true, false, false, false⟩, ⟨false, false, false, false⟩, ⟨false, true, true, false⟩, ⟨false, false, false, true⟩⟩
     else if alg = 4 then ⟨⟨true, false, false, false⟩, ⟨false, false, false, false⟩, ⟨false, false, true, false⟩, ⟨false, true, false, true⟩⟩
     else if alg = 5 then ⟨⟨true, false, false, false⟩, ⟨true, false, false, false⟩, ⟨true, false, false, false⟩, ⟨false, true, true, true⟩⟩
     else if alg = 6 then ⟨⟨true, false, false, false⟩, ⟨false, false, false, false⟩, ⟨false, false, false, false⟩, ⟨false, true, true, true⟩⟩
     else ⟨⟨false, false, false, false⟩, ⟨false, false, false, false⟩, ⟨false, false, false, false⟩, ⟨true, true, true, true⟩⟩)

/-- 43_soundgen.md R215: SG.FIN returns 1 exactly when every carrier of the selected row is FINISHED, changes no register, and equals the
FIN output; ALG 0 waits for OP4 alone and ALG 7 for all four, in every configuration. -/
def Obligations.SgFinReads : Prop :=
  ∀ s : State, ∃ b : Bool, exec .sgFin s = .next { s with rsp := if b then 1 else 0 } ∧ finPin s = b ∧
    (b = true ↔ ∀ o, opSetHas (s.config.algTable s.sg.alg).c o = true → (s.egAt o).st = .finished) ∧
    (s.sg.alg = 0 → (b = true ↔ (s.egAt .op4).st = .finished)) ∧
    (s.sg.alg = 7 → (b = true ↔ ∀ o, (s.egAt o).st = .finished))

/-- 43_soundgen.md R215, 42_operator.md R190 (b): once SGFIN is true, SG.NEXT returns 0, and so does any later one until a unit is
constructed or the routing is set anew. -/
def Obligations.FinishedVoiceSilent : Prop :=
  ∀ (run : List Instr) (s s1 s2 : State), sgFinished s = true →
    (∀ i ∈ run, (∀ e, constructs i e = false) ∧ ∀ alg fb lfo, i ≠ .sgConfig alg fb lfo) →
    execAll run s = .next s1 → exec .sgNext s1 = .next s2 → s2.rsp = 0

/-- 43_soundgen.md R224 (c): SGFIN stays true under every command but a construction of a unit or an SG.CONFIG that changes the carrier
set. -/
def Obligations.SgFinMonotone : Prop :=
  ∀ (i : Instr) (s t : State), exec i s = .next t → sgFinished s = true →
    (∀ e, constructs i e = false) →
    (∀ alg fb lfo, i = .sgConfig alg fb lfo → (s.config.algTable alg).c = (s.config.algTable s.sg.alg).c) →
    sgFinished t = true

/-- 43_soundgen.md R208: the feedback shifts are the eight constants of the source; with FB = 0 and no pre-shift the feedback value is 0
or -1, and in both named configurations it does not move the lookup index; with FB = 7 and no pre-shift it is FBREG. -/
def Obligations.FeedbackAmounts : Prop :=
  (∀ (c : Config), c.Valid → c.fbshiftRom 0 = 31 ∧ c.fbshiftRom 1 = 6 ∧ c.fbshiftRom 2 = 5 ∧ c.fbshiftRom 3 = 4 ∧
    c.fbshiftRom 4 = 3 ∧ c.fbshiftRom 5 = 2 ∧ c.fbshiftRom 6 = 1 ∧ c.fbshiftRom 7 = 0) ∧
  ∀ s : State, s.config.fbPreshift = 0 →
    (s.sg.fb = 0 → feedbackValue s = (if s.sg.fbReg.toInt < 0 then -1 else 0) ∧
      (s.cfg ≠ .given → modOffset s.config (feedbackValue s) = 0)) ∧
    (s.sg.fb = 7 → feedbackValue s = s.sg.fbReg.toInt)

/-- 42_operator.md R187, 43_soundgen.md R213: the AM gain lies in [32768 - 512 * factor, 32768 - factor] and never exceeds unity; the
tremolo gain lies in [33, 4096], and is 4096 at depth 0. -/
def Obligations.GainBounds : Prop :=
  (∀ (c : Config) (r : OpRegs) (am : Int), -256 ≤ am → am ≤ 255 →
    32768 - 512 * (c.amsRom r.ams / 2 : Nat) ≤ amGain c r am ∧ amGain c r am ≤ 32768 - (c.amsRom r.ams / 2 : Nat)) ∧
  ∀ (c : Config) (i : Nat) (depth : BitVec 7), c.Valid → i < c.sineDiv →
    33 ≤ trmGain (c.sineRom i) depth ∧ trmGain (c.sineRom i) depth ≤ 4096 ∧ (depth = 0 → trmGain (c.sineRom i) depth = 4096)

/-- 41_envelope.md R165 (c) at the voice, 43_soundgen.md R216, R215: with every hold and freeze at 0, a voice keyed off answers SG.FIN
with 1 after a bounded number of samples. -/
def Obligations.KeyedOffVoiceFinishes : Prop :=
  ∀ s : State, s.Inv → (∀ e, (s.egAt e).hold = 0 ∧ (s.egAt e).freeze = 0) →
    ∃ n, n ≤ 2 ^ 15 + 3 * 2 ^ 32 ∧ ∃ t, execAll (.sgKeyoff :: List.replicate n .sgNext) s = .next t ∧
      exec .sgFin t = .next { t with rsp := 1 } ∧ ∀ e, (t.egAt e).st = .finished

/-! ### Reset and notes -/

/-- 70_reset_and_hazards.md R260: when the host asserts RESET between commands, every register takes its reset value and the
configuration is not touched. -/
def Obligations.PinResetsRegisters : Prop :=
  ∀ (s : State) (rest : List HostEvent), s.host = .reset :: rest →
    ∃ t, step s = .next t ∧ RegistersReset t ∧ t.host = rest ∧ t.cfg = s.cfg

/-- 70_reset_and_hazards.md R261: SG.RESET resets every register and returns 0; SGFIN and FIN become true, VIBON, TRMON and AMEN false; a
second one changes nothing. -/
def Obligations.SgResetResets : Prop :=
  encode .sgReset = 0x3F00000000000000#64 ∧
  ∀ s : State, ∃ t, exec .sgReset s = .next t ∧ RegistersReset t ∧ t.rsp = 0 ∧ SameOutside s t ∧
    sgFinished t = true ∧ finPin t = true ∧ vibOn t = false ∧ trmOn t = false ∧ amEnabled t = false ∧
    exec .sgReset t = .next t ∧ exec .sgNext t = .next t ∧ exec .sgFin t = .next { t with rsp := 1 }

/-- 70_reset_and_hazards.md R262: a reset block is silent and finished: the FIN reads answer 1, EG.NEXT, OP.NEXT, OP.NEXTM,
OP.NEXTAM, SG.NEXT and OSC.NEXT return 0 and change no register, key-off and sound-off do nothing, and only a construction leaves FINISHED. -/
def Obligations.ResetBlockSilent : Prop :=
  ∀ s : State, RegistersReset s →
    finPin s = true ∧ exec .sgFin s = .next { s with rsp := 1 } ∧
    (∀ o, exec (.opFin o) s = .next { s with rsp := 1 }) ∧
    (∀ i ∈ [Instr.sgNext, .sgKeyoff, .sgSndoff], exec i s = .next { s with rsp := 0 }) ∧
    (∀ u, exec (.oscNext u) s = .next { s with rsp := 0 }) ∧
    (∀ e, ∀ i ∈ [Instr.egNext e, .egKeyoff e, .egSndoff e, .opNext e], exec i s = .next { s with rsp := 0 }) ∧
    (∀ e mod amv, exec (.opNextm e mod) s = .next { s with rsp := 0 } ∧
      exec (.opNextam e amv mod) s = .next { s with rsp := 0 }) ∧
    ∀ (i : Instr) (t : State), exec i s = .next t → (∀ e, constructs i e = false) → ∀ e, (t.egAt e).st = .finished

/-- 70_reset_and_hazards.md R264, R265, 30_encoding.md R102: after the six words of a NOTE.ON, presented to two blocks of one configuration
in any two states, the five words of its VOICE.LOAD in any order to either, the two blocks are in the same state: nothing of an earlier note
is left, and the order does not matter. That the words wait in a list of the state is the model's choice (assumption 1). -/
def Obligations.NoteOnForgetsThePast : Prop :=
  ∀ (p : VoiceParams) (key : BitVec 7) (f : BitVec 32) (rate : BitVec 20) (ws ws' : List Command) (s s' : State)
    (later : List HostEvent),
    s.cfg = s'.cfg → Expansion (.noteOn p key f rate) ws → Expansion (.noteOn p key f rate) ws' →
    s.host = ws.map HostEvent.command ++ later → s'.host = ws'.map HostEvent.command ++ later →
    ∃ t, Host.Core.run Sys2Proof.core 6 s = .next t ∧ Host.Core.run Sys2Proof.core 6 s' = .next t ∧ t.host = later ∧
      ∀ e, (t.egAt e).st = .attack ∧ (t.egAt e).rate = rate

/-! ### The invariant -/

/-- 10_state.md R36, R37: the invariant holds at reset. -/
def Obligations.ResetMeetsInvariant : Prop := State.reset.Inv ∧ RegistersReset State.reset

/-- 10_state.md R37: from every state of the invariant, every step leads to a state of the invariant: HOLD stays legal, the latched
registers agree with the parameters, a linear level stays below the peak plus the largest FAR of the unit's parameters. What R37 (d) says
word for word, CUR < FTL + FAR, is kept too by every step that does not lower the unit's FAR or that finds CUR below FTL, and by every
command but EG.SETRATE, OP.SETFREQ and SG.SETFREQ on the unit; and after every sample of the unit it holds whatever went before
(assumption 18). -/
def Obligations.StepKeepsInvariant : Prop :=
  (∀ s t : State, s.Inv → step s = .next t →
    t.Inv ∧ ∀ e, (s.egAt e).fAr.toNat ≤ (t.egAt e).fAr.toNat ∨ (s.egAt e).cur.toNat < (s.egAt e).fTl.toNat →
      AttackBelowSum (s.egAt e) → AttackBelowSum (t.egAt e)) ∧
  ∀ (i : Instr) (s t : State) (e : OpId), s.Inv → exec i s = .next t →
    advances i e = true ∨ setsRate i e = false ∧ AttackBelowSum (s.egAt e) → AttackBelowSum (t.egAt e)

/-- 10_state.md R37 (d) as it is worded, "In ATTACK and ATTACK_RELEASE, CUR < FTL + FAR". Expected to fail: EG.SETRATE may lower FAR
between a sample that overshot the peak and the next one (assumption 18). -/
def Obligations.AttackLevelBelowSum : Prop :=
  ∀ s t : State, s.Inv → (∀ e, AttackBelowSum (s.egAt e)) → step s = .next t → ∀ e, AttackBelowSum (t.egAt e)
end

