-- ==== Sys2Proof/Laws/Arith.lean ====
section
/-! SUPPORT. The arithmetic primitives of 00_scope.md R10 in standard terms, and the order and bounds of the integer roots and logarithms
that build the `DEFAULT` tables. -/

namespace Sys2Proof.Machine

open Sys2Proof

theorem asr_eq (x : Int) (n : Nat) : asr x n = x / 2 ^ n := by
  unfold asr; rw [Int.shiftRight_eq_div_pow]; norm_cast

@[simp] theorem asr_zero (n : Nat) : asr 0 n = 0 := by simp [asr_eq]

theorem u32_toNat (x : Int) : (u32 x).toNat = (x % 2 ^ 32).toNat := by simp [u32, BitVec.toNat_ofInt]

theorem u32_toInt {x : Int} (h1 : -2 ^ 31 ≤ x) (h2 : x < 2 ^ 31) : (u32 x).toInt = x := by
  simp only [u32, BitVec.toInt_ofInt]
  rw [Int.bmod_eq_of_le] <;> omega

@[simp] theorem u32_zero : u32 0 = 0 := rfl

theorem u32_natCast (n : Nat) : u32 n = BitVec.ofNat 32 n := by
  apply BitVec.eq_of_toNat_eq; simp [u32_toNat]; omega

theorem u32_toNat_cast (x : BitVec 32) : u32 x.toNat = x := by
  rw [u32_natCast]; simp

theorem floorNat_eq (q : ℚ) : floorNat q = ⌊q⌋₊ := rfl

theorem floorSat_toNat (q : ℚ) : (floorSat q).toNat = min ⌊q⌋₊ (2 ^ 32 - 1) := by
  have : min ⌊q⌋₊ (2 ^ 32 - 1) < 2 ^ 32 := by omega
  simp [floorSat, floorNat_eq]

/-! ### Integer roots -/

theorem le_rootFrom (k x : Nat) : ∀ b n, n ≤ rootFrom k x b n
  | 0, _ => le_rfl
  | b + 1, n => by
    unfold rootFrom; split
    · exact le_trans (Nat.le_add_right _ _) (le_rootFrom k x b _)
    · exact le_rootFrom k x b n

theorem rootFrom_lt (k x : Nat) : ∀ b n, rootFrom k x b n < n + 2 ^ b
  | 0, n => by simp [rootFrom]
  | b + 1, n => by
    unfold rootFrom; split
    · have := rootFrom_lt k x b (n + 2 ^ b); rw [pow_succ]; omega
    · have := rootFrom_lt k x b n; rw [pow_succ]; omega

theorem rootFrom_mono (k : Nat) {x y : Nat} (h : x ≤ y) : ∀ b n, rootFrom k x b n ≤ rootFrom k y b n
  | 0, _ => le_rfl
  | b + 1, n => by
    unfold rootFrom; split
    · rw [if_pos (le_trans ‹_› h)]; exact rootFrom_mono k h b _
    · split
      · exact le_trans (rootFrom_lt k x b n).le (le_rootFrom k y b _)
      · exact rootFrom_mono k h b n

theorem rootFloor_lt (k x bits : Nat) : rootFloor k x bits < 2 ^ bits := by
  have := rootFrom_lt k x bits 0; unfold rootFloor; omega

theorem rootFloor_mono (k bits : Nat) {x y : Nat} (h : x ≤ y) : rootFloor k x bits ≤ rootFloor k y bits :=
  rootFrom_mono k h bits 0

/-- A root found by the search is a root: its power does not exceed `x` (the candidate 0 never does, for `k` above 0). -/
theorem rootFrom_pow_le (k x : Nat) : ∀ b n, n ^ k ≤ x → rootFrom k x b n ^ k ≤ x
  | 0, _, h => h
  | b + 1, n, h => by
    unfold rootFrom; split
    · exact rootFrom_pow_le k x b _ ‹_›
    · exact rootFrom_pow_le k x b n h

/-- The search misses no root below its bound. -/
theorem lt_rootFrom_succ_pow (k x : Nat) : ∀ b n, x < (n + 2 ^ b) ^ k → x < (rootFrom k x b n + 1) ^ k
  | 0, n, h => by simpa [rootFrom] using h
  | b + 1, n, h => by
    unfold rootFrom; split
    · refine lt_rootFrom_succ_pow k x b _ ?_
      rwa [show n + 2 ^ b + 2 ^ b = n + 2 ^ (b + 1) by rw [pow_succ]; omega]
    · exact lt_rootFrom_succ_pow k x b n (by omega)

/-! ### Integer logarithms -/

theorem logDigits_lt (scale : Nat) : ∀ b y, logDigits scale b y < 2 ^ b
  | 0, _ => by simp [logDigits]
  | b + 1, y => by
    unfold logDigits; split
    · have := logDigits_lt scale b (y * y / scale / 32767); rw [pow_succ]; omega
    · have := logDigits_lt scale b (y * y / scale); rw [pow_succ]; omega

theorem logDigits_mono (scale : Nat) : ∀ b {y z : Nat}, y ≤ z → logDigits scale b y ≤ logDigits scale b z
  | 0, _, _, _ => le_rfl
  | b + 1, y, z, h => by
    have hsq : y * y / scale ≤ z * z / scale := Nat.div_le_div_right (Nat.mul_le_mul h h)
    unfold logDigits; split
    · rw [if_pos (le_trans ‹_› hsq)]
      have := logDigits_mono scale b (Nat.div_le_div_right (c := 32767) hsq)
      omega
    · split
      · have := logDigits_lt scale b (y * y / scale); omega
      · exact logDigits_mono scale b hsq

theorem logFloor_lt (bits v : Nat) : logFloor bits v < 3 * 2 ^ bits := by
  have h1 := logDigits_lt logScale bits (v * logScale)
  have h2 := logDigits_lt logScale bits (v * logScale / 32767)
  have h3 := logDigits_lt logScale bits (v * logScale / 32767 ^ 2)
  unfold logFloor; split
  · omega
  · split <;> omega

theorem logFloor_mono (bits : Nat) {v w : Nat} (h : v ≤ w) : logFloor bits v ≤ logFloor bits w := by
  have hs : v * logScale ≤ w * logScale := Nat.mul_le_mul_right _ h
  have m1 := logDigits_mono logScale bits hs
  have m2 := logDigits_mono logScale bits (Nat.div_le_div_right (c := 32767) hs)
  have m3 := logDigits_mono logScale bits (Nat.div_le_div_right (c := 32767 ^ 2) hs)
  have b1 := logDigits_lt logScale bits (v * logScale)
  have b2 := logDigits_lt logScale bits (v * logScale / 32767)
  unfold logFloor
  split_ifs <;> omega

end Sys2Proof.Machine
end

