-- ==== Sys2Proof/Laws/Encode.lean ====
section
/-! SUPPORT. The encoder and the field extraction undo each other (30_encoding.md R91, R94, R103). -/

namespace Sys2Proof

@[simp] theorem placed_eq {n : Nat} (lo : Nat) (f : BitVec n) : placed lo f = f.toNat * 2 ^ lo := by
  simp [placed, Nat.shiftLeft_eq]

/-- A payload fills at most the 52 bits of its field (R91). -/
theorem payload_lt (i : Instr) : i.payload < 2 ^ 52 := by
  cases i <;> simp only [Instr.payload, payloadOfOpParams, placed_eq] <;> omega

theorem encode_toNat (i : Instr) :
    (encode i).toNat = i.opcode.toNat * 2 ^ 56 + i.unitCode.toNat * 2 ^ 52 + i.payload := by
  have h1 := payload_lt i
  have h2 := i.opcode.isLt
  have h3 := i.unitCode.isLt
  simp only [encode, placed_eq, BitVec.toNat_ofNat]
  omega

theorem opcField_toNat (w : Command) : (opcField w).toNat = w.toNat / 2 ^ 56 := by
  have := w.isLt
  simp only [opcField, BitVec.extractLsb'_toNat, Nat.shiftRight_eq_div_pow]
  omega

theorem unitField_toNat (w : Command) : (unitField w).toNat = w.toNat / 2 ^ 52 % 16 := by
  simp only [unitField, BitVec.extractLsb'_toNat, Nat.shiftRight_eq_div_pow]

theorem payloadField_toNat (w : Command) : (payloadField w).toNat = w.toNat % 2 ^ 52 := by
  simp only [payloadField, BitVec.extractLsb'_toNat, Nat.shiftRight_eq_div_pow]
  omega

theorem opcField_encode (i : Instr) : opcField (encode i) = i.opcode := by
  apply BitVec.eq_of_toNat_eq
  rw [opcField_toNat, encode_toNat]
  have h1 := payload_lt i
  have h3 := i.unitCode.isLt
  omega

theorem unitField_encode (i : Instr) : unitField (encode i) = i.unitCode := by
  apply BitVec.eq_of_toNat_eq
  rw [unitField_toNat, encode_toNat]
  have h1 := payload_lt i
  have h3 := i.unitCode.isLt
  omega

theorem payloadField_encode (i : Instr) : payloadField (encode i) = BitVec.ofNat 52 i.payload := by
  apply BitVec.eq_of_toNat_eq
  rw [payloadField_toNat, encode_toNat, BitVec.toNat_ofNat]
  have h1 := payload_lt i
  omega

/-- A word is its three fields (R91). -/
theorem word_of_fields (w : Command) :
    w.toNat = (opcField w).toNat * 2 ^ 56 + (unitField w).toNat * 2 ^ 52 + (payloadField w).toNat := by
  rw [opcField_toNat, unitField_toNat, payloadField_toNat]
  omega

/-- A field of a payload, by its value. -/
theorem payload_field {len lo n : Nat} {f : BitVec len} (h : n / 2 ^ lo % 2 ^ len = f.toNat) (hn : n < 2 ^ 52) :
    (BitVec.ofNat 52 n).extractLsb' lo len = f := by
  apply BitVec.eq_of_toNat_eq
  rw [BitVec.extractLsb'_toNat, BitVec.toNat_ofNat, Nat.mod_eq_of_lt hn, Nat.shiftRight_eq_div_pow, h]

theorem payloadFits_iff (width : Nat) (p : BitVec 52) : payloadFits width p = true ↔ p.toNat < 2 ^ width := by
  simp [payloadFits]

theorem oscOfUnit_unit (u : OscId) : oscOfUnit u.unit = some u := by cases u <;> rfl

theorem opOfUnit_unit (o : OpId) : opOfUnit o.unit = some o := by cases o <;> rfl

theorem unit_of_oscOfUnit {u : BitVec 4} {o : OscId} (h : oscOfUnit u = some o) : o.unit = u := by
  revert u o; decide

theorem unit_of_opOfUnit {u : BitVec 4} {o : OpId} (h : opOfUnit u = some o) : o.unit = u := by
  revert u o; decide

theorem oscOfUnit_none_iff (u : BitVec 4) : oscOfUnit u = none ↔ 7 ≤ u.toNat := by revert u; decide

theorem opOfUnit_none_iff (u : BitVec 4) : opOfUnit u = none ↔ 4 ≤ u.toNat := by revert u; decide

/-- What decoding a command of class OSC can give. -/
theorem decodeOsc_ok {u : BitVec 4} {width : Nat} {p : BitVec 52} {k : OscId → Instr} {i : Instr} :
    decodeOsc u width p k = .ok i ↔ ∃ o, oscOfUnit u = some o ∧ p.toNat < 2 ^ width ∧ i = k o := by
  unfold decodeOsc
  cases oscOfUnit u with
  | none => simp
  | some o =>
    by_cases h : p.toNat < 2 ^ width
    · simp only [payloadFits, h, decide_true, if_true, Except.ok.injEq, Option.some.injEq, true_and, exists_eq_left']
      exact eq_comm
    · simp [payloadFits, h]

/-- What decoding a command of class EG or OP can give. -/
theorem decodeOp_ok {u : BitVec 4} {width : Nat} {p : BitVec 52} {k : OpId → Instr} {i : Instr} :
    decodeOp u width p k = .ok i ↔ ∃ o, opOfUnit u = some o ∧ p.toNat < 2 ^ width ∧ i = k o := by
  unfold decodeOp
  cases opOfUnit u with
  | none => simp
  | some o =>
    by_cases h : p.toNat < 2 ^ width
    · simp only [payloadFits, h, decide_true, if_true, Except.ok.injEq, Option.some.injEq, true_and, exists_eq_left']
      exact eq_comm
    · simp [payloadFits, h]

/-- What decoding a command of class SG can give. -/
theorem decodeSg_ok {u : BitVec 4} {width : Nat} {p : BitVec 52} {k i : Instr} :
    decodeSg u width p k = .ok i ↔ u = 0 ∧ p.toNat < 2 ^ width ∧ i = k := by
  unfold decodeSg
  by_cases h : u = 0
  · rw [if_pos h]
    by_cases hp : p.toNat < 2 ^ width
    · rw [if_pos (by simpa [payloadFits] using hp)]
      exact ⟨fun h1 => ⟨h, hp, (Except.ok.inj h1).symm⟩, fun h1 => by rw [h1.2.2]⟩
    · rw [if_neg (by simpa [payloadFits] using hp)]
      exact ⟨fun h1 => (by cases h1), fun h1 => absurd h1.2.1 hp⟩
  · rw [if_neg h]
    exact ⟨fun h1 => (by cases h1), fun h1 => absurd h1.1 h⟩

/-- The range check is the last step of decoding (R99 (d), (e)). -/
theorem decode_ok {w : Command} {i : Instr} : decode w = .ok i ↔ decodeFields w = .ok i ∧ i.WellFormed := by
  unfold decode
  cases h : decodeFields w with
  | error e => simp
  | ok j =>
    simp only [checkRange]
    by_cases hw : j.wellFormed = true
    · simp only [hw, if_true, Except.ok.injEq]
      exact ⟨fun h => ⟨h, h ▸ hw⟩, fun h => h.1⟩
    · simp only [hw]
      constructor
      · intro h; simp at h
      · rintro ⟨h1, h2⟩; simp only [Except.ok.injEq] at h1; subst h1; exact absurd h2 hw

end Sys2Proof
end

