-- ==== Sys2Proof/Laws/Decode.lean ====
section
/-! SUPPORT. The decoder row by row: which of the three class decoders a word goes to, by its opcode (30_encoding.md R98). -/

namespace Sys2Proof

theorem decodeFields_01 {w : Command} (h : (opcField w).toNat = 0x01) :
    decodeFields w = decodeOsc (unitField w) 32 (payloadField w) fun o =>
      .oscSetcyc o ((payloadField w).extractLsb' 0 32) := by
  simp only [decodeFields, h]

theorem decodeFields_02 {w : Command} (h : (opcField w).toNat = 0x02) :
    decodeFields w = decodeOsc (unitField w) 0 (payloadField w) .oscNext := by
  simp only [decodeFields, h]

theorem decodeFields_03 {w : Command} (h : (opcField w).toNat = 0x03) :
    decodeFields w = decodeOsc (unitField w) 32 (payloadField w) fun o =>
      .oscNextm o ((payloadField w).extractLsb' 0 32) := by
  simp only [decodeFields, h]

theorem decodeFields_04 {w : Command} (h : (opcField w).toNat = 0x04) :
    decodeFields w = decodeOsc (unitField w) 32 (payloadField w) fun o =>
      .oscAddph o ((payloadField w).extractLsb' 0 32) := by
  simp only [decodeFields, h]

theorem decodeFields_10 {w : Command} (h : (opcField w).toNat = 0x10) :
    decodeFields w = decodeOp (unitField w) 35 (payloadField w) fun e =>
      .egInit e ((payloadField w).extractLsb' 0 6) ((payloadField w).extractLsb' 6 6) ((payloadField w).extractLsb' 12 6) ((payloadField w).extractLsb' 18 6) ((payloadField w).extractLsb' 24 4) ((payloadField w).extractLsb' 28 7) := by
  simp only [decodeFields, h]

theorem decodeFields_11 {w : Command} (h : (opcField w).toNat = 0x11) :
    decodeFields w = decodeOp (unitField w) 20 (payloadField w) fun e =>
      .egSetrate e ((payloadField w).extractLsb' 0 20) := by
  simp only [decodeFields, h]

theorem decodeFields_12 {w : Command} (h : (opcField w).toNat = 0x12) :
    decodeFields w = decodeOp (unitField w) 0 (payloadField w) .egUpdate := by
  simp only [decodeFields, h]

theorem decodeFields_13 {w : Command} (h : (opcField w).toNat = 0x13) :
    decodeFields w = decodeOp (unitField w) 15 (payloadField w) fun e =>
      .egSethold e ((payloadField w).extractLsb' 0 15) := by
  simp only [decodeFields, h]

theorem decodeFields_14 {w : Command} (h : (opcField w).toNat = 0x14) :
    decodeFields w = decodeOp (unitField w) 7 (payloadField w) fun e =>
      .egSetfrz e ((payloadField w).extractLsb' 0 7) := by
  simp only [decodeFields, h]

theorem decodeFields_15 {w : Command} (h : (opcField w).toNat = 0x15) :
    decodeFields w = decodeOp (unitField w) 0 (payloadField w) .egKeyoff := by
  simp only [decodeFields, h]

theorem decodeFields_16 {w : Command} (h : (opcField w).toNat = 0x16) :
    decodeFields w = decodeOp (unitField w) 0 (payloadField w) .egSndoff := by
  simp only [decodeFields, h]

theorem decodeFields_17 {w : Command} (h : (opcField w).toNat = 0x17) :
    decodeFields w = decodeOp (unitField w) 0 (payloadField w) .egNext := by
  simp only [decodeFields, h]

theorem decodeFields_20 {w : Command} (h : (opcField w).toNat = 0x20) :
    decodeFields w = decodeOp (unitField w) 48 (payloadField w) fun o =>
      .opInit o (opParamsOfPayload (payloadField w)) ((payloadField w).extractLsb' 41 7) := by
  simp only [decodeFields, h]

theorem decodeFields_21 {w : Command} (h : (opcField w).toNat = 0x21) :
    decodeFields w = decodeOp (unitField w) 52 (payloadField w) fun o =>
      .opSetfreq o ((payloadField w).extractLsb' 0 32) ((payloadField w).extractLsb' 32 20) := by
  simp only [decodeFields, h]

theorem decodeFields_22 {w : Command} (h : (opcField w).toNat = 0x22) :
    decodeFields w = decodeOp (unitField w) 0 (payloadField w) .opNext := by
  simp only [decodeFields, h]

theorem decodeFields_23 {w : Command} (h : (opcField w).toNat = 0x23) :
    decodeFields w = decodeOp (unitField w) 32 (payloadField w) fun o =>
      .opNextm o ((payloadField w).extractLsb' 0 32) := by
  simp only [decodeFields, h]

theorem decodeFields_24 {w : Command} (h : (opcField w).toNat = 0x24) :
    decodeFields w = decodeOp (unitField w) 41 (payloadField w) fun o =>
      .opNextam o ((payloadField w).extractLsb' 32 9) ((payloadField w).extractLsb' 0 32) := by
  simp only [decodeFields, h]

theorem decodeFields_25 {w : Command} (h : (opcField w).toNat = 0x25) :
    decodeFields w = decodeOp (unitField w) 0 (payloadField w) .opFin := by
  simp only [decodeFields, h]

theorem decodeFields_30 {w : Command} (h : (opcField w).toNat = 0x30) :
    decodeFields w = decodeSg (unitField w) 9 (payloadField w) (.sgConfig ((payloadField w).extractLsb' 0 3) ((payloadField w).extractLsb' 3 3) ((payloadField w).extractLsb' 6 3)) := by
  simp only [decodeFields, h]

theorem decodeFields_31 {w : Command} (h : (opcField w).toNat = 0x31) :
    decodeFields w = decodeSg (unitField w) 52 (payloadField w) (.sgSetfreq ((payloadField w).extractLsb' 0 32) ((payloadField w).extractLsb' 32 20)) := by
  simp only [decodeFields, h]

theorem decodeFields_32 {w : Command} (h : (opcField w).toNat = 0x32) :
    decodeFields w = decodeSg (unitField w) 0 (payloadField w) .sgNext := by
  simp only [decodeFields, h]

theorem decodeFields_33 {w : Command} (h : (opcField w).toNat = 0x33) :
    decodeFields w = decodeSg (unitField w) 0 (payloadField w) .sgFin := by
  simp only [decodeFields, h]

theorem decodeFields_34 {w : Command} (h : (opcField w).toNat = 0x34) :
    decodeFields w = decodeSg (unitField w) 0 (payloadField w) .sgKeyoff := by
  simp only [decodeFields, h]

theorem decodeFields_35 {w : Command} (h : (opcField w).toNat = 0x35) :
    decodeFields w = decodeSg (unitField w) 0 (payloadField w) .sgSndoff := by
  simp only [decodeFields, h]

theorem decodeFields_36 {w : Command} (h : (opcField w).toNat = 0x36) :
    decodeFields w = decodeSg (unitField w) 7 (payloadField w) (.sgSetdamper ((payloadField w).extractLsb' 0 7)) := by
  simp only [decodeFields, h]

theorem decodeFields_37 {w : Command} (h : (opcField w).toNat = 0x37) :
    decodeFields w = decodeSg (unitField w) 7 (payloadField w) (.sgSetsost ((payloadField w).extractLsb' 0 7)) := by
  simp only [decodeFields, h]

theorem decodeFields_38 {w : Command} (h : (opcField w).toNat = 0x38) :
    decodeFields w = decodeSg (unitField w) 7 (payloadField w) (.sgSetfrz ((payloadField w).extractLsb' 0 7)) := by
  simp only [decodeFields, h]

theorem decodeFields_39 {w : Command} (h : (opcField w).toNat = 0x39) :
    decodeFields w = decodeSg (unitField w) 45 (payloadField w) (.sgSetvib ((payloadField w).extractLsb' 32 13) ((payloadField w).extractLsb' 0 32)) := by
  simp only [decodeFields, h]

theorem decodeFields_3A {w : Command} (h : (opcField w).toNat = 0x3A) :
    decodeFields w = decodeSg (unitField w) 45 (payloadField w) (.sgSettrm ((payloadField w).extractLsb' 32 13) ((payloadField w).extractLsb' 0 32)) := by
  simp only [decodeFields, h]

theorem decodeFields_3F {w : Command} (h : (opcField w).toNat = 0x3F) :
    decodeFields w = decodeSg (unitField w) 0 (payloadField w) .sgReset := by
  simp only [decodeFields, h]

/-- An opcode outside the map (R99 (a)). -/
theorem decodeFields_ok_opcode {w : Command} {i : Instr} (h : decodeFields w = .ok i) :
    (opcField w).toNat ∈ [0x01, 0x02, 0x03, 0x04, 0x10, 0x11, 0x12, 0x13, 0x14, 0x15, 0x16, 0x17, 0x20, 0x21, 0x22, 0x23, 0x24, 0x25,
      0x30, 0x31, 0x32, 0x33, 0x34, 0x35, 0x36, 0x37, 0x38, 0x39, 0x3A, 0x3F] := by
  unfold decodeFields at h
  simp only [] at h
  split at h <;> rename_i heq <;> first | (rw [heq]; decide) | cases h

end Sys2Proof
end

