-- ==== Sys2Proof/Laws/State.lean ====
section
/-! SUPPORT. Reading a unit after writing one: one lemma for each read of each update (00_scope.md R11: a rule that does not write a
register leaves it unchanged), and equality of states unit by unit. -/

namespace Sys2Proof.Machine

open Sys2Proof

@[simp] theorem osc_eq_osc (o p : OpId) : (o.osc = p.osc) = (o = p) := by cases o <;> cases p <;> simp [OpId.osc]

@[simp] theorem osc_ne_lfoAm (o : OpId) : (o.osc = .lfoAm) = False := by cases o <;> simp [OpId.osc]

@[simp] theorem osc_ne_lfoVib (o : OpId) : (o.osc = .lfoVib) = False := by cases o <;> simp [OpId.osc]

@[simp] theorem osc_ne_lfoTrm (o : OpId) : (o.osc = .lfoTrm) = False := by cases o <;> simp [OpId.osc]

@[simp] theorem lfoAm_ne_osc (o : OpId) : (OscId.lfoAm = o.osc) = False := by cases o <;> simp [OpId.osc]

@[simp] theorem lfoVib_ne_osc (o : OpId) : (OscId.lfoVib = o.osc) = False := by cases o <;> simp [OpId.osc]

@[simp] theorem lfoTrm_ne_osc (o : OpId) : (OscId.lfoTrm = o.osc) = False := by cases o <;> simp [OpId.osc]

/-- An oscillator unit is an operator's or one of the three LFOs. -/
theorem oscId_cases (u : OscId) : (∃ o : OpId, u = o.osc) ∨ u = .lfoAm ∨ u = .lfoVib ∨ u = .lfoTrm := by
  cases u
  · exact .inl ⟨.op1, rfl⟩
  · exact .inl ⟨.op2, rfl⟩
  · exact .inl ⟨.op3, rfl⟩
  · exact .inl ⟨.op4, rfl⟩
  all_goals simp

/-! ### Reading back -/

@[simp] theorem oscAt_setOsc (s : State) (u v : OscId) (o : Osc) :
    (s.setOsc u o).oscAt v = if v = u then o else s.oscAt v := by cases u <;> cases v <;> rfl

@[simp] theorem egAt_setEg (s : State) (e f : OpId) (v : Eg) :
    (s.setEg e v).egAt f = if f = e then v else s.egAt f := by cases e <;> cases f <;> rfl

@[simp] theorem opAt_setOp (s : State) (o p : OpId) (v : OpRegs) :
    (s.setOp o v).opAt p = if p = o then v else s.opAt p := by cases o <;> cases p <;> rfl

@[simp] theorem sg_setSg (s : State) (v : SgRegs) : (s.setSg v).sg = v := rfl

@[simp] theorem rsp_respond (v : Int) (s : State) : (respond v s).rsp = u32 v := rfl

/-! ### Reading what was not written -/

@[simp] theorem eg_setOsc (s : State) (u : OscId) (o : Osc) : (s.setOsc u o).eg = s.eg := by cases u <;> rfl

@[simp] theorem op_setOsc (s : State) (u : OscId) (o : Osc) : (s.setOsc u o).op = s.op := by cases u <;> rfl

@[simp] theorem sg_setOsc (s : State) (u : OscId) (o : Osc) : (s.setOsc u o).sg = s.sg := by cases u <;> rfl

@[simp] theorem rsp_setOsc (s : State) (u : OscId) (o : Osc) : (s.setOsc u o).rsp = s.rsp := by cases u <;> rfl

@[simp] theorem host_setOsc (s : State) (u : OscId) (o : Osc) : (s.setOsc u o).host = s.host := by cases u <;> rfl

@[simp] theorem cfg_setOsc (s : State) (u : OscId) (o : Osc) : (s.setOsc u o).cfg = s.cfg := by cases u <;> rfl

@[simp] theorem egAt_setOsc (s : State) (u : OscId) (o : Osc) (w : OpId) : (s.setOsc u o).egAt w = s.egAt w := by cases u <;> rfl

@[simp] theorem opAt_setOsc (s : State) (u : OscId) (o : Osc) (w : OpId) : (s.setOsc u o).opAt w = s.opAt w := by cases u <;> rfl

@[simp] theorem config_setOsc (s : State) (u : OscId) (o : Osc) : (s.setOsc u o).config = s.config := by cases u <;> rfl

@[simp] theorem osc_setEg (s : State) (e : OpId) (v : Eg) : (s.setEg e v).osc = s.osc := by cases e <;> rfl

@[simp] theorem op_setEg (s : State) (e : OpId) (v : Eg) : (s.setEg e v).op = s.op := by cases e <;> rfl

@[simp] theorem sg_setEg (s : State) (e : OpId) (v : Eg) : (s.setEg e v).sg = s.sg := by cases e <;> rfl

@[simp] theorem rsp_setEg (s : State) (e : OpId) (v : Eg) : (s.setEg e v).rsp = s.rsp := by cases e <;> rfl

@[simp] theorem host_setEg (s : State) (e : OpId) (v : Eg) : (s.setEg e v).host = s.host := by cases e <;> rfl

@[simp] theorem cfg_setEg (s : State) (e : OpId) (v : Eg) : (s.setEg e v).cfg = s.cfg := by cases e <;> rfl

@[simp] theorem oscAt_setEg (s : State) (e : OpId) (v : Eg) (w : OscId) : (s.setEg e v).oscAt w = s.oscAt w := by cases e <;> rfl

@[simp] theorem opAt_setEg (s : State) (e : OpId) (v : Eg) (w : OpId) : (s.setEg e v).opAt w = s.opAt w := by cases e <;> rfl

@[simp] theorem config_setEg (s : State) (e : OpId) (v : Eg) : (s.setEg e v).config = s.config := by cases e <;> rfl

@[simp] theorem osc_setOp (s : State) (o : OpId) (v : OpRegs) : (s.setOp o v).osc = s.osc := by cases o <;> rfl

@[simp] theorem eg_setOp (s : State) (o : OpId) (v : OpRegs) : (s.setOp o v).eg = s.eg := by cases o <;> rfl

@[simp] theorem sg_setOp (s : State) (o : OpId) (v : OpRegs) : (s.setOp o v).sg = s.sg := by cases o <;> rfl

@[simp] theorem rsp_setOp (s : State) (o : OpId) (v : OpRegs) : (s.setOp o v).rsp = s.rsp := by cases o <;> rfl

@[simp] theorem host_setOp (s : State) (o : OpId) (v : OpRegs) : (s.setOp o v).host = s.host := by cases o <;> rfl

@[simp] theorem cfg_setOp (s : State) (o : OpId) (v : OpRegs) : (s.setOp o v).cfg = s.cfg := by cases o <;> rfl

@[simp] theorem oscAt_setOp (s : State) (o : OpId) (v : OpRegs) (w : OscId) : (s.setOp o v).oscAt w = s.oscAt w := by cases o <;> rfl

@[simp] theorem egAt_setOp (s : State) (o : OpId) (v : OpRegs) (w : OpId) : (s.setOp o v).egAt w = s.egAt w := by cases o <;> rfl

@[simp] theorem config_setOp (s : State) (o : OpId) (v : OpRegs) : (s.setOp o v).config = s.config := by cases o <;> rfl

@[simp] theorem osc_setSg (s : State) (v : SgRegs) : (s.setSg v).osc = s.osc := rfl

@[simp] theorem eg_setSg (s : State) (v : SgRegs) : (s.setSg v).eg = s.eg := rfl

@[simp] theorem op_setSg (s : State) (v : SgRegs) : (s.setSg v).op = s.op := rfl

@[simp] theorem rsp_setSg (s : State) (v : SgRegs) : (s.setSg v).rsp = s.rsp := rfl

@[simp] theorem host_setSg (s : State) (v : SgRegs) : (s.setSg v).host = s.host := rfl

@[simp] theorem cfg_setSg (s : State) (v : SgRegs) : (s.setSg v).cfg = s.cfg := rfl

@[simp] theorem oscAt_setSg (s : State) (v : SgRegs) (w : OscId) : (s.setSg v).oscAt w = s.oscAt w := rfl

@[simp] theorem egAt_setSg (s : State) (v : SgRegs) (w : OpId) : (s.setSg v).egAt w = s.egAt w := rfl

@[simp] theorem opAt_setSg (s : State) (v : SgRegs) (w : OpId) : (s.setSg v).opAt w = s.opAt w := rfl

@[simp] theorem config_setSg (s : State) (v : SgRegs) : (s.setSg v).config = s.config := rfl

@[simp] theorem osc_respond (s : State) (v : Int) : (respond v s).osc = s.osc := rfl

@[simp] theorem eg_respond (s : State) (v : Int) : (respond v s).eg = s.eg := rfl

@[simp] theorem op_respond (s : State) (v : Int) : (respond v s).op = s.op := rfl

@[simp] theorem sg_respond (s : State) (v : Int) : (respond v s).sg = s.sg := rfl

@[simp] theorem host_respond (s : State) (v : Int) : (respond v s).host = s.host := rfl

@[simp] theorem cfg_respond (s : State) (v : Int) : (respond v s).cfg = s.cfg := rfl

@[simp] theorem oscAt_respond (s : State) (v : Int) (w : OscId) : (respond v s).oscAt w = s.oscAt w := rfl

@[simp] theorem egAt_respond (s : State) (v : Int) (w : OpId) : (respond v s).egAt w = s.egAt w := rfl

@[simp] theorem opAt_respond (s : State) (v : Int) (w : OpId) : (respond v s).opAt w = s.opAt w := rfl

@[simp] theorem config_respond (s : State) (v : Int) : (respond v s).config = s.config := rfl

/-! ### The model's own fields -/

@[simp] theorem oscAt_with_rsp (s : State) (x : Response) (w : OscId) : State.oscAt { s with rsp := x } w = s.oscAt w := rfl

@[simp] theorem egAt_with_rsp (s : State) (x : Response) (w : OpId) : State.egAt { s with rsp := x } w = s.egAt w := rfl

@[simp] theorem opAt_with_rsp (s : State) (x : Response) (w : OpId) : State.opAt { s with rsp := x } w = s.opAt w := rfl

@[simp] theorem config_with_rsp (s : State) (x : Response) : State.config { s with rsp := x } = s.config := rfl

@[simp] theorem oscAt_with_host (s : State) (x : List HostEvent) (w : OscId) : State.oscAt { s with host := x } w = s.oscAt w := rfl

@[simp] theorem egAt_with_host (s : State) (x : List HostEvent) (w : OpId) : State.egAt { s with host := x } w = s.egAt w := rfl

@[simp] theorem opAt_with_host (s : State) (x : List HostEvent) (w : OpId) : State.opAt { s with host := x } w = s.opAt w := rfl

@[simp] theorem config_with_host (s : State) (x : List HostEvent) : State.config { s with host := x } = s.config := rfl

/-! ### Equality of states -/

/-- Two states are equal if they agree on every unit and on the model's own fields. -/
theorem State.ext_at {s t : State} (hosc : ∀ u, s.oscAt u = t.oscAt u) (heg : ∀ e, s.egAt e = t.egAt e)
    (hop : ∀ o, s.opAt o = t.opAt o) (hsg : s.sg = t.sg) (hrsp : s.rsp = t.rsp) (hhost : s.host = t.host)
    (hcfg : s.cfg = t.cfg) : s = t := by
  obtain ⟨⟨a1, a2, a3, a4, a5, a6, a7⟩, ⟨b1, b2, b3, b4⟩, ⟨c1, c2, c3, c4⟩, d, r, h, k⟩ := s
  obtain ⟨⟨a1', a2', a3', a4', a5', a6', a7'⟩, ⟨b1', b2', b3', b4'⟩, ⟨c1', c2', c3', c4'⟩, d', r', h', k'⟩ := t
  have h1 := hosc .osc1; have h2 := hosc .osc2; have h3 := hosc .osc3; have h4 := hosc .osc4
  have h5 := hosc .lfoAm; have h6 := hosc .lfoVib; have h7 := hosc .lfoTrm
  have e1 := heg .op1; have e2 := heg .op2; have e3 := heg .op3; have e4 := heg .op4
  have p1 := hop .op1; have p2 := hop .op2; have p3 := hop .op3; have p4 := hop .op4
  simp only [State.oscAt, State.egAt, State.opAt] at *
  subst_vars
  rfl

/-- Two oscillator banks are equal if every oscillator read from them is. -/
theorem osc_eq_of_oscAt {s t : State} (h : ∀ u, s.oscAt u = t.oscAt u) : s.osc = t.osc := by
  obtain ⟨⟨a1, a2, a3, a4, a5, a6, a7⟩, _, _, _, _, _, _⟩ := s
  obtain ⟨⟨a1', a2', a3', a4', a5', a6', a7'⟩, _, _, _, _, _, _⟩ := t
  have h1 := h .osc1; have h2 := h .osc2; have h3 := h .osc3; have h4 := h .osc4
  have h5 := h .lfoAm; have h6 := h .lfoVib; have h7 := h .lfoTrm
  simp only [State.oscAt] at *
  subst_vars
  rfl

/-- Two envelope banks are equal if every envelope read from them is. -/
theorem eg_eq_of_egAt {s t : State} (h : ∀ e, s.egAt e = t.egAt e) : s.eg = t.eg := by
  obtain ⟨_, ⟨b1, b2, b3, b4⟩, _, _, _, _, _⟩ := s
  obtain ⟨_, ⟨b1', b2', b3', b4'⟩, _, _, _, _, _⟩ := t
  have e1 := h .op1; have e2 := h .op2; have e3 := h .op3; have e4 := h .op4
  simp only [State.egAt] at *
  subst_vars
  rfl

/-- Two operator banks are equal if every operator read from them is. -/
theorem op_eq_of_opAt {s t : State} (h : ∀ o, s.opAt o = t.opAt o) : s.op = t.op := by
  obtain ⟨_, _, ⟨c1, c2, c3, c4⟩, _, _, _, _⟩ := s
  obtain ⟨_, _, ⟨c1', c2', c3', c4'⟩, _, _, _, _⟩ := t
  have p1 := h .op1; have p2 := h .op2; have p3 := h .op3; have p4 := h .op4
  simp only [State.opAt] at *
  subst_vars
  rfl

end Sys2Proof.Machine
end

