-- ==== Sys2Proof/Laws/Tables.lean ====
section
/-! SUPPORT. Every configuration a block can be built with meets the constraints of 00_scope.md R6: `DEFAULT` and `T8` are checked here,
and `Config.given` carries its own proof. -/

namespace Sys2Proof.Machine

open Sys2Proof

set_option maxRecDepth 4000

theorem sineQuarter_le : ∀ k, k < 1025 → sineQuarter k ≤ 32767 := by decide +kernel

theorem dfltSine_bound (i : Nat) : -32767 ≤ dfltSine i ∧ dfltSine i ≤ 32767 := by
  have hi : i % 4096 < 4096 := Nat.mod_lt _ (by norm_num)
  have hq : ∀ k, k < 1025 → (sineQuarter k : Int) ≤ 32767 := fun k hk => by exact_mod_cast sineQuarter_le k hk
  have h0 : ∀ k, (0 : Int) ≤ sineQuarter k := fun k => Int.natCast_nonneg _
  simp only [dfltSine]
  split_ifs
  · have := hq (i % 4096) (by omega); have := h0 (i % 4096); omega
  · have := hq (2048 - i % 4096) (by omega); have := h0 (2048 - i % 4096); omega
  · have := hq (i % 4096 - 2048) (by omega); have := h0 (i % 4096 - 2048); omega
  · have := hq (4096 - i % 4096) (by omega); have := h0 (4096 - i % 4096); omega

theorem dfltTl_range (t : BitVec 7) : 1 ≤ dfltTl t ∧ dfltTl t ≤ 32767 := by
  have h := rootFloor_lt 40 (32767 ^ 40 / 10 ^ (3 * t.toNat)) 15
  unfold dfltTl
  generalize rootFloor 40 (32767 ^ 40 / 10 ^ (3 * t.toNat)) 15 = r at h ⊢
  omega

theorem dfltTl_anti {t u : BitVec 7} (h : t ≤ u) : dfltTl u ≤ dfltTl t := by
  have hx : 32767 ^ 40 / 10 ^ (3 * u.toNat) ≤ 32767 ^ 40 / 10 ^ (3 * t.toNat) :=
    Nat.div_le_div_left (Nat.pow_le_pow_right (by norm_num) (Nat.mul_le_mul_left _ h)) (by positivity)
  have := rootFloor_mono 40 15 hx
  unfold dfltTl
  generalize rootFloor 40 (32767 ^ 40 / 10 ^ (3 * t.toNat)) 15 = r at *
  generalize rootFloor 40 (32767 ^ 40 / 10 ^ (3 * u.toNat)) 15 = r' at *
  omega

theorem dfltSl_le (s : BitVec 4) (t : BitVec 7) : dfltSl s t ≤ 2 ^ 28 := by
  simp only [dfltSl]
  split
  · exact Nat.zero_le _
  · exact Nat.div_le_of_le_mul (by rw [Nat.mul_comm (40 * 2 ^ 92)]; rw [Nat.mul_comm]; exact Nat.mul_le_mul_left _ (Nat.sub_le _ _))

theorem dfltSl_anti {r s : BitVec 4} (t : BitVec 7) (h : r ≤ s) : dfltSl s t ≤ dfltSl r t := by
  have h' : r.toNat ≤ s.toNat := h
  have hm : 3 * t.toNat + 12 * r.toNat ≤ 3 * t.toNat + 12 * s.toNat := by omega
  simp only [dfltSl]
  generalize 3 * t.toNat + 12 * r.toNat = m at hm ⊢
  generalize 3 * t.toNat + 12 * s.toNat = m' at hm ⊢
  split
  · exact Nat.zero_le _
  · rename_i h1
    have hp : 10 ^ m ≤ 10 ^ m' := Nat.pow_le_pow_right (by norm_num) hm
    rw [if_neg (fun h2 => h1 (le_trans h2 hp))]
    exact Nat.div_le_div_right (Nat.mul_le_mul_right _ (Nat.sub_le_sub_left (Nat.mul_le_mul_right _ hm) _))

theorem dfltExp_mono {i j : Nat} (h : i ≤ j) : dfltExp i ≤ dfltExp j := by
  unfold dfltExp
  exact rootFloor_mono _ _ (Nat.pow_le_pow_right (by norm_num) h)

theorem dfltExp_zero : dfltExp 0 ≤ 1 := by decide +kernel

theorem dfltConfig_valid : dfltConfig.Valid where
  sineDiv_pow := ⟨12, rfl⟩
  sineDiv_ge := by decide
  sineDiv_dvd := ⟨2 ^ 5, by decide⟩
  phaseFrac_range := by decide
  sineRom_bound := fun i _ => dfltSine_bound i
  sineRom_zero := by decide +kernel
  modFull_pow := ⟨16, rfl⟩
  logSize_ge := by decide
  log_span := by decide
  expRom_mono := fun _ _ h _ => by simp only [dfltConfig]; exact dfltExp_mono h
  expRom_zero := by simp only [dfltConfig]; exact dfltExp_zero
  lin2log_bound := fun v _ => by
    have := logFloor_lt 28 v
    simp only [dfltConfig, dfltLin2log]
    split <;> omega
  lin2log_mono := fun v w h _ => by
    simp only [dfltConfig, dfltLin2log]
    split_ifs
    · omega
    · omega
    · omega
    · exact logFloor_mono 28 h
  lin2log_zero := rfl
  tlRom_range := dfltTl_range
  tlRom_anti := fun _ _ h => dfltTl_anti h
  slRom_bound := fun s t => lt_of_le_of_lt (dfltSl_le s t) (by norm_num)
  slRom_anti := fun _ _ t h => dfltSl_anti t h
  arateRom_range := fun r t => by
    have := (rootFloor_lt 40 ((dfltTl t * 10000) ^ 40 * 10 ^ (3 * r.toNat) / 153262 ^ 40) 30).le
    simp only [dfltConfig, dfltArate]
    exact ⟨Nat.cast_nonneg _, by exact_mod_cast this⟩
  rrateRom_nonneg := fun r t => by simp only [dfltConfig]; exact Nat.cast_nonneg _
  soundoffLevel_ge := by decide
  detuneRom_nonneg := fun _ _ => le_rfl
  detuneRom_zero := fun _ => rfl
  amsRom_zero := rfl
  amsRom_bound := by decide
  algTable_rows := by decide
  algTable_serial := by decide
  algTable_parallel := by decide
  fbshiftRom_fixed := fun _ => rfl
  fbPreshift_le := by decide
  lfofreqRom_pos := by decide +kernel
  vibRom_zero := by decide +kernel

theorem t8Lin2log_mono {v w : Nat} (h : v ≤ w) : t8Lin2log v ≤ t8Lin2log w := by
  unfold t8Lin2log
  split_ifs with hv hw hw
  · exact le_rfl
  · exact Nat.zero_le _
  · omega
  · have hl : v.log2 ≤ w.log2 := (Nat.le_log2 hw).2 (le_trans (Nat.log2_self_le hv) h)
    have hv1 := Nat.log2_self_le hv
    have hv2 : v < 2 ^ (v.log2 + 1) := Nat.lt_log2_self
    rcases hl.eq_or_lt with he | hlt
    · rw [he]
      rw [he] at hv1
      exact Nat.add_le_add_left (Nat.div_le_div_right (Nat.mul_le_mul_right _ (Nat.sub_le_sub_right h _))) _
    · have : (v - 2 ^ v.log2) * 65536 / 2 ^ v.log2 ≤ 65536 := by
        refine Nat.div_le_of_le_mul ?_
        rw [Nat.mul_comm (2 ^ _)]
        rw [Nat.mul_comm]
        refine Nat.mul_le_mul_left _ ?_
        rw [pow_succ] at hv2; omega
      have : (v.log2 + 1) * 65536 ≤ w.log2 * 65536 := Nat.mul_le_mul_right _ hlt
      exact le_trans (by omega) (Nat.le_add_right _ _)

theorem t8Lin2log_lt {v : Nat} (h : v < 2 ^ 31) : t8Lin2log v < 2 ^ 32 := by
  refine lt_of_le_of_lt (t8Lin2log_mono (Nat.le_of_lt_succ (show v < (2 ^ 31 - 1) + 1 by omega))) (by decide +kernel)

theorem t8Config_valid : t8Config.Valid where
  sineDiv_pow := ⟨3, rfl⟩
  sineDiv_ge := by decide
  sineDiv_dvd := ⟨2 ^ 14, by decide⟩
  phaseFrac_range := by decide
  sineRom_bound := by decide
  sineRom_zero := by decide
  modFull_pow := ⟨16, rfl⟩
  logSize_ge := by decide
  log_span := by decide
  expRom_mono := fun i j h hj => by
    have : ∀ j : Fin 16, ∀ i : Fin 16, i ≤ j → t8Exp i ≤ t8Exp j := by decide
    exact this ⟨j, hj⟩ ⟨i, lt_of_le_of_lt h hj⟩ h
  expRom_zero := by decide
  lin2log_bound := fun _ h => t8Lin2log_lt h
  lin2log_mono := fun _ _ h _ => t8Lin2log_mono h
  lin2log_zero := rfl
  tlRom_range := by decide
  tlRom_anti := by decide +kernel
  slRom_bound := fun s t => lt_of_le_of_lt (Nat.sub_le _ _) (t8Lin2log_lt (by revert t; decide))
  slRom_anti := fun r s t h => Nat.sub_le_sub_left (Nat.mul_le_mul_right _ h) _
  arateRom_range := fun r t => by
    simp only [t8Config]
    have : (1000 * (r.toNat + 1) : Nat) ≤ 2 ^ 30 := by have := r.isLt; omega
    exact ⟨Nat.cast_nonneg _, by exact_mod_cast this⟩
  rrateRom_nonneg := fun r t => by simp only [t8Config]; exact Nat.cast_nonneg _
  soundoffLevel_ge := by decide
  detuneRom_nonneg := fun _ _ => by simp only [t8Config]; exact Nat.cast_nonneg _
  detuneRom_zero := fun _ => by simp [t8Config]
  amsRom_zero := rfl
  amsRom_bound := by decide
  algTable_rows := by decide
  algTable_serial := by decide
  algTable_parallel := by decide
  fbshiftRom_fixed := fun _ => rfl
  fbPreshift_le := by decide
  lfofreqRom_pos := fun i => by simp only [t8Config]; positivity
  vibRom_zero := by decide

/-- R6, R7: whatever a block is built with meets the constraints of R6. -/
theorem configOf_valid (n : ConfigName) : (configOf n).Valid := by
  cases n
  · exact dfltConfig_valid
  · exact t8Config_valid
  · exact Config.given.valid

end Sys2Proof.Machine
end

