-- ==== Sys2Proof/Laws/Envelope.lean ====
section
/-! SUPPORT. The envelope procedures, each said once: what `UpdateParams` latches (41_envelope.md R145), what a sample does in each state
(R150 to R161), and that every procedure keeps the invariant of a unit (10_state.md R37). -/

namespace Sys2Proof.Machine

open Sys2Proof

/-! ### UpdateParams -/

theorem withLatched_updateParams (c : Config) (e : Eg) : withLatched e (updateParams c e) = updateParams c e := rfl

@[simp] theorem updateParams_st (c : Config) (e : Eg) : (updateParams c e).st = e.st := rfl
@[simp] theorem updateParams_cur (c : Config) (e : Eg) : (updateParams c e).cur = e.cur := rfl
@[simp] theorem updateParams_rar (c : Config) (e : Eg) : (updateParams c e).rar = e.rar := rfl
@[simp] theorem updateParams_tl (c : Config) (e : Eg) : (updateParams c e).tl = e.tl := rfl
@[simp] theorem updateParams_rate (c : Config) (e : Eg) : (updateParams c e).rate = e.rate := rfl
@[simp] theorem updateParams_hold (c : Config) (e : Eg) : (updateParams c e).hold = e.hold := rfl
@[simp] theorem updateParams_freeze (c : Config) (e : Eg) : (updateParams c e).freeze = e.freeze := rfl

/-- The divisor of R145. -/
theorem divisor_eq (rate : BitVec 20) :
    (if rate = 0 then (1 : ℚ) else (hz20 rate : ℚ)) = max 1 (rate.toNat : ℚ) := by
  split
  · subst_vars; simp
  · rename_i h
    have : 1 ≤ rate.toNat := Nat.one_le_iff_ne_zero.2 fun h0 => h (BitVec.eq_of_toNat_eq (by simpa using h0))
    rw [max_eq_right (by exact_mod_cast this)]; rfl

theorem clamp_eq_max (a : ℚ) : (if a < 1 then 1 else a) = max 1 a := by
  split
  · exact (max_eq_left (le_of_lt ‹_›)).symm
  · exact (max_eq_right (not_lt.1 ‹_›)).symm

/-- No divisor makes an attack increment larger than the divisor 1 does. -/
theorem attackRate_floor_le_top {c : Config} (hc : c.Valid) (e : Eg) (d : ℚ) (hd : 1 ≤ d) :
    ⌊max 1 (c.arateRom e.rar e.tl / d)⌋₊ ≤ topAttackStep c e :=
  Nat.floor_le_floor (max_le_max_left 1 (div_le_self (hc.arateRom_range e.rar e.tl).1 hd))

theorem topAttackStep_le {c : Config} (hc : c.Valid) (e : Eg) : topAttackStep c e ≤ 2 ^ 30 :=
  Nat.floor_le_of_le (max_le (by norm_num) (by push_cast; exact (hc.arateRom_range e.rar e.tl).2))

theorem topAttackStep_pos (c : Config) (e : Eg) : 1 ≤ topAttackStep c e := Nat.le_floor (by simp)

@[simp] theorem topAttackStep_updateParams (c : Config) (e : Eg) : topAttackStep c (updateParams c e) = topAttackStep c e := rfl

theorem updateParams_latched {c : Config} (hc : c.Valid) (e : Eg) : EgLatched c (updateParams c e) := by
  have hd : (1 : ℚ) ≤ max 1 (e.rate.toNat : ℚ) := le_max_left _ _
  have h1 := (attackRate_floor_le_top hc e _ hd).trans (topAttackStep_le hc e)
  have h2 := (hc.tlRom_range e.tl).2
  have h3 := hc.slRom_bound e.sl e.tl
  simp only [EgLatched, updateParams, divisor_eq, clamp_eq_max, floorSat_toNat, floorNat_eq, BitVec.toNat_ofNat]
  refine ⟨?_, trivial, trivial, trivial, ?_, ?_, ?_⟩
  · exact Nat.mod_eq_of_lt (by omega)
  · exact Nat.mod_eq_of_lt (by omega)
  · exact Nat.mod_eq_of_lt (by omega)
  · exact Nat.mod_eq_of_lt h3

/-- R147: a unit whose latched registers agree with its parameters is not changed by `UpdateParams`. -/
theorem updateParams_of_latched {c : Config} (hc : c.Valid) {e : Eg} (h : EgLatched c e) : updateParams c e = e := by
  obtain ⟨a1, a2, a3, a4, a5, a6, a7⟩ := h
  obtain ⟨b1, b2, b3, b4, b5, b6, b7⟩ := updateParams_latched hc e
  have k1 : (updateParams c e).fAr = e.fAr := BitVec.eq_of_toNat_eq (b1.trans a1.symm)
  have k2 : (updateParams c e).fDr = e.fDr := BitVec.eq_of_toNat_eq (b2.trans a2.symm)
  have k3 : (updateParams c e).fSr = e.fSr := BitVec.eq_of_toNat_eq (b3.trans a3.symm)
  have k4 : (updateParams c e).fRr = e.fRr := BitVec.eq_of_toNat_eq (b4.trans a4.symm)
  have k5 : (updateParams c e).fOr = e.fOr := BitVec.eq_of_toNat_eq (b5.trans a5.symm)
  have k6 : (updateParams c e).fTl = e.fTl := BitVec.eq_of_toNat_eq (b6.trans a6.symm)
  have k7 : (updateParams c e).fSl = e.fSl := BitVec.eq_of_toNat_eq (b7.trans a7.symm)
  rw [← withLatched_updateParams]
  simp only [withLatched, k1, k2, k3, k4, k5, k6, k7]

/-- The latched registers say nothing of the level and the state. -/
theorem egLatched_with_level {c : Config} {e : Eg} (h : EgLatched c e) (x : EgState) (v : BitVec 32) :
    EgLatched c { e with st := x, cur := v } := h

/-! ### Bounds on the latched registers -/

theorem EgLatched.fTl_le {c : Config} (hc : c.Valid) {e : Eg} (h : EgLatched c e) : e.fTl.toNat ≤ 32767 := by
  rw [h.2.2.2.2.2.1]; exact (hc.tlRom_range _).2

theorem EgLatched.fTl_pos {c : Config} (hc : c.Valid) {e : Eg} (h : EgLatched c e) : 1 ≤ e.fTl.toNat := by
  rw [h.2.2.2.2.2.1]; exact (hc.tlRom_range _).1

theorem EgLatched.fAr_le_top {c : Config} (hc : c.Valid) {e : Eg} (h : EgLatched c e) : e.fAr.toNat ≤ topAttackStep c e := by
  rw [h.1]; exact attackRate_floor_le_top hc _ _ (le_max_left _ _)

theorem EgLatched.fAr_le {c : Config} (hc : c.Valid) {e : Eg} (h : EgLatched c e) : e.fAr.toNat ≤ 2 ^ 30 :=
  (h.fAr_le_top hc).trans (topAttackStep_le hc e)

theorem EgLatched.fAr_pos {c : Config} {e : Eg} (h : EgLatched c e) : 1 ≤ e.fAr.toNat := by
  rw [h.1]; exact Nat.le_floor (by simp)

theorem EgLatched.fOr_pos {c : Config} {e : Eg} (h : EgLatched c e) : 1 ≤ e.fOr.toNat := by
  rw [h.2.2.2.2.1]; exact le_max_left _ _

/-- R165 (c): with hold and freeze at 0 the release decrement is at least 1. -/
theorem EgLatched.fRr_pos {c : Config} {e : Eg} (h : EgLatched c e) (hh : e.hold = 0) (hf : e.freeze = 0) :
    1 ≤ e.fRr.toNat := by
  rw [h.2.2.2.1, hh, hf]
  refine le_min (Nat.le_floor ?_) (by norm_num)
  simp

/-- R145 (b): at a full pedal the three decrements are 0. -/
theorem EgLatched.decrements_zero {c : Config} {e : Eg} (h : EgLatched c e)
    (hp : e.hold.toNat = 16129 ∨ e.freeze.toNat = 127) : e.fDr = 0 ∧ e.fSr = 0 ∧ e.fRr = 0 := by
  have hk : (1 - (e.hold.toNat : ℚ) / 16129) * (1 - (e.freeze.toNat : ℚ) / 127) = 0 := by
    rcases hp with hp | hp <;> rw [hp] <;> norm_num
  obtain ⟨-, h2, h3, h4, -⟩ := h
  rw [hk] at h2 h3 h4
  simp only [mul_zero, Nat.floor_zero, Nat.zero_min] at h2 h3 h4
  exact ⟨BitVec.eq_of_toNat_eq (by simpa using h2), BitVec.eq_of_toNat_eq (by simpa using h3),
    BitVec.eq_of_toNat_eq (by simpa using h4)⟩

/-! ### Codes and levels -/

theorem levelCode_toNat {c : Config} (hc : c.Valid) {v : Nat} (h : v < 2 ^ 31) : (levelCode c v).toNat = c.lin2log v := by
  simpa [levelCode] using hc.lin2log_bound v h

theorem decodeLevel_eq (c : Config) (cur : BitVec 32) : decodeLevel c cur = decoded c cur.toNat := by
  simp [decodeLevel, decoded, Nat.shiftRight_eq_div_pow]

theorem decoded_mono {c : Config} (hc : c.Valid) {x y : Nat} (h : x ≤ y) : decoded c x ≤ decoded c y := by
  have h1 := hc.logSize_ge
  exact hc.expRom_mono _ _ (min_le_min_right _ (Nat.div_le_div_right h)) (lt_of_le_of_lt (min_le_right _ _) (by omega))

theorem decoded_le {c : Config} (hc : c.Valid) (x : Nat) : decoded c x ≤ c.expRom (c.logSize - 1) := by
  have h1 := hc.logSize_ge
  exact hc.expRom_mono _ _ (min_le_right _ _) (by omega)

/-! ### One sample -/

/-- What a sample can do in the linear states (R151). -/
theorem egRise_cases (c : Config) (after : EgState) (e : Eg) :
    (e.cur.toNat < e.fTl.toNat ∧ egRise c after e = ({ e with cur := e.cur + e.fAr }, (e.cur + e.fAr).toNat)) ∨
    (e.fTl.toNat ≤ e.cur.toNat ∧
      egRise c after e = ({ e with cur := levelCode c e.fTl.toNat, st := after }, e.fTl.toNat)) := by
  unfold egRise; split
  · exact .inl ⟨‹_›, rfl⟩
  · exact .inr ⟨by omega, rfl⟩

/-- What a sample can do in DECAY and DECAY_RELEASE (R152, R153). -/
theorem egFall_cases (c : Config) (x : BitVec 32) (after : EgState) (e : Eg) :
    (e.fSl.toNat + x.toNat < e.cur.toNat ∧
      egFall c x after e = ({ e with cur := e.cur - x }, decoded c (e.cur - x).toNat)) ∨
    (e.cur.toNat ≤ e.fSl.toNat + x.toNat ∧
      egFall c x after e =
        ({ e with cur := if e.cur ≤ e.fSl then e.cur else e.fSl, st := after },
          decoded c (min e.cur.toNat e.fSl.toNat))) := by
  unfold egFall; split
  · exact .inl ⟨‹_›, by simp [decodeLevel_eq]⟩
  · refine .inr ⟨by omega, ?_⟩
    simp only [decodeLevel_eq, BitVec.le_def]
    split
    · rw [min_eq_left ‹_›]
    · rw [min_eq_right (by omega)]

/-- What a sample can do in SASTAIN and SOUNDOFF (R154, R160). -/
theorem egFade_cases (c : Config) (x : BitVec 32) (e : Eg) :
    (x.toNat < e.cur.toNat ∧ 1 < decoded c (e.cur - x).toNat ∧
      egFade c x e = ({ e with cur := e.cur - x }, decoded c (e.cur - x).toNat)) ∨
    (x.toNat < e.cur.toNat ∧ decoded c (e.cur - x).toNat ≤ 1 ∧
      egFade c x e = ({ e with cur := e.cur - x, st := .finished }, 0)) ∨
    (e.cur.toNat ≤ x.toNat ∧ egFade c x e = ({ e with st := .finished }, 0)) := by
  unfold egFade
  simp only [decodeLevel_eq]
  split
  · split
    · exact .inl ⟨‹_›, ‹_›, rfl⟩
    · exact .inr (.inl ⟨‹_›, by omega, rfl⟩)
  · exact .inr (.inr ⟨by omega, rfl⟩)

/-- What a sample can do in RELEASE (R155). -/
theorem egReleaseArm_cases (c : Config) (e : Eg) :
    (e.fRr.toNat < e.cur.toNat ∧ decoded c (e.cur - e.fRr).toNat < c.soundoffLevel ∧
      egReleaseArm c e = ({ e with cur := e.cur - e.fRr, st := .soundoff }, decoded c (e.cur - e.fRr).toNat)) ∨
    (e.fRr.toNat < e.cur.toNat ∧ c.soundoffLevel ≤ decoded c (e.cur - e.fRr).toNat ∧
      egReleaseArm c e = ({ e with cur := e.cur - e.fRr }, decoded c (e.cur - e.fRr).toNat)) ∨
    (e.cur.toNat ≤ e.fRr.toNat ∧ egReleaseArm c e = ({ e with st := .finished }, 0)) := by
  unfold egReleaseArm
  simp only [decodeLevel_eq]
  split
  · split
    · exact .inl ⟨‹_›, ‹_›, rfl⟩
    · exact .inr (.inl ⟨‹_›, by omega, rfl⟩)
  · exact .inr (.inr ⟨by omega, rfl⟩)

theorem decayReleaseStep_toNat (e : Eg) : (decayReleaseStep e).toNat = max e.fDr.toNat e.fRr.toNat := by
  unfold decayReleaseStep
  simp only [BitVec.le_def]
  split <;> omega

theorem min_code_toNat (e : Eg) : (if e.cur ≤ e.fSl then e.cur else e.fSl).toNat = min e.cur.toNat e.fSl.toNat := by
  simp only [BitVec.le_def]
  split <;> omega

/-- A guarded subtraction does not underflow (10_state.md R37 (e)). -/
theorem sub_toNat {a b : BitVec 32} (h : b.toNat ≤ a.toNat) : (a - b).toNat = a.toNat - b.toNat :=
  BitVec.toNat_sub_of_le h

/-- R224 (a): a sample changes nothing but `ST` and `CUR`. -/
theorem egNext_frame (c : Config) (e : Eg) :
    (egNext c e).1 = { e with st := (egNext c e).1.st, cur := (egNext c e).1.cur } := by
  unfold egNext
  cases h : e.st <;> simp only []
  · rcases egRise_cases c .decay e with ⟨-, h1⟩ | ⟨-, h1⟩ <;> rw [h1]
  · rcases egFall_cases c e.fDr .sastain e with ⟨-, h1⟩ | ⟨-, h1⟩ <;> rw [h1]
  · rcases egFade_cases c e.fSr e with ⟨-, -, h1⟩ | ⟨-, -, h1⟩ | ⟨-, h1⟩ <;> rw [h1]
  · rcases egReleaseArm_cases c e with ⟨-, -, h1⟩ | ⟨-, -, h1⟩ | ⟨-, h1⟩ <;> rw [h1]
  · rcases egRise_cases c .decayRelease e with ⟨-, h1⟩ | ⟨-, h1⟩ <;> rw [h1]
  · rcases egFall_cases c (decayReleaseStep e) .release e with ⟨-, h1⟩ | ⟨-, h1⟩ <;> rw [h1]
  · rcases egFade_cases c e.fOr e with ⟨-, -, h1⟩ | ⟨-, -, h1⟩ | ⟨-, h1⟩ <;> rw [h1]

/-! ### The invariant of a unit -/

theorem egInv_reset (c : Config) : EgInv c Eg.reset :=
  ⟨by decide, .inl rfl, nofun⟩

theorem ne_reset_of_st {e : Eg} (h : e.st ≠ .finished) : e ≠ Eg.reset := fun he => h (by rw [he]; rfl)

theorem st_ne_finished {x : EgState} (h : linearState x = true) : x ≠ .finished := by rintro rfl; cases h

/-- In an attack the latched registers agree with the parameters. -/
theorem EgInv.latched {c : Config} {e : Eg} (h : EgInv c e) (hl : linearState e.st = true) : EgLatched c e :=
  h.2.1.resolve_left (ne_reset_of_st (st_ne_finished hl))

/-- R37 (d): a linear level does not wrap. -/
theorem EgInv.cur_le {c : Config} (hc : c.Valid) {e : Eg} (h : EgInv c e) (hl : linearState e.st = true) :
    e.cur.toNat ≤ 32766 + 2 ^ 30 := by
  have h1 := (h.latched hl).fTl_le hc
  have h2 := topAttackStep_le hc e
  have h3 := h.2.2 hl
  omega

theorem egInv_updateParams {c : Config} (hc : c.Valid) {e : Eg} (hh : e.hold.toNat ≤ 16129)
    (hl : linearState e.st = true → e.cur.toNat < c.tlRom e.tl + topAttackStep c e) : EgInv c (updateParams c e) := by
  have h := updateParams_latched hc e
  exact ⟨hh, .inr h, fun hx => by rw [h.2.2.2.2.2.1]; exact hl hx⟩

/-- `UpdateParams` after a change of control registers. -/
theorem EgInv.updateParams_control {c : Config} (hc : c.Valid) {e : Eg} (h : EgInv c e) {rate : BitVec 20} {hold : BitVec 15}
    {freeze : BitVec 7} (hh : hold.toNat ≤ 16129) :
    EgInv c (updateParams c { e with rate := rate, hold := hold, freeze := freeze }) :=
  egInv_updateParams hc hh fun hx => by
    have h1 := h.2.2 hx
    rw [(h.latched hx).2.2.2.2.2.1] at h1
    exact h1

theorem egInv_egInit {c : Config} (hc : c.Valid) (rar rdr rsr rrr : BitVec 6) (sl : BitVec 4) (tl : BitVec 7) (e : Eg) :
    EgInv c (egInit c rar rdr rsr rrr sl tl e) :=
  egInv_updateParams hc (by simp) fun _ =>
    Nat.lt_of_lt_of_le (hc.tlRom_range tl).1 (Nat.le_add_right _ _)

theorem egInv_egSetRate {c : Config} (hc : c.Valid) (r : BitVec 20) {e : Eg} (h : EgInv c e) : EgInv c (egSetRate c r e) :=
  h.updateParams_control hc (rate := r) h.1

theorem egInv_egSetFreeze {c : Config} (hc : c.Valid) (v : BitVec 7) {e : Eg} (h : EgInv c e) :
    EgInv c (egSetFreeze c v e) := h.updateParams_control hc (freeze := v) h.1

theorem egInv_egSetHold {c : Config} (hc : c.Valid) {n : BitVec 15} (hn : n.toNat ≤ 16129) {e : Eg} (h : EgInv c e) :
    EgInv c (egSetHold c n e) := h.updateParams_control hc (hold := n) hn

/-- A change of `ST` and `CUR` keeps the invariant unless the unit is as reset left it, if the level stays legal. -/
theorem egInv_with_level {c : Config} {e : Eg} (h : EgInv c e) (hr : e ≠ Eg.reset) (x : EgState) (v : BitVec 32)
    (hl : linearState x = true → v.toNat < e.fTl.toNat + topAttackStep c e) : EgInv c { e with st := x, cur := v } :=
  ⟨h.1, .inr (egLatched_with_level (h.2.1.resolve_left hr) x v), hl⟩

theorem egInv_egKeyOff {c : Config} {e : Eg} (h : EgInv c e) : EgInv c (egKeyOff e) := by
  unfold egKeyOff
  cases hs : e.st <;> simp only []
  · exact egInv_with_level h (ne_reset_of_st (by simp [hs])) .attackRelease e.cur (fun _ => h.2.2 (by simp [hs, linearState]))
  · exact egInv_with_level h (ne_reset_of_st (by simp [hs])) .decayRelease e.cur (by simp [linearState])
  · exact egInv_with_level h (ne_reset_of_st (by simp [hs])) .release e.cur (by simp [linearState])
  all_goals exact h

theorem egInv_egSoundOff {c : Config} {e : Eg} (h : EgInv c e) : EgInv c (egSoundOff c e) := by
  unfold egSoundOff
  cases hs : e.st <;> simp only []
  · exact egInv_with_level h (ne_reset_of_st (by simp [hs])) .soundoff _ (by simp [linearState])
  · exact egInv_with_level h (ne_reset_of_st (by simp [hs])) .soundoff e.cur (by simp [linearState])
  · exact egInv_with_level h (ne_reset_of_st (by simp [hs])) .soundoff e.cur (by simp [linearState])
  · exact egInv_with_level h (ne_reset_of_st (by simp [hs])) .soundoff e.cur (by simp [linearState])
  · exact egInv_with_level h (ne_reset_of_st (by simp [hs])) .soundoff _ (by simp [linearState])
  · exact egInv_with_level h (ne_reset_of_st (by simp [hs])) .soundoff e.cur (by simp [linearState])
  · exact egInv_with_level h (ne_reset_of_st (by simp [hs])) .soundoff e.cur (by simp [linearState])
  · exact h

/-- R37 (d): a rising sample does not wrap. -/
theorem rise_toNat {c : Config} (hc : c.Valid) {e : Eg} (h : EgLatched c e) (hlt : e.cur.toNat < e.fTl.toNat) :
    (e.cur + e.fAr).toNat = e.cur.toNat + e.fAr.toNat ∧ e.cur.toNat + e.fAr.toNat ≤ 32766 + 2 ^ 30 := by
  have h1 := h.fTl_le hc
  have h2 := h.fAr_le hc
  rw [BitVec.toNat_add]
  omega

/-- R37 (d): after a rising sample the level is below the peak plus the increment. -/
theorem rise_belowSum {c : Config} (hc : c.Valid) {e : Eg} (h : EgLatched c e) (hlt : e.cur.toNat < e.fTl.toNat) :
    (e.cur + e.fAr).toNat < e.fTl.toNat + e.fAr.toNat := by
  rw [(rise_toNat hc h hlt).1]; omega

/-- A sample that leaves a unit in a linear state is a rise (R151). -/
theorem egNext_linear {c : Config} {e : Eg} (h : linearState (egNext c e).1.st = true) :
    linearState e.st = true ∧ e.cur.toNat < e.fTl.toNat ∧ (egNext c e).1 = { e with cur := e.cur + e.fAr } := by
  unfold egNext at h ⊢
  cases hs : e.st <;> simp only [hs] at h ⊢
  · rcases egRise_cases c .decay e with ⟨h1, h2⟩ | ⟨-, h2⟩ <;> rw [h2] at h ⊢
    · exact ⟨rfl, h1, by simp [hs]⟩
    · cases h
  · rcases egFall_cases c e.fDr .sastain e with ⟨-, h2⟩ | ⟨-, h2⟩ <;> rw [h2] at h <;> simp [linearState, hs] at h
  · rcases egFade_cases c e.fSr e with ⟨-, -, h2⟩ | ⟨-, -, h2⟩ | ⟨-, h2⟩ <;> rw [h2] at h <;> simp [linearState, hs] at h
  · rcases egReleaseArm_cases c e with ⟨-, -, h2⟩ | ⟨-, -, h2⟩ | ⟨-, h2⟩ <;> rw [h2] at h <;> simp [linearState, hs] at h
  · rcases egRise_cases c .decayRelease e with ⟨h1, h2⟩ | ⟨-, h2⟩ <;> rw [h2] at h ⊢
    · exact ⟨rfl, h1, by simp [hs]⟩
    · cases h
  · rcases egFall_cases c (decayReleaseStep e) .release e with ⟨-, h2⟩ | ⟨-, h2⟩ <;> rw [h2] at h <;> simp [linearState, hs] at h
  · rcases egFade_cases c e.fOr e with ⟨-, -, h2⟩ | ⟨-, -, h2⟩ | ⟨-, h2⟩ <;> rw [h2] at h <;> simp [linearState, hs] at h
  · simp [linearState] at h

/-! ### R37 (d) word for word -/

theorem attackBelowSum_egNext {c : Config} (hc : c.Valid) {e : Eg} (h : EgInv c e) :
    AttackBelowSum (egNext c e).1 := by
  intro hl
  obtain ⟨h1, h2, h3⟩ := egNext_linear hl
  rw [h3]
  exact rise_belowSum hc (h.latched h1) h2

theorem attackBelowSum_egKeyOff {e : Eg} (hb : AttackBelowSum e) : AttackBelowSum (egKeyOff e) := by
  unfold egKeyOff
  cases hs : e.st <;> simp only []
  · exact fun _ => hb (by simp [hs, linearState])
  · exact nofun
  · exact nofun
  all_goals exact hb

/-- No linear state is left after a sound-off (R156). -/
theorem linearState_egSoundOff (c : Config) (e : Eg) : linearState (egSoundOff c e).st = false := by
  unfold egSoundOff; cases hs : e.st <;> simp [hs, linearState]

theorem attackBelowSum_egSoundOff {c : Config} {e : Eg} : AttackBelowSum (egSoundOff c e) := fun h => by
  rw [linearState_egSoundOff] at h; cases h

/-- A sample keeps the invariant (R37). -/
theorem egInv_egNext {c : Config} (hc : c.Valid) {e : Eg} (h : EgInv c e) : EgInv c (egNext c e).1 := by
  by_cases hf : e.st = .finished
  · simpa [egNext, hf] using h
  rw [egNext_frame]
  refine egInv_with_level h (ne_reset_of_st hf) _ _ fun hl => ?_
  obtain ⟨h1, h2, h3⟩ := egNext_linear hl
  have hlat := h.latched h1
  rw [h3]
  exact (rise_belowSum hc hlat h2).trans_le (Nat.add_le_add_left (hlat.fAr_le_top hc) _)

end Sys2Proof.Machine
end

