-- ==== Sys2Proof/Laws/Ops.lean ====
section
/-! SUPPORT. The operations shared by the meanings, each said once through the reads of a state: a change of one envelope unit, a change
of all four operators, the oscillator procedures on a unit, and the two procedures that tune and construct an operator. -/

namespace Sys2Proof.Machine

open Sys2Proof

/-! ### One envelope unit -/

@[simp] theorem egAt_onEg (e f : OpId) (g : Eg → Eg) (s : State) :
    (onEg e g s).egAt f = if f = e then g (s.egAt f) else s.egAt f := by
  unfold onEg; rw [egAt_setEg]; split
  · subst_vars; rfl
  · rfl

@[simp] theorem osc_onEg (e : OpId) (g : Eg → Eg) (s : State) : (onEg e g s).osc = s.osc := by simp [onEg]
@[simp] theorem oscAt_onEg (e : OpId) (g : Eg → Eg) (s : State) (u : OscId) : (onEg e g s).oscAt u = s.oscAt u := by simp [onEg]
@[simp] theorem op_onEg (e : OpId) (g : Eg → Eg) (s : State) : (onEg e g s).op = s.op := by simp [onEg]
@[simp] theorem opAt_onEg (e : OpId) (g : Eg → Eg) (s : State) (o : OpId) : (onEg e g s).opAt o = s.opAt o := by simp [onEg]
@[simp] theorem sg_onEg (e : OpId) (g : Eg → Eg) (s : State) : (onEg e g s).sg = s.sg := by simp [onEg]
@[simp] theorem rsp_onEg (e : OpId) (g : Eg → Eg) (s : State) : (onEg e g s).rsp = s.rsp := by simp [onEg]
@[simp] theorem host_onEg (e : OpId) (g : Eg → Eg) (s : State) : (onEg e g s).host = s.host := by simp [onEg]
@[simp] theorem cfg_onEg (e : OpId) (g : Eg → Eg) (s : State) : (onEg e g s).cfg = s.cfg := by simp [onEg]
@[simp] theorem config_onEg (e : OpId) (g : Eg → Eg) (s : State) : (onEg e g s).config = s.config := by simp [onEg]

/-! ### All four operators -/

/-- What every change keeps, all four changes keep. -/
theorem forAllOps_keeps {α : Type} (r : State → α) {f : OpId → State → State} (h : ∀ o s, r (f o s) = r s) (s : State) :
    r (forAllOps f s) = r s := by
  unfold forAllOps; rw [h, h, h, h]

/-- The same change of each operator's envelope changes each of the four. -/
theorem egAt_forAllOps {f : OpId → State → State} {g : Eg → Eg}
    (h : ∀ o e s, (f o s).egAt e = if e = o then g (s.egAt e) else s.egAt e) (s : State) (e : OpId) :
    (forAllOps f s).egAt e = g (s.egAt e) := by
  unfold forAllOps; cases e <;> simp [h]

/-- A change of each operator's oscillator, which may depend on what the changes keep, changes each of the four. -/
theorem oscAt_forAllOps {f : OpId → State → State} {g : OpId → State → Osc → Osc}
    (h : ∀ o u s, (f o s).oscAt u = if u = o.osc then g o s (s.oscAt u) else s.oscAt u)
    (hg : ∀ o p s, g o (f p s) = g o s) (s : State) (o : OpId) :
    (forAllOps f s).oscAt o.osc = g o s (s.oscAt o.osc) := by
  unfold forAllOps; cases o <;> simp [h, hg]

/-- A change of the operators' oscillators leaves the LFOs alone. -/
theorem oscAt_forAllOps_lfo {f : OpId → State → State} {u : OscId}
    (h : ∀ o s, (f o s).oscAt u = s.oscAt u) (s : State) : (forAllOps f s).oscAt u = s.oscAt u :=
  forAllOps_keeps (fun s => s.oscAt u) h s

/-! ### Reset -/

@[simp] theorem oscAt_resetRegisters (s : State) (u : OscId) : (resetRegisters s).oscAt u = { pos := 0, step := 0 } := by
  cases u <;> rfl
@[simp] theorem egAt_resetRegisters (s : State) (e : OpId) : (resetRegisters s).egAt e = Eg.reset := by cases e <;> rfl
@[simp] theorem opAt_resetRegisters (s : State) (o : OpId) : (resetRegisters s).opAt o = OpRegs.reset := by cases o <;> rfl
@[simp] theorem sg_resetRegisters (s : State) : (resetRegisters s).sg = SgRegs.reset := rfl
@[simp] theorem rsp_resetRegisters (s : State) : (resetRegisters s).rsp = s.rsp := rfl
@[simp] theorem host_resetRegisters (s : State) : (resetRegisters s).host = s.host := rfl
@[simp] theorem cfg_resetRegisters (s : State) : (resetRegisters s).cfg = s.cfg := rfl
@[simp] theorem config_resetRegisters (s : State) : (resetRegisters s).config = s.config := rfl

/-! ### The operator procedures -/

/-- Every procedure that changes one oscillator is one write of it. -/
theorem oscSetCycleAt_eq (u : OscId) (c : ℚ) (s : State) :
    oscSetCycleAt u c s = s.setOsc u (oscSetCycle s.config c (s.oscAt u)) := rfl

theorem lfoSetFreq_eq (u : OscId) (f : ℚ) (s : State) :
    lfoSetFreq u f s = s.setOsc u (oscSetCycle s.config (cycleOf f s.sg.sgRate) (s.oscAt u)) := rfl

theorem oscAddPhAt_eq (u : OscId) (x : Int) (s : State) : oscAddPhAt u x s = s.setOsc u (oscAddPh x (s.oscAt u)) := rfl

theorem oscNextAt_eq (u : OscId) (s : State) :
    oscNextAt u s = (s.setOsc u (oscAdvance (s.oscAt u)), (oscNext s.config (s.oscAt u)).2) := rfl

/-- `OpSetFreqRate` (42_operator.md R183) writes the operator's oscillator and its envelope. -/
theorem opSetFreqRateAt_eq (o : OpId) (f : ℚ) (rate : BitVec 20) (s : State) :
    opSetFreqRateAt o f rate s =
      (s.setOsc o.osc (oscSetCycle s.config (cycleOf (effectiveFreq s.config (s.opAt o) f) rate) (s.oscAt o.osc))).setEg o
        (egSetRate s.config rate (s.egAt o)) := by
  simp [opSetFreqRateAt, oscSetCycleAt, onEg]

/-- `OpInit` (42_operator.md R180) writes the operator's registers, its oscillator and its envelope. -/
theorem opInitAt_eq (o : OpId) (p : OpParams) (key : BitVec 7) (s : State) :
    opInitAt o p key s =
      ((s.setOp o { ks := p.ks, ml := p.ml, dt := p.dt, ams := p.ams, key := key }).setOsc o.osc { pos := 0, step := 0 }).setEg o
        (egInit s.config (scaledRate p.ar (s.config.keyscaleRom p.ks key)) (scaledRate p.dr (s.config.keyscaleRom p.ks key))
          (scaledRate p.sr (s.config.keyscaleRom p.ks key)) (scaledRelease p.rr (s.config.keyscaleRom p.ks key)) p.sl p.tl
          (s.egAt o)) := by
  simp [opInitAt, onEg]

/-! ### One sample of an operator -/

/-- The state after a sample of operator `o`, whichever of its three forms took it (42_operator.md R190 (a)). -/
def sampledState (o : OpId) (s : State) : State :=
  (s.setOsc o.osc (oscAdvance (s.oscAt o.osc))).setEg o (egNext s.config (s.egAt o)).1

/-- The oscillator sample times the level, shifted (R184, R185). -/
def sampledProduct (o : OpId) (mod : Int) (s : State) : Int :=
  opOutput (oscNextM s.config mod (s.oscAt o.osc)).2 (egNext s.config (s.egAt o)).2

theorem opNextMAt_eq (o : OpId) (mod : Int) (s : State) : opNextMAt o mod s = (sampledState o s, sampledProduct o mod s) := by
  simp [opNextMAt, oscNextMAt, egNextAt, sampledState, sampledProduct, oscNextM]

theorem opNextAt_eq (o : OpId) (s : State) :
    opNextAt o s =
      (sampledState o s, opOutput (oscNext s.config (s.oscAt o.osc)).2 (egNext s.config (s.egAt o)).2) := by
  simp [opNextAt, oscNextAt, egNextAt, sampledState, oscNext]

theorem opNextAmAt_eq (o : OpId) (am mod : Int) (s : State) :
    opNextAmAt o am mod s =
      (sampledState o s, asr (sampledProduct o mod s * amGain s.config (s.opAt o) am) 15) := by
  simp [opNextAmAt, opNextMAt_eq]

/-- The value `f(OPn, m)` of 43_soundgen.md R210. -/
def sampledValue (am : Option Int) (o : OpId) (mod : Int) (s : State) : Int :=
  match am with
  | some a => asr (sampledProduct o mod s * amGain s.config (s.opAt o) a) 15
  | none => sampledProduct o mod s

theorem sampleOp_eq (am : Option Int) (o : OpId) (mod : Int) (s : State) :
    sampleOp am o mod s = (sampledState o s, sampledValue am o mod s) := by
  cases am
  · simp [sampleOp, opNextMAt_eq, sampledValue]
  · simp [sampleOp, opNextAmAt_eq, sampledValue]

@[simp] theorem oscAt_sampledState (o : OpId) (s : State) (u : OscId) :
    (sampledState o s).oscAt u = if u = o.osc then oscAdvance (s.oscAt u) else s.oscAt u := by
  simp only [sampledState, oscAt_setEg, oscAt_setOsc]; split
  · subst_vars; rfl
  · rfl

@[simp] theorem egAt_sampledState (o : OpId) (s : State) (e : OpId) :
    (sampledState o s).egAt e = if e = o then (egNext s.config (s.egAt e)).1 else s.egAt e := by
  simp only [sampledState, egAt_setEg, egAt_setOsc]; split
  · subst_vars; rfl
  · rfl

@[simp] theorem op_sampledState (o : OpId) (s : State) : (sampledState o s).op = s.op := by simp [sampledState]
@[simp] theorem opAt_sampledState (o : OpId) (s : State) (p : OpId) : (sampledState o s).opAt p = s.opAt p := by
  simp [sampledState]
@[simp] theorem sg_sampledState (o : OpId) (s : State) : (sampledState o s).sg = s.sg := by simp [sampledState]
@[simp] theorem rsp_sampledState (o : OpId) (s : State) : (sampledState o s).rsp = s.rsp := by simp [sampledState]
@[simp] theorem host_sampledState (o : OpId) (s : State) : (sampledState o s).host = s.host := by simp [sampledState]
@[simp] theorem cfg_sampledState (o : OpId) (s : State) : (sampledState o s).cfg = s.cfg := by simp [sampledState]
@[simp] theorem config_sampledState (o : OpId) (s : State) : (sampledState o s).config = s.config := by simp [sampledState]

/-- An operator's value depends on its own units alone (42_operator.md R190 (c)). -/
theorem sampledValue_congr {am : Option Int} {o : OpId} {mod : Int} {s t : State} (hc : s.config = t.config)
    (ho : s.oscAt o.osc = t.oscAt o.osc) (he : s.egAt o = t.egAt o) (hp : s.opAt o = t.opAt o) :
    sampledValue am o mod s = sampledValue am o mod t := by
  cases am <;> simp [sampledValue, sampledProduct, hc, ho, he, hp]

end Sys2Proof.Machine
end

