-- ==== Sys2Proof/Laws/Voice.lean ====
section
/-! SUPPORT. The four parts of `SG.NEXT`, each said once (43_soundgen.md R209 to R213): what each leaves in every unit and which value it
yields, with no state threaded through. -/

namespace Sys2Proof.Machine

open Sys2Proof

/-! ### Vibrato (R209) -/

/-- The offset fed to the operators while vibrato is active. -/
def vibOffset (s : State) : Int :=
  s.config.vibRom (vibDeviation (oscNext s.config (s.oscAt .lfoVib)).2 s.sg.vibDepth)

theorem vibratoStep_off {s : State} (h : s.sg.vibDepth = 0) : vibratoStep s = s := by simp [vibratoStep, h]

theorem vibratoStep_on {s : State} (h : s.sg.vibDepth ≠ 0) :
    vibratoStep s = forAllOps (fun o => oscAddPhAt o.osc (vibOffset s)) (s.setOsc .lfoVib (oscAdvance (s.oscAt .lfoVib))) := by
  simp only [vibratoStep, h, if_false, oscNextAt_eq]; rfl

theorem vibratoStep_keeps {α : Type} (r : State → α) (hr : ∀ s u o, r (State.setOsc s u o) = r s) (s : State) :
    r (vibratoStep s) = r s := by
  by_cases h : s.sg.vibDepth = 0
  · rw [vibratoStep_off h]
  · rw [vibratoStep_on h, forAllOps_keeps r (fun o t => by rw [oscAddPhAt_eq, hr]), hr]

@[simp] theorem eg_vibratoStep (s : State) : (vibratoStep s).eg = s.eg := vibratoStep_keeps _ (by simp) s
@[simp] theorem egAt_vibratoStep (s : State) (e : OpId) : (vibratoStep s).egAt e = s.egAt e :=
  vibratoStep_keeps (fun s => s.egAt e) (by simp) s
@[simp] theorem op_vibratoStep (s : State) : (vibratoStep s).op = s.op := vibratoStep_keeps _ (by simp) s
@[simp] theorem opAt_vibratoStep (s : State) (o : OpId) : (vibratoStep s).opAt o = s.opAt o :=
  vibratoStep_keeps (fun s => s.opAt o) (by simp) s
@[simp] theorem sg_vibratoStep (s : State) : (vibratoStep s).sg = s.sg := vibratoStep_keeps _ (by simp) s
@[simp] theorem host_vibratoStep (s : State) : (vibratoStep s).host = s.host := vibratoStep_keeps _ (by simp) s
@[simp] theorem cfg_vibratoStep (s : State) : (vibratoStep s).cfg = s.cfg := vibratoStep_keeps _ (by simp) s
@[simp] theorem config_vibratoStep (s : State) : (vibratoStep s).config = s.config := vibratoStep_keeps _ (by simp) s

theorem oscAt_vibratoStep_op (s : State) (o : OpId) :
    (vibratoStep s).oscAt o.osc =
      if s.sg.vibDepth = 0 then s.oscAt o.osc else oscAddPh (vibOffset s) (s.oscAt o.osc) := by
  split
  · rw [vibratoStep_off ‹_›]
  · rw [vibratoStep_on ‹_›,
      oscAt_forAllOps (g := fun _ _ => oscAddPh (vibOffset s))
        (fun o u t => by rw [oscAddPhAt_eq, oscAt_setOsc]; split <;> simp_all) (fun _ _ _ => rfl)]
    simp

theorem oscAt_vibratoStep_vib (s : State) :
    (vibratoStep s).oscAt .lfoVib = if s.sg.vibDepth = 0 then s.oscAt .lfoVib else oscAdvance (s.oscAt .lfoVib) := by
  split
  · rw [vibratoStep_off ‹_›]
  · rw [vibratoStep_on ‹_›, oscAt_forAllOps_lfo (fun o t => by rw [oscAddPhAt_eq, oscAt_setOsc]; simp)]
    simp

theorem oscAt_vibratoStep_lfo (s : State) {u : OscId} (h : u = .lfoAm ∨ u = .lfoTrm) :
    (vibratoStep s).oscAt u = s.oscAt u := by
  by_cases hv : s.sg.vibDepth = 0
  · rw [vibratoStep_off hv]
  · rw [vibratoStep_on hv,
      oscAt_forAllOps_lfo (fun o t => by rw [oscAddPhAt_eq, oscAt_setOsc]; rcases h with rfl | rfl <;> simp)]
    rcases h with rfl | rfl <;> simp

/-! ### Amplitude modulation (R210) -/

/-- The value passed to every operator while AM is enabled. -/
def amValue (s : State) : Option Int :=
  if amEnabled s then some (asr (oscNext s.config (s.oscAt .lfoAm)).2 7) else none

theorem amStep_eq (s : State) :
    amStep s = (if amEnabled s then s.setOsc .lfoAm (oscAdvance (s.oscAt .lfoAm)) else s, amValue s) := by
  unfold amStep amValue; split <;> simp [oscNextAt_eq]

/-- `AMEN` is a function of the four `AMS` registers (10_state.md R33). -/
theorem amEnabled_iff (s : State) : amEnabled s = true ↔ ∃ o, (s.opAt o).ams ≠ 0 := by
  simp only [amEnabled, Bool.or_eq_true, bne_iff_ne, ne_eq]
  constructor
  · rintro (((h | h) | h) | h) <;> exact ⟨_, h⟩
  · rintro ⟨o, h⟩; cases o
    · exact .inl (.inl (.inl h))
    · exact .inl (.inl (.inr h))
    · exact .inl (.inr h)
    · exact .inr h

theorem amEnabled_congr {s t : State} (h : ∀ o, (s.opAt o).ams = (t.opAt o).ams) : amEnabled s = amEnabled t := by
  simp [amEnabled, h]

@[simp] theorem eg_amStep (s : State) : (amStep s).1.eg = s.eg := by rw [amStep_eq]; split <;> simp
@[simp] theorem egAt_amStep (s : State) (e : OpId) : (amStep s).1.egAt e = s.egAt e := by rw [amStep_eq]; split <;> simp
@[simp] theorem op_amStep (s : State) : (amStep s).1.op = s.op := by rw [amStep_eq]; split <;> simp
@[simp] theorem opAt_amStep (s : State) (o : OpId) : (amStep s).1.opAt o = s.opAt o := by rw [amStep_eq]; split <;> simp
@[simp] theorem sg_amStep (s : State) : (amStep s).1.sg = s.sg := by rw [amStep_eq]; split <;> simp
@[simp] theorem host_amStep (s : State) : (amStep s).1.host = s.host := by rw [amStep_eq]; split <;> simp
@[simp] theorem cfg_amStep (s : State) : (amStep s).1.cfg = s.cfg := by rw [amStep_eq]; split <;> simp
@[simp] theorem config_amStep (s : State) : (amStep s).1.config = s.config := by rw [amStep_eq]; split <;> simp

@[simp] theorem oscAt_amStep (s : State) (u : OscId) :
    (amStep s).1.oscAt u = if u = .lfoAm ∧ amEnabled s = true then oscAdvance (s.oscAt u) else s.oscAt u := by
  rw [amStep_eq]
  by_cases h : amEnabled s = true <;> by_cases hu : u = .lfoAm <;> simp [h, hu]

/-! ### The algorithm (R211) -/

/-- OP1's output. -/
def algOut1 (am : Option Int) (s : State) : Int := sampledValue am .op1 (feedbackValue s) s

/-- OP2's output. -/
def algOut2 (am : Option Int) (s : State) : Int :=
  sampledValue am .op2 (sumOver (algRow s).m2 (algOut1 am s) 0 0 0) s

/-- OP3's output. -/
def algOut3 (am : Option Int) (s : State) : Int :=
  sampledValue am .op3 (sumOver (algRow s).m3 (algOut1 am s) (algOut2 am s) 0 0) s

/-- OP4's output. -/
def algOut4 (am : Option Int) (s : State) : Int :=
  sampledValue am .op4 (sumOver (algRow s).m4 (algOut1 am s) (algOut2 am s) (algOut3 am s) 0) s

/-- The carriers' sum. -/
def algSum (am : Option Int) (s : State) : Int :=
  sumOver (algRow s).c (algOut1 am s) (algOut2 am s) (algOut3 am s) (algOut4 am s)

/-- The state after the four operators are sampled and `FBREG` is written. -/
def algState (am : Option Int) (s : State) : State :=
  let s1 := (sampledState .op1 s).setSg { s.sg with fbReg := u32 (algOut1 am s) }
  sampledState .op4 (sampledState .op3 (sampledState .op2 s1))

/-- The operators share no state, so each is sampled as it stood before the sample (R212). -/
theorem algorithmStep_eq (am : Option Int) (s : State) : algorithmStep am s = (algState am s, algSum am s) := by
  have h2 : ∀ m, sampledValue am .op2 m
      ((sampledState .op1 s).setSg { s.sg with fbReg := u32 (algOut1 am s) }) = sampledValue am .op2 m s :=
    fun m => sampledValue_congr (by simp) (by simp) (by simp) (by simp)
  have h3 : ∀ m, sampledValue am .op3 m (sampledState .op2
      ((sampledState .op1 s).setSg { s.sg with fbReg := u32 (algOut1 am s) })) = sampledValue am .op3 m s :=
    fun m => sampledValue_congr (by simp) (by simp) (by simp) (by simp)
  have h4 : ∀ m, sampledValue am .op4 m (sampledState .op3 (sampledState .op2
      ((sampledState .op1 s).setSg { s.sg with fbReg := u32 (algOut1 am s) }))) = sampledValue am .op4 m s :=
    fun m => sampledValue_congr (by simp) (by simp) (by simp) (by simp)
  simp only [algorithmStep, sampleOp_eq, sg_sampledState]
  have e1 : sampledValue am .op1 (feedbackValue s) s = algOut1 am s := rfl
  have e2 : sampledValue am .op2 (sumOver (algRow s).m2 (algOut1 am s) 0 0 0) s = algOut2 am s := rfl
  have e3 : sampledValue am .op3 (sumOver (algRow s).m3 (algOut1 am s) (algOut2 am s) 0 0) s = algOut3 am s := rfl
  have e4 : sampledValue am .op4 (sumOver (algRow s).m4 (algOut1 am s) (algOut2 am s) (algOut3 am s) 0) s = algOut4 am s := rfl
  simp only [e1, h2, e2, h3, e3, h4, e4]
  rfl

@[simp] theorem oscAt_algState_op (am : Option Int) (s : State) (o : OpId) :
    (algState am s).oscAt o.osc = oscAdvance (s.oscAt o.osc) := by cases o <;> simp [algState]

@[simp] theorem oscAt_algState_am (am : Option Int) (s : State) : (algState am s).oscAt .lfoAm = s.oscAt .lfoAm := by
  simp [algState]

@[simp] theorem oscAt_algState_vib (am : Option Int) (s : State) : (algState am s).oscAt .lfoVib = s.oscAt .lfoVib := by
  simp [algState]

@[simp] theorem oscAt_algState_trm (am : Option Int) (s : State) : (algState am s).oscAt .lfoTrm = s.oscAt .lfoTrm := by
  simp [algState]

@[simp] theorem egAt_algState (am : Option Int) (s : State) (e : OpId) :
    (algState am s).egAt e = (egNext s.config (s.egAt e)).1 := by cases e <;> simp [algState]

@[simp] theorem op_algState (am : Option Int) (s : State) : (algState am s).op = s.op := by simp [algState]
@[simp] theorem opAt_algState (am : Option Int) (s : State) (o : OpId) : (algState am s).opAt o = s.opAt o := by simp [algState]
@[simp] theorem sg_algState (am : Option Int) (s : State) : (algState am s).sg = { s.sg with fbReg := u32 (algOut1 am s) } := by
  simp [algState]
@[simp] theorem host_algState (am : Option Int) (s : State) : (algState am s).host = s.host := by simp [algState]
@[simp] theorem cfg_algState (am : Option Int) (s : State) : (algState am s).cfg = s.cfg := by simp [algState]
@[simp] theorem config_algState (am : Option Int) (s : State) : (algState am s).config = s.config := by simp [algState]

/-! ### Tremolo (R213) -/

theorem tremoloStep_eq (s : State) (ret : Int) :
    tremoloStep s ret =
      if s.sg.trmDepth = 0 then (s, ret)
      else (s.setOsc .lfoTrm (oscAdvance (s.oscAt .lfoTrm)),
        asr (ret * trmGain (oscNext s.config (s.oscAt .lfoTrm)).2 s.sg.trmDepth) 12) := rfl

@[simp] theorem eg_tremoloStep (s : State) (r : Int) : (tremoloStep s r).1.eg = s.eg := by rw [tremoloStep_eq]; split <;> simp
@[simp] theorem egAt_tremoloStep (s : State) (r : Int) (e : OpId) : (tremoloStep s r).1.egAt e = s.egAt e := by
  rw [tremoloStep_eq]; split <;> simp
@[simp] theorem op_tremoloStep (s : State) (r : Int) : (tremoloStep s r).1.op = s.op := by rw [tremoloStep_eq]; split <;> simp
@[simp] theorem opAt_tremoloStep (s : State) (r : Int) (o : OpId) : (tremoloStep s r).1.opAt o = s.opAt o := by
  rw [tremoloStep_eq]; split <;> simp
@[simp] theorem sg_tremoloStep (s : State) (r : Int) : (tremoloStep s r).1.sg = s.sg := by rw [tremoloStep_eq]; split <;> simp
@[simp] theorem host_tremoloStep (s : State) (r : Int) : (tremoloStep s r).1.host = s.host := by
  rw [tremoloStep_eq]; split <;> simp
@[simp] theorem cfg_tremoloStep (s : State) (r : Int) : (tremoloStep s r).1.cfg = s.cfg := by rw [tremoloStep_eq]; split <;> simp
@[simp] theorem oscAt_tremoloStep (s : State) (r : Int) (u : OscId) :
    (tremoloStep s r).1.oscAt u = if u = .lfoTrm ∧ s.sg.trmDepth ≠ 0 then oscAdvance (s.oscAt u) else s.oscAt u := by
  rw [tremoloStep_eq]
  by_cases h : s.sg.trmDepth = 0
  · rw [if_pos h, if_neg (fun hu => hu.2 h)]
  · rw [if_neg h, oscAt_setOsc]
    by_cases hu : u = .lfoTrm
    · rw [if_pos hu, if_pos ⟨hu, h⟩, hu]
    · rw [if_neg hu, if_neg (fun hc => hu hc.1)]

/-! ### The whole sample (R211) -/

/-- The state before the algorithm: vibrato and the AM LFO have had their turn. -/
def preSample (s : State) : State := (amStep (vibratoStep s)).1

theorem sgNextSample_eq (s : State) :
    sgNextSample s =
      tremoloStep (algState (amValue (vibratoStep s)) (preSample s)) (algSum (amValue (vibratoStep s)) (preSample s)) := by
  simp only [sgNextSample, algorithmStep_eq, preSample]
  rw [amStep_eq]

@[simp] theorem egAt_preSample (s : State) (e : OpId) : (preSample s).egAt e = s.egAt e := by simp [preSample]
@[simp] theorem op_preSample (s : State) : (preSample s).op = s.op := by simp [preSample]
@[simp] theorem opAt_preSample (s : State) (o : OpId) : (preSample s).opAt o = s.opAt o := by simp [preSample]
@[simp] theorem sg_preSample (s : State) : (preSample s).sg = s.sg := by simp [preSample]
@[simp] theorem host_preSample (s : State) : (preSample s).host = s.host := by simp [preSample]
@[simp] theorem cfg_preSample (s : State) : (preSample s).cfg = s.cfg := by simp [preSample]
@[simp] theorem config_preSample (s : State) : (preSample s).config = s.config := by simp [preSample]

@[simp] theorem egAt_sgNextSample (s : State) (e : OpId) :
    (sgNextSample s).1.egAt e = (egNext s.config (s.egAt e)).1 := by simp [sgNextSample_eq]
@[simp] theorem op_sgNextSample (s : State) : (sgNextSample s).1.op = s.op := by simp [sgNextSample_eq]
@[simp] theorem opAt_sgNextSample (s : State) (o : OpId) : (sgNextSample s).1.opAt o = s.opAt o := by simp [sgNextSample_eq]
@[simp] theorem host_sgNextSample (s : State) : (sgNextSample s).1.host = s.host := by simp [sgNextSample_eq]
@[simp] theorem cfg_sgNextSample (s : State) : (sgNextSample s).1.cfg = s.cfg := by simp [sgNextSample_eq]

@[simp] theorem sg_sgNextSample (s : State) :
    (sgNextSample s).1.sg = { s.sg with fbReg := u32 (algOut1 (amValue (vibratoStep s)) (preSample s)) } := by
  simp [sgNextSample_eq]

end Sys2Proof.Machine
end

