-- ==== Sys2Proof/Laws/Exec.lean ====
section
/-! SUPPORT. Said once, what a command can do to an envelope unit, and what it keeps of everything that is no register: the lemmas from
which the transition table (41_envelope.md R162), its consequences and the invariant (10_state.md R37) follow. -/

namespace Sys2Proof.Machine

open Sys2Proof

/-- What command `i` can make of envelope unit `e`, which holds `x`: nothing; a sample, a key-off, a sound-off, a construction or a
reset; or a change of control registers, `RATE` only if the command sets it, followed by `UpdateParams`. -/
inductive EgChange (c : Config) (i : Instr) (e : OpId) (x : Eg) : Eg → Prop where
  | keep (ha : advances i e = false) (hk : keysOff i e = false) (hs : soundsOff i e = false) (hc : constructs i e = false)
      (hr : i ≠ .sgReset) : EgChange c i e x x
  | advance (ha : advances i e = true) : EgChange c i e x (egNext c x).1
  | keyOff (hk : keysOff i e = true) : EgChange c i e x (egKeyOff x)
  | soundOff (hs : soundsOff i e = true) : EgChange c i e x (egSoundOff c x)
  | construct (hc : constructs i e = true) (rar rdr rsr rrr : BitVec 6) (sl : BitVec 4) (tl : BitVec 7) :
      EgChange c i e x (egInit c rar rdr rsr rrr sl tl x)
  | reset (hr : i = .sgReset) : EgChange c i e x Eg.reset
  | control (ha : advances i e = false) (hk : keysOff i e = false) (hs : soundsOff i e = false) (hc : constructs i e = false)
      (hr : i ≠ .sgReset) (y : Eg) (hy : y = { x with rate := y.rate, hold := y.hold, freeze := y.freeze })
      (hh : x.hold.toNat ≤ 16129 → y.hold.toNat ≤ 16129) (hq : setsRate i e = false → y.rate = x.rate) :
      EgChange c i e x (updateParams c y)

theorem holdNumerator_toNat (d v : BitVec 7) :
    (holdNumerator d v).toNat = 16129 - (127 - d.toNat) * (127 - v.toNat) := by
  have : 16129 - (127 - d.toNat) * (127 - v.toNat) < 2 ^ 15 := by omega
  simpa [holdNumerator] using this

theorem egAt_sgHold (s : State) (e : OpId) :
    (sgHold s).egAt e = egSetHold s.config (holdNumerator s.sg.damper s.sg.sost) (s.egAt e) :=
  egAt_forAllOps (fun o e' t => by simp) s e

/-- `SgHold` writes envelopes only. -/
theorem sgHold_keeps {α : Type} (r : State → α) (hr : ∀ s e v, r (State.setEg s e v) = r s) (s : State) : r (sgHold s) = r s :=
  forAllOps_keeps r (fun o t => hr t o _) s

@[simp] theorem osc_sgHold (s : State) : (sgHold s).osc = s.osc := sgHold_keeps (fun s => s.osc) (by simp) s
@[simp] theorem oscAt_sgHold (s : State) (u : OscId) : (sgHold s).oscAt u = s.oscAt u := sgHold_keeps (fun s => s.oscAt u) (by simp) s
@[simp] theorem op_sgHold (s : State) : (sgHold s).op = s.op := sgHold_keeps (fun s => s.op) (by simp) s
@[simp] theorem sg_sgHold (s : State) : (sgHold s).sg = s.sg := sgHold_keeps (fun s => s.sg) (by simp) s

/-- The config of a state is carried along by the tuning of its operators. -/
theorem egAt_forAllOps_tune (f : ℚ) (rate : BitVec 20) (s : State) (e : OpId) :
    (forAllOps (fun o => opSetFreqRateAt o f rate) s).egAt e = egSetRate s.config rate (s.egAt e) := by
  unfold forAllOps
  cases e <;> simp [opSetFreqRateAt_eq]

theorem config_forAllOps_tune (f : ℚ) (rate : BitVec 20) (s : State) :
    (forAllOps (fun o => opSetFreqRateAt o f rate) s).config = s.config :=
  forAllOps_keeps _ (fun o t => by simp [opSetFreqRateAt_eq]) s

theorem sg_forAllOps_tune (f : ℚ) (rate : BitVec 20) (s : State) :
    (forAllOps (fun o => opSetFreqRateAt o f rate) s).sg = s.sg :=
  forAllOps_keeps _ (fun o t => by simp [opSetFreqRateAt_eq]) s

theorem egAt_sgSetFreq (f : ℚ) (rate : BitVec 20) (s : State) (e : OpId) :
    (sgSetFreq f rate s).egAt e = egSetRate s.config rate (s.egAt e) := by
  simp [sgSetFreq, lfoSetFreq_eq, egAt_forAllOps_tune]

/-- A meaning that writes envelope unit `u` alone changes unit `e` only if it is that one. -/
theorem EgChange.of_unit {c : Config} {i : Instr} {e u : OpId} {x : Eg} {y : Eg}
    (hu : e = u → EgChange c i e x y)
    (hne : e ≠ u → advances i e = false ∧ keysOff i e = false ∧ soundsOff i e = false ∧ constructs i e = false ∧ i ≠ .sgReset) :
    EgChange c i e x (if e = u then y else x) := by
  by_cases h : e = u
  · rw [if_pos h]; exact hu h
  · rw [if_neg h]; obtain ⟨h1, h2, h3, h4, h5⟩ := hne h; exact .keep h1 h2 h3 h4 h5

/-- What a command can do to an envelope unit. -/
theorem exec_egChange {i : Instr} {s t : State} (h : exec i s = .next t) (e : OpId) :
    EgChange s.config i e (s.egAt e) (t.egAt e) := by
  have none' : ∀ {i : Instr} {x : Eg}, advances i e = false → keysOff i e = false → soundsOff i e = false →
      constructs i e = false → i ≠ .sgReset → EgChange s.config i e x x := .keep
  cases i
  case oscSetcyc u arg =>
    cases h; simpa [oscSetCycleAt_eq] using none' (i := .oscSetcyc u arg) rfl rfl rfl rfl nofun
  case oscNext u =>
    cases h; simpa [oscNextAt_eq] using none' (i := .oscNext u) rfl rfl rfl rfl nofun
  case oscNextm u arg =>
    cases h; simpa [oscNextMAt] using none' (i := .oscNextm u arg) rfl rfl rfl rfl nofun
  case oscAddph u arg =>
    cases h; simpa [oscAddPhAt_eq] using none' (i := .oscAddph u arg) rfl rfl rfl rfl nofun
  case egInit u rar rdr rsr rrr sl tl =>
    cases h
    simp only [egAt_respond, egAt_onEg]
    exact .of_unit (fun hu => .construct (by simp [constructs, hu]) ..)
      (fun hu => ⟨rfl, rfl, rfl, by simp [constructs, Ne.symm hu], nofun⟩)
  case egSetrate u rate =>
    cases h
    simp only [egAt_respond, egAt_onEg]
    exact .of_unit (fun hu => .control rfl rfl rfl rfl (by simp) _ rfl id (by simp [setsRate, hu]))
      (fun _ => ⟨rfl, rfl, rfl, rfl, nofun⟩)
  case egUpdate u =>
    cases h
    simp only [egAt_respond, egAt_onEg]
    exact .of_unit (fun _ => .control rfl rfl rfl rfl (by simp) _ rfl id (fun _ => rfl)) (fun _ => ⟨rfl, rfl, rfl, rfl, nofun⟩)
  case egSethold u holdn =>
    simp only [exec, execEgSethold] at h
    split at h
    · cases h; simpa [ignoreReserved] using none' (i := .egSethold u holdn) rfl rfl rfl rfl nofun
    · cases h
      simp only [egAt_respond, egAt_onEg]
      exact .of_unit (fun _ => .control rfl rfl rfl rfl (by simp) _ rfl (fun _ => Nat.le_of_not_lt ‹_›) (fun _ => rfl))
        (fun _ => ⟨rfl, rfl, rfl, rfl, nofun⟩)
  case egSetfrz u val =>
    cases h
    simp only [egAt_respond, egAt_onEg]
    exact .of_unit (fun _ => .control rfl rfl rfl rfl (by simp) _ rfl id (fun _ => rfl)) (fun _ => ⟨rfl, rfl, rfl, rfl, nofun⟩)
  case egKeyoff u =>
    cases h
    simp only [egAt_respond, egAt_onEg]
    exact .of_unit (fun hu => .keyOff (by simp [keysOff, hu]))
      (fun hu => ⟨rfl, by simp [keysOff, Ne.symm hu], rfl, rfl, nofun⟩)
  case egSndoff u =>
    cases h
    simp only [egAt_respond, egAt_onEg]
    exact .of_unit (fun hu => .soundOff (by simp [soundsOff, hu]))
      (fun hu => ⟨rfl, rfl, by simp [soundsOff, Ne.symm hu], rfl, nofun⟩)
  case egNext u =>
    cases h
    simp only [egAt_respond, egNextAt, egAt_setEg]
    exact .of_unit (fun hu => by rw [hu]; exact .advance (by simp [advances]))
      (fun hu => ⟨by simp [advances, Ne.symm hu], rfl, rfl, rfl, nofun⟩)
  case opInit o p key =>
    cases h
    simp only [egAt_respond, opInitAt_eq, egAt_setEg, egAt_setOsc, egAt_setOp]
    exact .of_unit (fun hu => by rw [hu]; exact .construct (by simp [constructs]) ..)
      (fun hu => ⟨rfl, rfl, rfl, by simp [constructs, Ne.symm hu], nofun⟩)
  case opSetfreq o freq rate =>
    cases h
    simp only [egAt_respond, opSetFreqRateAt_eq, egAt_setEg, egAt_setOsc]
    exact .of_unit (fun hu => by rw [hu]; exact .control rfl rfl rfl rfl (by simp) _ rfl id (by simp [setsRate]))
      (fun _ => ⟨rfl, rfl, rfl, rfl, nofun⟩)
  case opNext o =>
    cases h
    simp only [egAt_respond, opNextAt_eq, egAt_sampledState]
    exact .of_unit (fun hu => .advance (by simp [advances, hu]))
      (fun hu => ⟨by simp [advances, Ne.symm hu], rfl, rfl, rfl, nofun⟩)
  case opNextm o arg =>
    cases h
    simp only [egAt_respond, opNextMAt_eq, egAt_sampledState]
    exact .of_unit (fun hu => .advance (by simp [advances, hu]))
      (fun hu => ⟨by simp [advances, Ne.symm hu], rfl, rfl, rfl, nofun⟩)
  case opNextam o amv mod =>
    cases h
    simp only [egAt_respond, opNextAmAt_eq, egAt_sampledState]
    exact .of_unit (fun hu => .advance (by simp [advances, hu]))
      (fun hu => ⟨by simp [advances, Ne.symm hu], rfl, rfl, rfl, nofun⟩)
  case opFin o =>
    cases h; simpa using none' (i := .opFin o) rfl rfl rfl rfl nofun
  case sgConfig alg fb lfo =>
    cases h; simpa [sgConfigure] using none' (i := .sgConfig alg fb lfo) rfl rfl rfl rfl nofun
  case sgSetfreq freq rate =>
    cases h
    simp only [egAt_respond, egAt_sgSetFreq]
    exact .control rfl rfl rfl rfl (by simp) _ rfl id nofun
  case sgNext =>
    cases h
    simp only [egAt_respond, egAt_sgNextSample]
    exact .advance rfl
  case sgFin =>
    cases h; simpa using none' (i := .sgFin) rfl rfl rfl rfl nofun
  case sgKeyoff =>
    cases h
    rw [egAt_respond, egAt_forAllOps (g := egKeyOff) (fun o e' t => by simp)]
    exact .keyOff rfl
  case sgSndoff =>
    cases h
    rw [egAt_respond, egAt_forAllOps (g := egSoundOff s.config) (fun o e' t => by simp)]
    exact .soundOff rfl
  case sgSetdamper val =>
    cases h
    rw [egAt_respond, egAt_sgHold]
    exact .control rfl rfl rfl rfl (by simp) _ rfl
      (fun _ => (holdNumerator_toNat _ _).trans_le (Nat.sub_le _ _)) (fun _ => rfl)
  case sgSetsost val =>
    cases h
    rw [egAt_respond, egAt_sgHold]
    exact .control rfl rfl rfl rfl (by simp) _ rfl
      (fun _ => (holdNumerator_toNat _ _).trans_le (Nat.sub_le _ _)) (fun _ => rfl)
  case sgSetfrz val =>
    cases h
    rw [egAt_respond, egAt_forAllOps (g := egSetFreeze s.config val) (fun o e' t => by simp)]
    exact .control rfl rfl rfl rfl (by simp) _ rfl id (fun _ => rfl)
  case sgSetvib depth freq =>
    cases h; simpa [sgSetVib, lfoSetFreq_eq] using none' (i := .sgSetvib depth freq) rfl rfl rfl rfl nofun
  case sgSettrm depth freq =>
    simp only [exec, execSgSettrm] at h
    split at h
    · cases h; simpa [ignoreReserved] using none' (i := .sgSettrm depth freq) rfl rfl rfl rfl nofun
    · cases h; simpa [sgSetTrm, lfoSetFreq_eq] using none' (i := .sgSettrm depth freq) rfl rfl rfl rfl nofun
  case sgReset =>
    cases h
    simp only [egAt_respond, egAt_resetRegisters]
    exact .reset rfl

/-- Outside construction and reset the parameter registers, and with them the peak, stay (10_state.md R28, 41_envelope.md R151). -/
theorem EgChange.keeps_params {c : Config} (hc : c.Valid) {i : Instr} {e : OpId} {x y : Eg} (h : EgChange c i e x y)
    (hi : constructs i e = false) (hr : i ≠ .sgReset) :
    (y.rar = x.rar ∧ y.rdr = x.rdr ∧ y.rsr = x.rsr ∧ y.rrr = x.rrr ∧ y.sl = x.sl ∧ y.tl = x.tl) ∧
    (EgLatched c x → y.fTl = x.fTl) := by
  cases h with
  | keep => simp
  | advance => rw [egNext_frame]; simp
  | keyOff => unfold egKeyOff; split <;> simp
  | soundOff => unfold egSoundOff; split <;> simp
  | construct hc' => rw [hc'] at hi; exact absurd hi (by decide)
  | reset hr' => exact absurd hr' hr
  | control _ _ _ _ _ z hz =>
    rw [hz]
    refine ⟨⟨rfl, rfl, rfl, rfl, rfl, rfl⟩, fun hl => ?_⟩
    obtain ⟨-, -, -, -, -, h6, -⟩ := hl
    apply BitVec.eq_of_toNat_eq
    rw [h6]
    exact (updateParams_latched hc _).2.2.2.2.2.1

/-- The invariant of a unit is kept whatever a command does to the unit. -/
theorem EgChange.keeps_inv {c : Config} (hc : c.Valid) {i : Instr} {e : OpId} {x y : Eg} (h : EgChange c i e x y)
    (hx : EgInv c x) : EgInv c y := by
  cases h with
  | keep => exact hx
  | advance => exact egInv_egNext hc hx
  | keyOff => exact egInv_egKeyOff hx
  | soundOff => exact egInv_egSoundOff hx
  | construct => exact egInv_egInit hc ..
  | reset => exact egInv_reset c
  | control _ _ _ _ _ z hy hh =>
    rw [hy]; exact hx.updateParams_control hc (hh hx.1)

/-- R37 (d) word for word: kept unless the rate of the unit is set, its `FAR` falls with it, and the level has passed the peak
(assumption 18). -/
theorem EgChange.keeps_belowSum {c : Config} (hc : c.Valid) {i : Instr} {e : OpId} {x y : Eg} (h : EgChange c i e x y)
    (hx : EgInv c x) (hi : setsRate i e = false ∨ x.fAr.toNat ≤ y.fAr.toNat ∨ x.cur.toNat < x.fTl.toNat)
    (hb : AttackBelowSum x) : AttackBelowSum y := by
  cases h with
  | keep => exact hb
  | advance => exact attackBelowSum_egNext hc hx
  | keyOff => exact attackBelowSum_egKeyOff hb
  | soundOff => exact attackBelowSum_egSoundOff
  | construct => exact fun _ => Nat.add_pos_left ((updateParams_latched hc _).fTl_pos hc) _
  | reset => exact nofun
  | control _ _ _ _ _ z hy _ hq =>
    intro hl
    have hl : linearState x.st = true := by rw [updateParams_st, hy] at hl; exact hl
    have hlat := hx.latched hl
    have hcur : z.cur = x.cur := by rw [hy]
    have htl : z.tl = x.tl := by rw [hy]
    have hrar : z.rar = x.rar := by rw [hy]
    have hnew := updateParams_latched hc z
    have h1 := hb hl
    have h2 : (updateParams c z).fTl.toNat = x.fTl.toNat := by
      rw [hnew.2.2.2.2.2.1, hlat.2.2.2.2.2.1]; exact congrArg c.tlRom htl
    rw [updateParams_cur, hcur, h2]
    rcases hi with hi | hi | hi
    · have h3 : x.fAr.toNat = (updateParams c z).fAr.toNat := by
        refine hlat.1.trans (Eq.trans ?_ hnew.1.symm)
        simp only [updateParams_rar, updateParams_tl, updateParams_rate, hrar, htl, hq hi]
      omega
    · omega
    · omega

/-- R37 (d) word for word holds after every sample, whatever went before it. -/
theorem EgChange.belowSum_of_advances {c : Config} (hc : c.Valid) {i : Instr} {e : OpId} {x y : Eg} (h : EgChange c i e x y)
    (hx : EgInv c x) (ha : advances i e = true) : AttackBelowSum y := by
  cases h with
  | advance => exact attackBelowSum_egNext hc hx
  | keep h => rw [ha] at h; cases h
  | control h => rw [ha] at h; cases h
  | keyOff h => exact absurd ha (by cases i <;> simp_all [advances, keysOff])
  | soundOff => exact attackBelowSum_egSoundOff
  | construct => exact fun _ => Nat.add_pos_left ((updateParams_latched hc _).fTl_pos hc) _
  | reset => exact nofun

/-- A command touches neither the host's further events nor the configuration (10_state.md R20, R21). -/
theorem exec_sameOutside {i : Instr} {s t : State} (h : exec i s = .next t) : SameOutside s t := by
  have htune : ∀ f r s, SameOutside s (forAllOps (fun o => opSetFreqRateAt o f r) s) := fun f r s =>
    ⟨forAllOps_keeps _ (fun o t => by simp [opSetFreqRateAt_eq]) s, forAllOps_keeps _ (fun o t => by simp [opSetFreqRateAt_eq]) s⟩
  have heg : ∀ g s, SameOutside s (forAllOps (fun o => onEg o g) s) := fun g s =>
    ⟨forAllOps_keeps _ (fun o t => by simp) s, forAllOps_keeps _ (fun o t => by simp) s⟩
  cases i
  case egSethold u holdn =>
    simp only [exec, execEgSethold] at h
    split at h <;> cases h <;> simp [SameOutside, ignoreReserved]
  case sgSettrm depth freq =>
    simp only [exec, execSgSettrm] at h
    split at h <;> cases h <;> simp [SameOutside, ignoreReserved, sgSetTrm, lfoSetFreq_eq]
  case sgSetfreq freq rate =>
    cases h
    obtain ⟨h1, h2⟩ := htune (q16 freq) rate (s.setSg { s.sg with sgRate := rate })
    simpa [SameOutside, sgSetFreq, lfoSetFreq_eq] using ⟨h1, h2⟩
  case sgKeyoff => cases h; obtain ⟨h1, h2⟩ := heg egKeyOff s; simpa [SameOutside] using ⟨h1, h2⟩
  case sgSndoff => cases h; obtain ⟨h1, h2⟩ := heg (egSoundOff s.config) s; simpa [SameOutside] using ⟨h1, h2⟩
  case sgSetfrz val => cases h; obtain ⟨h1, h2⟩ := heg (egSetFreeze s.config val) s; simpa [SameOutside] using ⟨h1, h2⟩
  case sgSetdamper val =>
    cases h
    obtain ⟨h1, h2⟩ := heg (egSetHold s.config (holdNumerator val s.sg.sost)) (s.setSg { s.sg with damper := val })
    simpa [SameOutside] using ⟨h1, h2⟩
  case sgSetsost val =>
    cases h
    obtain ⟨h1, h2⟩ := heg (egSetHold s.config (holdNumerator s.sg.damper val)) (s.setSg { s.sg with sost := val })
    simpa [SameOutside] using ⟨h1, h2⟩
  all_goals
    cases h
    simp [SameOutside, oscSetCycleAt_eq, oscNextAt_eq, oscNextMAt, oscAddPhAt_eq, egNextAt, opInitAt_eq, opSetFreqRateAt_eq,
      opNextAt_eq, opNextMAt_eq, opNextAmAt_eq, sgConfigure, sgSetVib, lfoSetFreq_eq]

theorem exec_config {i : Instr} {s t : State} (h : exec i s = .next t) : t.config = s.config := by
  simp only [State.config, (exec_sameOutside h).2]

/-- A command keeps the invariant (R37). -/
theorem exec_inv {i : Instr} {s t : State} (h : exec i s = .next t) (hs : s.Inv) : t.Inv := fun e => by
  rw [exec_config h]
  exact (exec_egChange h e).keeps_inv (configOf_valid s.cfg) (hs e)

end Sys2Proof.Machine
end

