-- ==== Sys2Proof/Laws/Runs.lean ====
section
/-! SUPPORT. Runs of commands (20_memory.md R70), and what a run can do to a unit that is in a log-domain state (41_envelope.md R165):
the code never grows, and FINISHED is never left but by a construction. -/

namespace Sys2Proof.Machine

open Sys2Proof

/-- A run of a longer list is a run of its head and then of its tail. -/
theorem execAll_cons {i : Instr} {l : List Instr} {s t : State} :
    execAll (i :: l) s = .next t ↔ ∃ u, exec i s = .next u ∧ execAll l u = .next t := by
  simp only [execAll]
  cases h : exec i s <;> simp

theorem execAll_append {a b : List Instr} {s t : State} :
    execAll (a ++ b) s = .next t ↔ ∃ u, execAll a s = .next u ∧ execAll b u = .next t := by
  induction a generalizing s with
  | nil => simp [execAll]
  | cons i a ih =>
    simp only [List.cons_append, execAll_cons, ih]
    constructor
    · rintro ⟨u, h1, v, h2, h3⟩; exact ⟨v, ⟨u, h1, h2⟩, h3⟩
    · rintro ⟨v, ⟨u, h1, h2⟩, h3⟩; exact ⟨u, h1, v, h2, h3⟩

theorem execAll_config : ∀ {l : List Instr} {s t : State}, execAll l s = .next t → t.config = s.config
  | [], s, t, h => by cases h; rfl
  | i :: l, s, t, h => by
    obtain ⟨u, h1, h2⟩ := execAll_cons.1 h
    exact (execAll_config h2).trans (exec_config h1)

/-- A property of one envelope unit that every change a command can make keeps, a run of such commands keeps. -/
theorem execAll_eg_induction {P : Eg → Prop} {e : OpId} {ok : Instr → Prop} {c : Config}
    (hstep : ∀ i x y, ok i → EgChange c i e x y → P x → P y) :
    ∀ {l : List Instr} {s t : State}, s.config = c → (∀ i ∈ l, ok i) → execAll l s = .next t → P (s.egAt e) → P (t.egAt e)
  | [], s, t, _, _, h, hp => by cases h; exact hp
  | i :: l, s, t, hc, hok, h, hp => by
    obtain ⟨u, h1, h2⟩ := execAll_cons.1 h
    exact execAll_eg_induction hstep ((exec_config h1).trans hc) (fun j hj => hok j (by simp [hj])) h2
      (hstep i _ _ (hok i (by simp)) (hc ▸ exec_egChange h1 e) hp)

/-! ### Samples of one unit -/

/-- Decoding after a guarded subtraction. -/
theorem decoded_sub {c : Config} {a b : BitVec 32} (h : b.toNat ≤ a.toNat):
    decoded c (a - b).toNat = decoded c (a.toNat - b.toNat) := by
  rw [sub_toNat h]

/-- The state register after a sample is the one of the transition table (R162). -/
theorem egNext_st (c : Config) (e : Eg) : (egNext c e).1.st = stAfterNext c e := by
  unfold egNext stAfterNext
  cases h : e.st <;> simp only []
  · rcases egRise_cases c .decay e with ⟨h1, h2⟩ | ⟨h1, h2⟩ <;> rw [h2]
    · rw [if_neg (by omega)]; exact h
    · rw [if_pos h1]
  · rcases egFall_cases c e.fDr .sastain e with ⟨h1, h2⟩ | ⟨h1, h2⟩ <;> rw [h2]
    · rw [if_neg (by omega)]; exact h
    · rw [if_pos h1]
  · rcases egFade_cases c e.fSr e with ⟨h1, h3, h2⟩ | ⟨h1, h3, h2⟩ | ⟨h1, h2⟩ <;> rw [h2]
    · rw [decoded_sub (by omega)] at h3; rw [if_neg (by omega)]; exact h
    · rw [decoded_sub (by omega)] at h3; rw [if_pos (by omega)]
    · rw [if_pos (by omega)]
  · rcases egReleaseArm_cases c e with ⟨h1, h3, h2⟩ | ⟨h1, h3, h2⟩ | ⟨h1, h2⟩ <;> rw [h2]
    · rw [decoded_sub (by omega)] at h3; rw [if_neg (by omega), if_pos h3]
    · rw [decoded_sub (by omega)] at h3; rw [if_neg (by omega), if_neg (by omega)]; exact h
    · rw [if_pos (by omega)]
  · rcases egRise_cases c .decayRelease e with ⟨h1, h2⟩ | ⟨h1, h2⟩ <;> rw [h2]
    · rw [if_neg (by omega)]; exact h
    · rw [if_pos h1]
  · have hd := decayReleaseStep_toNat e
    rcases egFall_cases c (decayReleaseStep e) .release e with ⟨h1, h2⟩ | ⟨h1, h2⟩ <;> rw [h2] <;> rw [hd] at h1
    · rw [if_neg (by omega)]; exact h
    · rw [if_pos h1]
  · rcases egFade_cases c e.fOr e with ⟨h1, h3, h2⟩ | ⟨h1, h3, h2⟩ | ⟨h1, h2⟩ <;> rw [h2]
    · rw [decoded_sub (by omega)] at h3; rw [if_neg (by omega)]; exact h
    · rw [decoded_sub (by omega)] at h3; rw [if_pos (by omega)]
    · rw [if_pos (by omega)]
  · exact h

theorem egKeyOff_st (e : Eg) : (egKeyOff e).st = stAfterKeyoff e.st := by
  unfold egKeyOff stAfterKeyoff; cases h : e.st <;> simp [h]

theorem egSoundOff_st (c : Config) (e : Eg) : (egSoundOff c e).st = stAfterSndoff e.st := by
  unfold egSoundOff stAfterSndoff; cases h : e.st <;> simp [h]

/-- What can become of a log-domain unit `x` without a construction: it stays log-domain, its code does not grow unless it finishes, and
FINISHED is not left. -/
structure LogStep (c : Config) (x y : Eg) : Prop where
  lin : linearState y.st = false
  cur : y.st ≠ .finished → y.cur.toNat ≤ x.cur.toNat
  fin : x.st = .finished → y.st = .finished

/-- A sample of a log-domain unit. -/
theorem egNext_logStep {c : Config} {x : Eg} (h : linearState x.st = false) : LogStep c x (egNext c x).1 := by
  unfold egNext
  cases hs : x.st <;> simp only [] <;> simp [hs, linearState] at h
  · rcases egFall_cases c x.fDr .sastain x with ⟨h1, h2⟩ | ⟨h1, h2⟩ <;> rw [h2]
    · exact ⟨by simp [hs, linearState], fun _ => by simp only []; rw [sub_toNat (by omega)]; omega, by simp [hs]⟩
    · exact ⟨by simp [linearState], fun _ => by simp only []; rw [min_code_toNat]; omega, by simp [hs]⟩
  · rcases egFade_cases c x.fSr x with ⟨h1, h3, h2⟩ | ⟨h1, h3, h2⟩ | ⟨h1, h2⟩ <;> rw [h2]
    · exact ⟨by simp [hs, linearState], fun _ => by simp only []; rw [sub_toNat (by omega)]; omega, by simp [hs]⟩
    · exact ⟨by simp [linearState], by simp, by simp⟩
    · exact ⟨by simp [linearState], by simp, by simp⟩
  · rcases egReleaseArm_cases c x with ⟨h1, h3, h2⟩ | ⟨h1, h3, h2⟩ | ⟨h1, h2⟩ <;> rw [h2]
    · exact ⟨by simp [linearState], fun _ => by simp only []; rw [sub_toNat (by omega)]; omega, by simp [hs]⟩
    · exact ⟨by simp [hs, linearState], fun _ => by simp only []; rw [sub_toNat (by omega)]; omega, by simp [hs]⟩
    · exact ⟨by simp [linearState], by simp, by simp⟩
  · rcases egFall_cases c (decayReleaseStep x) .release x with ⟨h1, h2⟩ | ⟨h1, h2⟩ <;> rw [h2]
    · exact ⟨by simp [hs, linearState], fun _ => by simp only []; rw [sub_toNat (by omega)]; omega, by simp [hs]⟩
    · exact ⟨by simp [linearState], fun _ => by simp only []; rw [min_code_toNat]; omega, by simp [hs]⟩
  · rcases egFade_cases c x.fOr x with ⟨h1, h3, h2⟩ | ⟨h1, h3, h2⟩ | ⟨h1, h2⟩ <;> rw [h2]
    · exact ⟨by simp [hs, linearState], fun _ => by simp only []; rw [sub_toNat (by omega)]; omega, by simp [hs]⟩
    · exact ⟨by simp [linearState], by simp, by simp⟩
    · exact ⟨by simp [linearState], by simp, by simp⟩
  · exact ⟨by simp [hs, linearState], by simp [hs], by simp [hs]⟩

/-- Any command but a construction of the unit. -/
theorem EgChange.logStep {c : Config} {i : Instr} {e : OpId} {x y : Eg} (h : EgChange c i e x y)
    (hc : constructs i e = false) (hl : linearState x.st = false) : LogStep c x y := by
  cases h with
  | keep => exact ⟨hl, fun _ => le_rfl, id⟩
  | advance => exact egNext_logStep hl
  | keyOff => unfold egKeyOff; cases hs : x.st <;> simp [hs, linearState] at hl <;> exact ⟨by simp [hs, linearState], by simp, by simp [hs]⟩
  | soundOff => unfold egSoundOff; cases hs : x.st <;> simp [hs, linearState] at hl <;> exact ⟨by simp [hs, linearState], by simp, by simp [hs]⟩
  | construct h => rw [hc] at h; cases h
  | reset => exact ⟨rfl, fun h => absurd rfl h, fun _ => rfl⟩
  | control _ _ _ _ _ z hy => rw [hy]; exact ⟨by simpa using hl, fun _ => by simp, fun h => by simp [h]⟩

theorem LogStep.refl {c : Config} {x : Eg} (h : linearState x.st = false) : LogStep c x x := ⟨h, fun _ => le_rfl, id⟩

theorem LogStep.trans {c : Config} {x y z : Eg} (h1 : LogStep c x y) (h2 : LogStep c y z) : LogStep c x z :=
  ⟨h2.lin, fun hz => le_trans (h2.cur hz) (h1.cur fun h0 => hz (h2.fin h0)), fun h0 => h2.fin (h1.fin h0)⟩

/-- A run that does not construct the unit. -/
theorem execAll_logStep {e : OpId} {l : List Instr} {s t : State} (h : execAll l s = .next t)
    (hc : ∀ i ∈ l, constructs i e = false) (hl : linearState (s.egAt e).st = false) :
    LogStep s.config (s.egAt e) (t.egAt e) :=
  execAll_eg_induction (P := fun x => LogStep s.config (s.egAt e) x) (ok := fun i => constructs i e = false)
    (fun _ _ _ hi hch hp => hp.trans (hch.logStep hi hp.lin)) rfl hc h (.refl hl)

/-- The level a log-domain sample returns: the decoded code it leaves, or 0 if it finishes. -/
theorem egNext_level {c : Config} {x : Eg} (h : linearState x.st = false) : 
    (egNext c x).2 = if (egNext c x).1.st = .finished then 0 else decoded c (egNext c x).1.cur.toNat := by
  unfold egNext
  cases hs : x.st <;> simp only [] <;> simp [hs, linearState] at h
  · rcases egFall_cases c x.fDr .sastain x with ⟨h1, h2⟩ | ⟨h1, h2⟩ <;> rw [h2] <;> simp [hs]
    rw [← min_code_toNat]
  · rcases egFade_cases c x.fSr x with ⟨h1, h3, h2⟩ | ⟨h1, h3, h2⟩ | ⟨h1, h2⟩ <;> rw [h2] <;> simp [hs]
  · rcases egReleaseArm_cases c x with ⟨h1, h3, h2⟩ | ⟨h1, h3, h2⟩ | ⟨h1, h2⟩ <;> rw [h2] <;> simp [hs]
  · rcases egFall_cases c (decayReleaseStep x) .release x with ⟨h1, h2⟩ | ⟨h1, h2⟩ <;> rw [h2] <;> simp [hs]
    rw [← min_code_toNat]
  · rcases egFade_cases c x.fOr x with ⟨h1, h3, h2⟩ | ⟨h1, h3, h2⟩ | ⟨h1, h2⟩ <;> rw [h2] <;> simp [hs]
  · simp [hs]

end Sys2Proof.Machine
end

