-- ==== Sys2Proof/Laws/Notes.lean ====
section
/-! SUPPORT. The start of a note (70_reset_and_hazards.md R264): the five commands of VOICE.LOAD act on different units, so they may stand
in any order (30_encoding.md R102). -/

namespace Sys2Proof.Machine

open Sys2Proof

/-! ### Order -/

/-- Two commands give the same state in either order. -/
def Commute (i j : Instr) : Prop := ∀ s, execAll [i, j] s = execAll [j, i] s

theorem Commute.symm {i j : Instr} (h : Commute i j) : Commute j i := fun s => (h s).symm

/-- Runs that agree from every state still agree with a command before them. -/
theorem execAll_cons_congr {a b : List Instr} (h : ∀ s, execAll a s = execAll b s) (i : Instr) (s : State) :
    execAll (i :: a) s = execAll (i :: b) s := by
  simp only [execAll]
  cases exec i s <;> simp [h]

/-- Runs that agree from a state still agree with more commands after them. -/
theorem execAll_append_congr {a b : List Instr} {s : State} (h : execAll a s = execAll b s) (l : List Instr) :
    execAll (a ++ l) s = execAll (b ++ l) s := by
  have key : ∀ (a : List Instr) (s : State), execAll (a ++ l) s =
      match execAll a s with
      | .next t => execAll l t
      | .fault f => .fault f
      | .refused r => .refused r := by
    intro a
    induction a with
    | nil => intro s; rfl
    | cons i a ih =>
      intro s
      simp only [List.cons_append, execAll]
      cases exec i s <;> simp [ih]
  rw [key, key, h]

/-- Commands that commute in pairs may be run in any order. -/
theorem execAll_perm {a b : List Instr} (h : a.Perm b) (hc : ∀ i ∈ a, ∀ j ∈ a, Commute i j) (s : State) :
    execAll a s = execAll b s := by
  induction h generalizing s with
  | nil => rfl
  | cons i _ ih =>
    exact execAll_cons_congr (fun s => ih (fun j hj k hk => hc j (.tail _ hj) k (.tail _ hk)) s) i s
  | swap i j l => exact execAll_append_congr (hc j (by simp) i (by simp) s) l
  | trans h1 _ ih1 ih2 =>
    exact (ih1 hc s).trans (ih2 (fun j hj k hk => hc j (h1.mem_iff.2 hj) k (h1.mem_iff.2 hk)) s)

/-- Two constructions of different operators (R267: the units share no state). -/
theorem commute_opInit {o o' : OpId} (h : o ≠ o') (p p' : OpParams) (key key' : BitVec 7) :
    Commute (.opInit o p key) (.opInit o' p' key') := by
  intro s
  cases o <;> cases o' <;> first | exact absurd rfl h | rfl

/-- A construction of an operator and one of the sound generator. -/
theorem commute_opInit_sgConfig (o : OpId) (p : OpParams) (key : BitVec 7) (alg fb lfo : BitVec 3) :
    Commute (.opInit o p key) (.sgConfig alg fb lfo) := by
  intro s
  cases o <;> rfl

/-- The commands of a VOICE.LOAD commute in pairs. -/
theorem commute_voiceLoad (p : VoiceParams) (key : BitVec 7) :
    ∀ i ∈ voiceLoadCommands p key, ∀ j ∈ voiceLoadCommands p key, Commute i j := by
  have h : (voiceLoadCommands p key).Pairwise Commute := by
    simp [voiceLoadCommands, commute_opInit, commute_opInit_sgConfig]
  have : Std.Symm Commute := ⟨fun _ _ => Commute.symm⟩
  exact fun i hi j hj => h.forall_of_forall (fun _ _ _ => rfl) hi hj

/-- R102, R264: the order of the words of a VOICE.LOAD does not matter. -/
theorem execAll_voiceLoad {load : List Instr} {p : VoiceParams} {key : BitVec 7} (h : load.Perm (voiceLoadCommands p key)) (s : State) :
    execAll load s = execAll (voiceLoadCommands p key) s :=
  (execAll_perm h.symm (commute_voiceLoad p key) s).symm

/-! ### Words -/

/-- The listed order is one of the expansions. -/
theorem expansion_expand (x : Pseudo) : Expansion x (expand x) := by
  cases x with
  | voiceLoad p key => exact ⟨_, .refl _, rfl⟩
  | noteOn p key f rate => exact ⟨_, .refl _, rfl⟩
  | _ => rfl

/-- A step takes the first word off the list and runs the command it decodes to. -/
theorem step_command {w : Command} {i : Instr} (h : decode w = .ok i) {s : State} {rest : List HostEvent}
    (hs : s.host = .command w :: rest) : step s = exec i { s with host := rest } := by
  simp [step, takeEvent, hs, h]

end Sys2Proof.Machine
end

