-- ==== Sys2Proof/Laws/PerInstr.lean ====
section
/-! SUPPORT. One law for every instruction as syntax: the three fields of its word are its opcode, its unit number and its payload
(30_encoding.md R91, R103). -/

namespace Sys2Proof.Laws.EncodeFields

open Sys2Proof

/-- The word of `i` has the fields of `i`. -/
def Statement (i : Instr) : Prop :=
  opcField (encode i) = i.opcode ∧ unitField (encode i) = i.unitCode ∧ (payloadField (encode i)).toNat = i.payload

theorem of_bound (i : Instr) (h : i.payload < 2 ^ 52) : Statement i :=
  ⟨opcField_encode i, unitField_encode i, by rw [payloadField_encode, BitVec.toNat_ofNat, Nat.mod_eq_of_lt h]⟩

theorem oscSetcyc (u : OscId) (arg : BitVec 32) : Statement (.oscSetcyc u arg) := of_bound _ (payload_lt _)

theorem oscNext (u : OscId) : Statement (.oscNext u) := of_bound _ (payload_lt _)

theorem oscNextm (u : OscId) (arg : BitVec 32) : Statement (.oscNextm u arg) := of_bound _ (payload_lt _)

theorem oscAddph (u : OscId) (arg : BitVec 32) : Statement (.oscAddph u arg) := of_bound _ (payload_lt _)

theorem egInit (e : OpId) (rar rdr rsr rrr : BitVec 6) (sl : BitVec 4) (tl : BitVec 7) : Statement (.egInit e rar rdr rsr rrr sl tl) := of_bound _ (payload_lt _)

theorem egSetrate (e : OpId) (rate : BitVec 20) : Statement (.egSetrate e rate) := of_bound _ (payload_lt _)

theorem egUpdate (e : OpId) : Statement (.egUpdate e) := of_bound _ (payload_lt _)

theorem egSethold (e : OpId) (holdn : BitVec 15) : Statement (.egSethold e holdn) := of_bound _ (payload_lt _)

theorem egSetfrz (e : OpId) (val : BitVec 7) : Statement (.egSetfrz e val) := of_bound _ (payload_lt _)

theorem egKeyoff (e : OpId) : Statement (.egKeyoff e) := of_bound _ (payload_lt _)

theorem egSndoff (e : OpId) : Statement (.egSndoff e) := of_bound _ (payload_lt _)

theorem egNext (e : OpId) : Statement (.egNext e) := of_bound _ (payload_lt _)

theorem opInit (o : OpId) (p : OpParams) (key : BitVec 7) : Statement (.opInit o p key) := of_bound _ (payload_lt _)

theorem opSetfreq (o : OpId) (freq : BitVec 32) (rate : BitVec 20) : Statement (.opSetfreq o freq rate) := of_bound _ (payload_lt _)

theorem opNext (o : OpId) : Statement (.opNext o) := of_bound _ (payload_lt _)

theorem opNextm (o : OpId) (arg : BitVec 32) : Statement (.opNextm o arg) := of_bound _ (payload_lt _)

theorem opNextam (o : OpId) (amv : BitVec 9) (mod : BitVec 32) : Statement (.opNextam o amv mod) := of_bound _ (payload_lt _)

theorem opFin (o : OpId) : Statement (.opFin o) := of_bound _ (payload_lt _)

theorem sgConfig (alg fb lfo : BitVec 3) : Statement (.sgConfig alg fb lfo) := of_bound _ (payload_lt _)

theorem sgSetfreq (freq : BitVec 32) (rate : BitVec 20) : Statement (.sgSetfreq freq rate) := of_bound _ (payload_lt _)

theorem sgNext : Statement .sgNext := of_bound _ (payload_lt _)

theorem sgFin : Statement .sgFin := of_bound _ (payload_lt _)

theorem sgKeyoff : Statement .sgKeyoff := of_bound _ (payload_lt _)

theorem sgSndoff : Statement .sgSndoff := of_bound _ (payload_lt _)

theorem sgSetdamper (val : BitVec 7) : Statement (.sgSetdamper val) := of_bound _ (payload_lt _)

theorem sgSetsost (val : BitVec 7) : Statement (.sgSetsost val) := of_bound _ (payload_lt _)

theorem sgSetfrz (val : BitVec 7) : Statement (.sgSetfrz val) := of_bound _ (payload_lt _)

theorem sgSetvib (depth : BitVec 13) (freq : BitVec 32) : Statement (.sgSetvib depth freq) := of_bound _ (payload_lt _)

theorem sgSettrm (depth : BitVec 13) (freq : BitVec 32) : Statement (.sgSettrm depth freq) := of_bound _ (payload_lt _)

theorem sgReset : Statement .sgReset := of_bound _ (payload_lt _)

end Sys2Proof.Laws.EncodeFields
end

