-- ==== Sys2Proof/Laws/Tuning.lean ====
section
/-! SUPPORT. Tuning: what `OscSetCycle` makes of the step at a frequency and a rate (40_oscillator.md R121, 42_operator.md R183,
43_soundgen.md R202), and what tuning all four operators leaves in each oscillator. -/

namespace Sys2Proof.Machine

open Sys2Proof

@[simp] theorem oscSetCycle_pos (c : Config) (cycle : ℚ) (o : Osc) : (oscSetCycle c cycle o).pos = o.pos := by
  unfold oscSetCycle; split <;> rfl

/-- One rounding in all: the step is the floor of the exact quotient. -/
theorem oscSetCycle_cycleOf_step (c : Config) (f : ℚ) (rate : BitVec 20) (o : Osc) :
    (oscSetCycle c (cycleOf f rate) o).step.toNat = stepFor c f rate := by
  unfold oscSetCycle cycleOf stepFor
  have hr : rate = 0 ↔ rate.toNat = 0 := ⟨fun h => by rw [h]; rfl, fun h => BitVec.eq_of_toNat_eq (by simpa using h)⟩
  by_cases h : f ≤ 0 ∨ rate = 0
  · rw [if_pos h, if_pos rfl, if_pos (by rwa [← hr])]; rfl
  · obtain ⟨hf, hz⟩ := not_or.1 h
    have hf : 0 < f := not_le.1 hf
    have hz : (rate.toNat : ℚ) ≠ 0 := fun hq => hz (hr.2 (by exact_mod_cast hq))
    rw [if_neg h, if_neg (show (hz20 rate : ℚ) / f ≠ 0 from div_ne_zero hz hf.ne'), if_neg (by rwa [← hr])]
    have e : (c.sineDiv : ℚ) * (2 ^ c.phaseFrac : Nat) / (hz20 rate / f) = (c.sineDiv : ℚ) * 2 ^ c.phaseFrac * f / rate.toNat := by
      rw [hz20]; push_cast; field_simp
    simp only [e]
    have hn : 0 ≤ (c.sineDiv : ℚ) * 2 ^ c.phaseFrac * f / rate.toNat := by positivity
    rw [u32_toNat, show (c.sineDiv * 2 ^ c.phaseFrac * f / rate.toNat : ℚ).floor = _ from (Int.natCast_floor_eq_floor hn).symm]
    norm_cast

/-- Tuning all four operators retunes each operator's oscillator from what it was. -/
theorem oscAt_forAllOps_tune (f : ℚ) (rate : BitVec 20) (s : State) (o : OpId) :
    (forAllOps (fun o => opSetFreqRateAt o f rate) s).oscAt o.osc =
      oscSetCycle s.config (cycleOf (effectiveFreq s.config (s.opAt o) f) rate) (s.oscAt o.osc) :=
  oscAt_forAllOps
    (g := fun o s x => oscSetCycle s.config (cycleOf (effectiveFreq s.config (s.opAt o) f) rate) x)
    (fun o u s => by simp only [opSetFreqRateAt_eq, oscAt_setEg, oscAt_setOsc]; split <;> simp_all)
    (fun o p s => by simp [opSetFreqRateAt_eq]) s o

/-- Tuning the operators leaves the LFOs alone. -/
theorem oscAt_forAllOps_tune_lfo (f : ℚ) (rate : BitVec 20) (s : State) {u : OscId} (hu : u = .lfoAm ∨ u = .lfoVib ∨ u = .lfoTrm) :
    (forAllOps (fun o => opSetFreqRateAt o f rate) s).oscAt u = s.oscAt u :=
  oscAt_forAllOps_lfo (fun o t => by rcases hu with rfl | rfl | rfl <;> simp [opSetFreqRateAt_eq]) s

end Sys2Proof.Machine
end

