-- ==== Sys2Proof/Tests/Slice0.lean ====
section
/-! SUPPORT. The model's own tests: ill-formed commands, words of 95_test_vectors.md E1 and E3, one step of each command against a worked
example of the spec (its place is given before each test), and for every statement with hypotheses a state and operands
that meet them (`witness_...`). -/

namespace Sys2Proof.Machine.Tests

set_option Elab.async false

open Sys2Proof Sys2Proof.Machine

/-! ### Well-formedness and decoding -/

theorem test_illformed_hold : (Instr.egSethold .op1 16130).wellFormed = false ∧ (Instr.egSethold .op1 16129).wellFormed = true := by
  decide

theorem test_illformed_tremolo :
    (Instr.sgSettrm 128 0x20000).wellFormed = false ∧ (Instr.sgSettrm 127 0x20000).wellFormed = true := by decide

/-- The decoder accepts `w` as `i`. -/
def reads (w : Command) (i : Instr) : Bool :=
  match decode w with
  | .ok j => j == i
  | .error _ => false

/-- The decoder rejects `w` for the reason `e`. -/
def rejects (w : Command) (e : Reserved) : Bool :=
  match decode w with
  | .ok _ => false
  | .error f => f == e

/-- E1, class OSC. -/
theorem test_decode_osc :
    reads 0x0100000000640000#64 (.oscSetcyc .osc1 0x00640000) ∧ reads 0x0240000000000000#64 (.oscNext .lfoAm) ∧
    reads 0x03100000FFFFE000#64 (.oscNextm .osc2 0xFFFFE000) ∧ reads 0x0460000000000F38#64 (.oscAddph .lfoTrm 3896) := by decide

/-- E1, class EG. -/
theorem test_decode_eg :
    reads 0x10000000023C33C7#64 (.egInit .op1 7 15 3 15 2 0) ∧ reads 0x112000000000AC44#64 (.egSetrate .op3 44100) ∧
    reads 0x1200000000000000#64 (.egUpdate .op1) ∧ reads 0x1330000000001FC0#64 (.egSethold .op4 8128) ∧
    reads 0x141000000000007F#64 (.egSetfrz .op2 127) ∧ reads 0x1500000000000000#64 (.egKeyoff .op1) ∧
    reads 0x1630000000000000#64 (.egSndoff .op4) ∧ reads 0x1700000000000000#64 (.egNext .op1) := by decide

/-- E1 and E2, class OP. -/
theorem test_decode_op :
    reads 0x201078424C13815F#64
      (.opInit .op2 { ar := 31, dr := 10, sr := 0, rr := 7, sl := 2, tl := 24, ks := 1, ml := 2, dt := 4, ams := 0 } 60) ∧
    reads 0x2110AC4401B80000#64 (.opSetfreq .op2 0x01B80000 44100) ∧ reads 0x2230000000000000#64 (.opNext .op4) ∧
    reads 0x2300000000002000#64 (.opNextm .op1 8192) ∧ reads 0x2400010000002000#64 (.opNextam .op1 0x100 8192) ∧
    reads 0x2520000000000000#64 (.opFin .op3) := by decide

/-- E1, class SG. -/
theorem test_decode_sg :
    reads 0x300000000000003C#64 (.sgConfig 4 7 0) ∧ reads 0x3100AC4401B80000#64 (.sgSetfreq 0x01B80000 44100) ∧
    reads 0x3200000000000000#64 .sgNext ∧ reads 0x3300000000000000#64 .sgFin ∧ reads 0x3400000000000000#64 .sgKeyoff ∧
    reads 0x3500000000000000#64 .sgSndoff ∧ reads 0x3600000000000040#64 (.sgSetdamper 64) ∧
    reads 0x3700000000000040#64 (.sgSetsost 64) ∧ reads 0x380000000000007F#64 (.sgSetfrz 127) ∧
    reads 0x3900004000050000#64 (.sgSetvib 64 0x00050000) ∧ reads 0x3A00004000020000#64 (.sgSettrm 64 0x00020000) ∧
    reads 0x3F00000000000000#64 .sgReset := by decide

/-- E3: words outside the opcode map, and units outside their class. -/
theorem test_reserved_opcode_and_unit :
    rejects 0x0000000000000000#64 .opcode ∧ rejects 0x1800000000000000#64 .opcode ∧ rejects 0x4000000000000000#64 .opcode ∧
    rejects 0xFFFFFFFFFFFFFFFF#64 .opcode ∧ rejects 0x0270000000000000#64 .unit ∧ rejects 0x1740000000000000#64 .unit ∧
    rejects 0x22F0000000000000#64 .unit ∧ rejects 0x3210000000000000#64 .unit := by decide

/-- E3: the lowest reserved payload bit of each format, and the two operand ranges. -/
theorem test_reserved_payload :
    rejects 0x1700000000000001#64 .payloadBits ∧ rejects 0x0100000100640000#64 .payloadBits ∧
    rejects 0x1000000800000000#64 .payloadBits ∧ rejects 0x1100000000100000#64 .payloadBits ∧
    rejects 0x1300000000008000#64 .payloadBits ∧ rejects 0x1400000000000080#64 .payloadBits ∧
    rejects 0x2001000000000000#64 .payloadBits ∧ rejects 0x2400020000000000#64 .payloadBits ∧
    rejects 0x3000000000000200#64 .payloadBits ∧ rejects 0x3900200000050000#64 .payloadBits ∧
    rejects 0x1300000000003F02#64 .operandRange ∧ rejects 0x3A00008000020000#64 .operandRange := by decide

/-- R101, R103: the assembler text of the worked example, in another order of its operands, and a Q16.16 operand of E5. -/
theorem test_assemble :
    assemble "OP.INIT OP2, key=60, ar=31, dr=10, sr=0, rr=7, sl=2, tl=0x18, ks=1, ml=2, dt=4, ams=0 ; a comment".toList
      = some 0x201078424C13815F#64 ∧
    assemble "OP.SETFREQ OP2, 261.6256, 48000".toList = some 0x2110BB800105A027#64 := by decide +kernel

/-- The table interface: a row's lowest word decodes, and the step after reset runs it. -/
theorem test_table_word :
    decodeTableWord 64 0x3700000000000040 = some (.sgSetsost 64) ∧
    ((State.reset.withFetchWord 64 0x3700000000000040).host = [.command 0x3700000000000040#64]) := by decide

/-! ### One step of each command

The states are those of 95_test_vectors.md section 3, on the configuration `T8` unless a test says `DEFAULT`. -/

/-- The state a command leaves. -/
def after (i : Instr) (s : State) : State :=
  match exec i s with
  | .next t => t
  | .fault _ => s
  | .refused _ => s

/-- The reset state of a `T8` block. -/
def blank : State := { State.reset with cfg := .t8 }

/-- An oscillator OSC1 of given registers. -/
def oscState (c : ConfigName) (pos step : BitVec 32) : State :=
  { State.reset with cfg := c, osc := { State.reset.osc with osc1 := ⟨pos, step⟩ } }

/-- O3: the quotient `2^32 + 2098176` wraps. O2: the floor. -/
theorem test_osc_setcyc :
    ((after (.oscSetcyc .osc1 0x000007FF) State.reset).oscAt .osc1).step = 2098176 ∧
    ((after (.oscSetcyc .osc1 0x00030000) blank).oscAt .osc1).step = 87381 := by decide +kernel

/-- O2, third sample: one unit short of a full turn. -/
theorem test_osc_next_floor :
    (after (.oscNext .osc1) (oscState .t8 174762 87381)).rsp = BitVec.ofInt 32 (-23170) ∧
    ((after (.oscNext .osc1) (oscState .t8 174762 87381)).oscAt .osc1).pos = 262143 := by decide +kernel

/-- O8: the wrap of `POS`. -/
theorem test_osc_next_wrap :
    (after (.oscNext .osc1) (oscState .t8 4294950912 32768)).rsp = 0 ∧
    ((after (.oscNext .osc1) (oscState .t8 4294950912 32768)).oscAt .osc1).pos = 16384 := by decide +kernel

/-- O5: a negative modulation, and one that rounds toward zero. -/
theorem test_osc_nextm :
    (after (.oscNextm .osc1 0xFFFFC000) (oscState .t8 0 32768)).rsp = BitVec.ofInt 32 (-23170) ∧
    (after (.oscNextm .osc1 (BitVec.ofInt 32 (-8191))) (oscState .t8 0 32768)).rsp = 23170 := by decide +kernel

/-- O7: the floor, and the wrap below 0. -/
theorem test_osc_addph :
    ((after (.oscAddph .osc1 0xFFFFF1A2) (oscState .dflt 79790 1342177)).oscAt .osc1).pos = 4464 ∧
    ((after (.oscAddph .osc1 0xFFFFFFFF) (oscState .dflt 0 1342177)).oscAt .osc1).pos = 4294967275 := by decide +kernel

/-- EG1 as G1 constructs it, then at a given state and level; the other units too. -/
def noteEg (st : EgState) (cur : BitVec 32) : Eg := { egInit t8Config 7 15 3 15 2 0 Eg.reset with st := st, cur := cur }

/-- Four such envelopes. -/
def note (st : EgState) (cur : BitVec 32) : State :=
  { blank with eg := ⟨noteEg st cur, noteEg st cur, noteEg st cur, noteEg st cur⟩ }

/-- R148 and G1. -/
theorem test_eg_init :
    (after (.egInit .op1 7 15 3 15 2 0) blank).egAt .op1 =
      { st := .attack, cur := 0, rar := 7, rdr := 15, rsr := 3, rrr := 15, sl := 2, tl := 0, rate := 0, hold := 0, freeze := 0,
        fTl := 32767, fSl := 851964, fAr := 8000, fDr := 65536, fSr := 16384, fRr := 65536, fOr := 262144 } := by decide +kernel

/-- G12. -/
theorem test_eg_setrate :
    (after (.egSetrate .op1 4) (note .attack 16000)).egAt .op1 =
      { noteEg .attack 16000 with rate := 4, fAr := 2000, fDr := 16384, fSr := 4096, fRr := 16384, fOr := 65536 } := by
  decide +kernel

/-- G8 (`DEFAULT`). -/
theorem test_eg_update :
    (after (.egUpdate .op1) State.reset).egAt .op1 =
      { Eg.reset with fAr := 2137, fDr := 1347017, fSr := 1347017, fRr := 1347017, fOr := 4294967295, fTl := 32767,
                      fSl := 268435456 } := by decide +kernel

/-- G6: damper 64. -/
theorem test_eg_sethold :
    (after (.egSethold .op1 8128) (after (.egSetrate .op1 8) (note .attack 0))).egAt .op1 =
      { noteEg .attack 0 with rate := 8, hold := 8128, fAr := 1000, fDr := 4063, fSr := 1015, fRr := 4063, fOr := 32768 } := by
  decide +kernel

/-- E3: `HOLDN = 16130` is reserved. -/
theorem test_eg_sethold_reserved : (after (.egSethold .op1 16130) (note .decay 5)) = note .decay 5 := by decide +kernel

/-- G6: freeze 64. -/
theorem test_eg_setfrz :
    (after (.egSetfrz .op1 64) (after (.egSetrate .op1 8) (note .attack 0))).egAt .op1 =
      { noteEg .attack 0 with rate := 8, freeze := 64, fAr := 1000, fDr := 4063, fSr := 1015, fRr := 4063, fOr := 32768 } := by
  decide +kernel

/-- G3 and G5 (g). -/
theorem test_eg_keyoff :
    (after (.egKeyoff .op1) (note .attack 16000)).egAt .op1 = noteEg .attackRelease 16000 ∧
    (after (.egKeyoff .op1) (note .soundoff 917500)).egAt .op1 = noteEg .soundoff 917500 := by decide +kernel

/-- G5 (a) and (d): a linear level is converted, a log code is not. -/
theorem test_eg_sndoff :
    (after (.egSndoff .op1) (note .attack 16000)).egAt .op1 = noteEg .soundoff 914432 ∧
    (after (.egSndoff .op1) (note .decay 917500)).egAt .op1 = noteEg .soundoff 917500 := by decide +kernel

/-- G1, sample 6; G2, sample 17. -/
theorem test_eg_next_handover :
    (after (.egNext .op1) (note .attack 40000)).egAt .op1 = noteEg .decay 983036 ∧
    (after (.egNext .op1) (note .attack 40000)).rsp = 32767 ∧
    (after (.egNext .op1) (note .release 327676)).egAt .op1 = noteEg .soundoff 262140 ∧
    (after (.egNext .op1) (note .release 327676)).rsp = 8 := by decide +kernel

/-- G1, samples 8 and 56; G2, sample 18. -/
theorem test_eg_next_limits :
    (after (.egNext .op1) (note .decay 917500)).egAt .op1 = noteEg .sastain 851964 ∧
    (after (.egNext .op1) (note .sastain 81916)).egAt .op1 = noteEg .finished 65532 ∧
    (after (.egNext .op1) (note .sastain 81916)).rsp = 0 ∧
    (after (.egNext .op1) (note .soundoff 262140)).egAt .op1 = noteEg .finished 262140 := by decide +kernel

/-- P1, last row, and R180 (b): the other units stand. -/
theorem test_op_init :
    let t := after (.opInit .op2 { ar := 12, dr := 5, sr := 1, rr := 4, sl := 2, tl := 24, ks := 2, ml := 2, dt := 4, ams := 1 } 69)
      (note .decay 5)
    (t.egAt .op2).rar = 32 ∧ (t.egAt .op2).rdr = 18 ∧ (t.egAt .op2).rsr = 10 ∧ (t.egAt .op2).rrr = 26 ∧
    t.opAt .op2 = ⟨2, 2, 4, 1, 69⟩ ∧ (t.egAt .op2).st = .attack ∧ t.egAt .op1 = noteEg .decay 5 := by decide +kernel

/-- R180 (`DEFAULT`): the latched values. -/
theorem test_op_init_default :
    (after (.opInit .op2 { ar := 31, dr := 10, sr := 0, rr := 7, sl := 2, tl := 24, ks := 1, ml := 2, dt := 4, ams := 0 } 60)
      State.reset).egAt .op2 =
      { st := .attack, cur := 0, rar := 63, rdr := 23, rsr := 3, rrr := 33, sl := 2, tl := 24, rate := 0, hold := 0, freeze := 0,
        fTl := 519, fSl := 125759311, fAr := 1797764, fDr := 71511088, fSr := 2261379, fRr := 402136405, fOr := 4294967295 } := by
  decide +kernel

/-- An operator OP1 with the given multiplier, detune and AM sensitivity, and the rates of vector P6. -/
def opState (ml : BitVec 4) (dt : BitVec 3) (ams : BitVec 2) : State :=
  after (.opInit .op1 { ar := 11, dr := 0, sr := 0, rr := 0, sl := 0, tl := 0, ks := 0, ml := ml, dt := dt, ams := ams } 0) blank

/-- P2, detune on `T8`: `2 + 3 = 5` Hz, and `1 - 1 = 0` Hz. -/
theorem test_op_setfreq :
    ((after (.opSetfreq .op1 0x00010000 8) (opState 2 3 0)).oscAt .osc1).step = 163840 ∧
    ((after (.opSetfreq .op1 0x00010000 8) (opState 1 5 0)).oscAt .osc1).step = 0 ∧
    ((after (.opSetfreq .op1 0x00010000 8) (opState 1 5 0)).egAt .op1).rate = 8 := by decide +kernel

/-- OP1 of vector P6, tuned. -/
def opTuned (ams : BitVec 2) : State := after (.opSetfreq .op1 0x00010000 8) (opState 1 0 ams)

/-- P4, sample 6: the floor of a negative product. -/
theorem test_op_next :
    (after (.opNext .op1)
      { blank with osc := { blank.osc with osc1 := ⟨163840, 32768⟩ }, eg := { blank.eg with eg1 :=
          { Eg.reset with st := .attack, cur := 19375, fAr := 3875, fTl := 32767 } } }).rsp = BitVec.ofInt 32 (-23250) := by
  decide +kernel

/-- R185. -/
theorem test_op_nextm :
    (after (.opNextm .op1 8192) (opTuned 0)).rsp = 2874 ∧ ((after (.opNextm .op1 8192) (opTuned 0)).oscAt .osc1).pos = 32768 := by
  decide +kernel

/-- P6: `AMS` 2 at 100, and `AMS` 3 at -256. -/
theorem test_op_nextam :
    (after (.opNextam .op1 100 8192) (opTuned 2)).rsp = 2230 ∧
    (after (.opNextam .op1 0x100 8192) (opTuned 3)).rsp = 224 := by decide +kernel

/-- P7. -/
theorem test_op_fin :
    (after (.opFin .op1) blank).rsp = 1 ∧ (after (.opFin .op1) (opState 1 0 0)).rsp = 0 ∧
    (after (.opFin .op2) (opState 1 0 0)).rsp = 1 := by decide +kernel

/-- The operator parameters of the `T8` test voice. -/
def voiceParams (ml : BitVec 4) (ams : BitVec 2) : OpParams :=
  { ar := 15, dr := 0, sr := 0, rr := 15, sl := 0, tl := 0, ks := 0, ml := ml, dt := 0, ams := ams }

/-- The `T8` test voice of 95_test_vectors.md section 3.5, after `SG.SETFREQ 1.0, 8`. -/
def voice (alg fb lfo : BitVec 3) (ams : BitVec 2) : State :=
  after (.sgSetfreq 0x00010000 8) (after (.sgConfig alg fb lfo)
    (after (.opInit .op4 (voiceParams 1 0) 0) (after (.opInit .op3 (voiceParams 2 0) 0)
      (after (.opInit .op2 (voiceParams 1 0) 0) (after (.opInit .op1 (voiceParams 1 ams) 0) blank)))))

/-- R201. -/
theorem test_sg_config :
    (after (.sgConfig 4 7 0) { blank with sg := { blank.sg with fbReg := 5, vibDepth := 6, sgRate := 7 } }).sg =
      { SgRegs.reset with alg := 4, fb := 7 } := by decide

/-- R203. -/
theorem test_sg_setfreq :
    [OscId.osc1, .osc2, .osc3, .osc4, .lfoAm, .lfoVib, .lfoTrm].map (fun u => ((voice 4 7 0 0).oscAt u).step) =
      [32768, 32768, 65536, 32768, 32768, 0, 0] ∧
    ((voice 4 7 0 0).egAt .op3).rate = 8 ∧ ((voice 4 7 0 0).egAt .op3).fAr = 3875 := by decide +kernel

/-- R211: the first sample. -/
theorem test_sg_next :
    (after .sgNext (voice 4 7 0 0)).rsp = 5478 ∧ (after .sgNext (voice 4 7 0 0)).sg.fbReg = 2739 := by decide +kernel

/-- S3, S4 and S5: the first sample under vibrato, tremolo and AM. -/
theorem test_sg_next_lfos :
    ((after .sgNext (after (.sgSetvib 64 0x00010000) (voice 7 0 0 0))).oscAt .osc3).pos = 68416 ∧
    (after .sgNext (after (.sgSettrm 64 0x00020000) (voice 4 7 0 0))).rsp = 2740 ∧
    (after .sgNext (voice 7 0 1 2)).rsp = 12087 := by decide +kernel

/-- R215: with OP4 alone finished, ALG 0 is finished and ALG 7 is not. -/
theorem test_sg_fin :
    let s : State := { note .sastain 851964 with eg := { (note .sastain 851964).eg with eg4 := Eg.reset } }
    (after .sgFin s).rsp = 1 ∧ (after .sgFin { s with sg := { s.sg with alg := 7 } }).rsp = 0 := by decide +kernel

/-- Four envelopes in the states of R216's and R217's examples. -/
def mixed (third : EgState) : State :=
  { blank with eg := ⟨noteEg .attack 16000, noteEg .decay 917500, noteEg third 819196, noteEg .finished 3⟩ }

/-- R216. -/
theorem test_sg_keyoff :
    [OpId.op1, .op2, .op3, .op4].map (fun e => ((after .sgKeyoff (mixed .sastain)).egAt e).st) =
      [.attackRelease, .decayRelease, .release, .finished] := by decide +kernel

/-- R217, G5 (a). -/
theorem test_sg_sndoff :
    [OpId.op1, .op2, .op3, .op4].map (fun e => ((after .sgSndoff (mixed .soundoff)).egAt e).st) =
      [.soundoff, .soundoff, .soundoff, .finished] ∧
    ((after .sgSndoff (mixed .soundoff)).egAt .op1).cur = 914432 := by decide +kernel

/-- S7: damper 64, then sostenuto 64. -/
theorem test_sg_setdamper :
    ((after (.sgSetdamper 64) (voice 0 0 0 0)).egAt .op4).hold = 8128 ∧
    ((after (.sgSetdamper 64) (voice 0 0 0 0)).egAt .op4).fRr = 16001 := by decide +kernel

/-- S7: damper 64 and sostenuto 64. -/
theorem test_sg_setsost :
    ((after (.sgSetsost 64) { note .decay 5 with sg := { blank.sg with damper := 64 } }).egAt .op1).hold = 12160 := by decide +kernel

/-- R221. -/
theorem test_sg_setfrz :
    ((after (.sgSetfrz 127) (note .decay 5)).egAt .op3).fDr = 0 ∧ ((after (.sgSetfrz 127) (note .decay 5)).egAt .op3).freeze = 127 := by
  decide +kernel

/-- R205 (`DEFAULT`). -/
theorem test_sg_setvib :
    ((after (.sgSetvib 64 0x00050000) { State.reset with sg := { State.reset.sg with sgRate := 44100 } }).oscAt .lfoVib).step =
      15217 := by decide +kernel

/-- R222, and E3: a depth of 128 is reserved. -/
theorem test_sg_settrm :
    ((after (.sgSettrm 64 0x00020000) { blank with sg := { blank.sg with sgRate := 8 } }).oscAt .lfoTrm).step = 65536 ∧
    after (.sgSettrm 128 0x00020000) blank = blank := by decide +kernel

/-- R261. -/
theorem test_sg_reset : after .sgReset { note .decay 5 with rsp := 9 } = blank := by decide

/-- R99, R241, R261: a reserved word and the `RESET` input, as steps. -/
theorem test_step_events :
    (match step { note .decay 5 with rsp := 9, host := [.command 0x1740000000000000#64] } with
      | .next t => t == note .decay 5
      | .fault _ => false
      | .refused _ => false) = true ∧
    (match step { note .decay 5 with host := [.reset] } with
      | .next t => t == blank
      | .fault _ => false
      | .refused _ => false) = true := by decide +kernel

/-! ### Witnesses for the hypotheses of the statements -/

theorem t8_levelsFit : LevelsFit blank.config := by show t8Exp 15 < 2 ^ 31; decide

/-- A unit as `EG.INIT` leaves it, at any level up to that of G1's fifth sample, meets the invariant. -/
theorem noteEg_inv {st : EgState} {cur : BitVec 32} (hn : noteEg .attack 0 ≠ Eg.reset)
    (h : linearState st = true → cur.toNat ≤ 40000) : EgInv t8Config (noteEg st cur) :=
  have hi := egInv_egInit t8Config_valid 7 15 3 15 2 0 Eg.reset
  have hs : 40000 < (noteEg .attack 0).fTl.toNat + (noteEg .attack 0).fAr.toNat := by decide +kernel
  egInv_with_level hi hn st cur fun hl =>
    lt_of_le_of_lt (h hl) (hs.trans_le (Nat.add_le_add_left ((hi.latched rfl).fAr_le_top t8Config_valid) _))

theorem note_inv {st : EgState} {cur : BitVec 32} (h : linearState st = true → cur.toNat ≤ 40000) : (note st cur).Inv := by
  intro e; cases e <;> exact noteEg_inv (by decide +kernel) h

theorem witness_StepRunsDecodedCommand :
    let s : State := { blank with host := [.command 0x3600000000000040#64, .reset] }
    s.host = .command 0x3600000000000040#64 :: [.reset] ∧ decode 0x3600000000000040#64 = .ok (.sgSetdamper 64) ∧
    State.reset.host = [] := ⟨rfl, by decide, rfl⟩

/-- The five cases of R99, the last two at the first value beyond the range. -/
theorem witness_ReservedWordIgnored :
    ReservedWord 0x0500000000000000#64 ∧ ReservedWord 0x0270000000000000#64 ∧ ReservedWord 0x1100000000100000#64 ∧
    ReservedWord 0x1300000000003F02#64 ∧ ReservedWord 0x3A00008000020000#64 ∧ ¬ ReservedWord 0x1300000000003F01#64 ∧
    State.host { blank with host := [.command 0x0500000000000000#64] } = .command 0x0500000000000000#64 :: [] := by
  refine ⟨?_, ?_, ?_, ?_, ?_, ?_, rfl⟩ <;> simp only [ReservedWord] <;> decide

theorem witness_DecodeEncodeAgree :
    (Instr.egSethold .op4 16129).WellFormed ∧ (Instr.sgSettrm 127 0xFFFFFFFF).WellFormed ∧
    (Instr.oscNextm .lfoTrm 0x80000000).WellFormed := by decide

theorem witness_EncodeDecodeAgree : decode 0x1300000000003F01#64 = .ok (.egSethold .op1 16129) := by decide

theorem witness_ByteTransport :
    7 < 8 ∧ 3 < 4 ∧ commandOfBytes [1, 2, 3, 4, 5, 6, 7, 8] = some 0x0807060504030201#64 ∧
    responseOfBytes [0xFE, 0xFF, 0xFF, 0xFF] = some 0xFFFFFFFE#32 := by decide

theorem witness_TableIndexInRange :
    t8Config.Valid ∧ EgInv t8Config (noteEg .attackRelease 32766) ∧ linearState (noteEg .attackRelease 32766).st = true ∧
    7 < t8Config.sineDiv :=
  ⟨t8Config_valid, noteEg_inv (by decide +kernel) (fun _ => by decide), rfl, by decide⟩

theorem witness_RegisterWriters :
    (∃ t, exec (.oscNext .osc2) (note .finished 5) = .next t) ∧ writesPos (.oscNext .osc2) .osc1 = false ∧
    writesStep (.oscNext .osc2) .osc2 = false ∧ constructs (.oscNext .osc2) .op1 = false ∧
    ((note .finished 5).egAt .op1).st = .finished := ⟨⟨_, rfl⟩, by decide +kernel⟩

theorem witness_OscNextSample : ((oscState .t8 5 0).oscAt .osc1).step = 0 := rfl

/-- The greatest modulation that is none, and one of whole turns. -/
theorem witness_OscNextmCorners :
    (BitVec.toInt (8191#32)).natAbs * (oscState .t8 0 32768).config.sineDiv < (oscState .t8 0 32768).config.modFull ∧
    ((oscState .t8 0 32768).config.modFull : Int) ∣ BitVec.toInt (BitVec.ofInt 32 (-65536)) := by decide +kernel

/-- The clauses of OSC.ADDPH: one step, no offset, a stopped oscillator. -/
theorem witness_OscAddphMove :
    (65536#32 = 65536) ∧ (0#32 = 0 ∨ ((oscState .t8 5 7).oscAt .osc1).step = 0) ∧
    (1#32 = 0 ∨ ((oscState .t8 5 0).oscAt .osc1).step = 0) := by decide

/-- A stopped oscillator repeats after one sample, one of step 2^31 after two. -/
theorem witness_OscSampleSequence :
    1 ≤ 1 ∧ 2 ^ 32 / Nat.gcd ((oscState .t8 5 0x80000000).oscAt .osc1).step.toNat (2 ^ 32) = 2 ∧
    ∃ v, execAll (List.replicate (1 + 2) (.oscNext .osc1)) (oscState .t8 5 0x80000000) = .next v :=
  ⟨by decide, by decide, _, rfl⟩

theorem witness_EgSetholdStores :
    (16129#15).toNat ≤ 16129 ∧ (16129#15).toNat = 16129 ∧ 16129 < (16130#15).toNat := by decide

theorem witness_EgUpdateLatches : (note .attack 32766).Inv ∧ (note .attack 32766).egAt .op1 ≠ Eg.reset :=
  ⟨note_inv (fun _ => by decide), by decide +kernel⟩

theorem witness_EgKeyoffReleases :
    ((note .attack 0).egAt .op1).st = .attack ∧ ((note .decay 0).egAt .op1).st = .decay ∧
    ((note .sastain 0).egAt .op1).st = .sastain ∧
    ∀ x ∈ [EgState.release, .attackRelease, .decayRelease, .soundoff, .finished],
      ((note x 0).egAt .op1).st ∈ [EgState.release, .attackRelease, .decayRelease, .soundoff, .finished] := by decide +kernel

theorem witness_EgSndoffJumps :
    ((note .finished 1).egAt .op2).st = .finished ∧
    (((note .soundoff 1).egAt .op2).st ≠ .finished ∧ linearState ((note .soundoff 1).egAt .op2).st = false) ∧
    (linearState ((note .attackRelease 0x7FFFFFFF).egAt .op2).st = true ∧
      ((note .attackRelease 0x7FFFFFFF).egAt .op2).cur.toNat < 2 ^ 31) := by decide +kernel

/-- One below the peak, and at it. -/
theorem witness_EgNextAttack :
    ((note .attack 32766).Inv ∧ linearState ((note .attack 32766).egAt .op1).st = true ∧
      ((note .attack 32766).egAt .op1).cur.toNat < ((note .attack 32766).egAt .op1).fTl.toNat) ∧
    ((note .attackRelease 32767).Inv ∧ linearState ((note .attackRelease 32767).egAt .op1).st = true ∧
      ((note .attackRelease 32767).egAt .op1).fTl.toNat ≤ ((note .attackRelease 32767).egAt .op1).cur.toNat) ∧
    (∃ u, exec (.egSetrate .op1 8) (note .attack 32766) = .next u ∧ constructs (.egSetrate .op1 8) .op1 = false) :=
  ⟨⟨note_inv (fun _ => by decide), by decide +kernel⟩, ⟨note_inv (fun _ => by decide), by decide +kernel⟩, ⟨_, rfl, rfl⟩⟩

/-- One above `FSL` + decrement = 917500, and at it. -/
theorem witness_EgNextDecay :
    (((note .decay 917501).egAt .op1).st = .decay ∧ 65536 = ((note .decay 917501).egAt .op1).fDr.toNat ∧
      ((note .decay 917501).egAt .op1).fSl.toNat + 65536 < ((note .decay 917501).egAt .op1).cur.toNat) ∧
    (((note .decayRelease 917500).egAt .op1).st = .decayRelease ∧
      65536 = max ((note .decayRelease 917500).egAt .op1).fDr.toNat ((note .decayRelease 917500).egAt .op1).fRr.toNat ∧
      ((note .decayRelease 917500).egAt .op1).cur.toNat ≤ ((note .decayRelease 917500).egAt .op1).fSl.toNat + 65536) := by
  decide +kernel

/-- Codes at which one more sample decodes to 2, to 1, and is exhausted. -/
theorem witness_EgNextFade :
    (((note .sastain 81920).egAt .op1).st = .sastain ∧ 16384 = ((note .sastain 81920).egAt .op1).fSr.toNat ∧
      16384 < ((note .sastain 81920).egAt .op1).cur.toNat ∧ 1 < decoded (note .sastain 81920).config (81920 - 16384)) ∧
    (16384 < ((note .sastain 81919).egAt .op1).cur.toNat ∧ decoded (note .sastain 81919).config (81919 - 16384) ≤ 1) ∧
    (((note .soundoff 262144).egAt .op1).st = .soundoff ∧ 262144 = ((note .soundoff 262144).egAt .op1).fOr.toNat ∧
      ((note .soundoff 262144).egAt .op1).cur.toNat ≤ 262144) := by decide +kernel

theorem witness_EgNextRelease :
    ((note .finished 7).egAt .op3).st = .finished ∧
    (((note .release 65537).egAt .op3).st = .release ∧
      ((note .release 65537).egAt .op3).fRr.toNat < ((note .release 65537).egAt .op3).cur.toNat) ∧
    (((note .release 65536).egAt .op3).st = .release ∧
      ((note .release 65536).egAt .op3).cur.toNat ≤ ((note .release 65536).egAt .op3).fRr.toNat) := by decide +kernel

theorem witness_EnvelopeTransitions :
    (∃ t, exec .sgNext (note .release 65536) = .next t) ∧ advances .sgNext .op3 = true ∧ keysOff .sgKeyoff .op3 = true ∧
    soundsOff (.egSndoff .op3) .op3 = true ∧ constructs (.egInit .op3 0 0 0 0 0 0) .op3 = true ∧
    advances (.egNext .op1) .op3 = false := ⟨⟨_, rfl⟩, by decide⟩

theorem witness_EnvelopeNeverRegresses :
    (∃ t, exec (.egNext .op1) (note .decay 917500) = .next t ∧ advances (.egNext .op1) .op1 = true) ∧
    (∃ t, exec .sgKeyoff (note .decay 917500) = .next t ∧ ((note .decay 917500).egAt .op1).st ∈ playingChain ∧
      (t.egAt .op1).st ∈ releasedChain ∧ (t.egAt .op1).st ≠ .finished) ∧
    (∃ t, exec (.egInit .op1 7 15 3 15 2 0) (note .release 5) = .next t ∧ ((note .release 5).egAt .op1).st ∈ releasedChain ∧
      (t.egAt .op1).st ∈ playingChain ∧ (t.egAt .op1).st ≠ .finished) :=
  ⟨⟨_, rfl, rfl⟩, ⟨_, rfl, by decide +kernel⟩, ⟨_, rfl, by decide +kernel⟩⟩

theorem witness_LevelNonIncreasing :
    ∃ s1 s2 s3, (note .decay 983036).Inv ∧ LevelsFit (note .decay 983036).config ∧
      linearState ((note .decay 983036).egAt .op1).st = false ∧
      (∀ i ∈ [Instr.egKeyoff .op1, .egSetrate .op1 8], constructs i .op1 = false) ∧
      exec (.egNext .op1) (note .decay 983036) = .next s1 ∧
      execAll [.egKeyoff .op1, .egSetrate .op1 8] s1 = .next s2 ∧ exec (.egNext .op1) s2 = .next s3 :=
  ⟨_, _, _, note_inv nofun, t8_levelsFit, by decide +kernel, by decide, rfl, rfl, rfl⟩

theorem after_inv {i : Instr} {s : State} (h : s.Inv) (hi : ∃ t, exec i s = .next t) : (after i s).Inv := by
  obtain ⟨t, ht⟩ := hi
  rw [show after i s = t by simp [after, ht]]
  exact exec_inv ht h

/-- Each clause at its least level: a held unit in SASTAIN whose output is 2, a frozen one in RELEASE whose output is the threshold, a held one
in DECAY_RELEASE one code above `FSL`, and a held one in RELEASE below the threshold. -/
theorem witness_HeldNoteStays :
    ∃ s1 s2 s3 s4 : State,
      (s1.Inv ∧ (s1.egAt .op1).hold.toNat = 16129 ∧ (s1.egAt .op1).st ∈ [EgState.decay, .sastain] ∧
        decoded s1.config (s1.egAt .op1).cur.toNat = 2) ∧
      (s2.Inv ∧ (s2.egAt .op1).freeze.toNat = 127 ∧ (s2.egAt .op1).st ∈ [EgState.decayRelease, .release] ∧
        decoded s2.config (s2.egAt .op1).cur.toNat = s2.config.soundoffLevel) ∧
      (s3.Inv ∧ (s3.egAt .op1).hold.toNat = 16129 ∧ (s3.egAt .op1).st ∈ [EgState.decay, .decayRelease] ∧
        (s3.egAt .op1).cur.toNat = (s3.egAt .op1).fSl.toNat + 1) ∧
      (s4.Inv ∧ (s4.egAt .op1).hold.toNat = 16129 ∧ (s4.egAt .op1).st = .release ∧ (s4.egAt .op1).cur.toNat = 1 ∧
        decoded s4.config (s4.egAt .op1).cur.toNat < s4.config.soundoffLevel) :=
  ⟨after (.egSethold .op1 16129) (note .sastain 65536), after (.sgSetfrz 127) (note .release 262144),
    after (.egSethold .op1 16129) (note .decayRelease 851965), after (.egSethold .op1 16129) (note .release 1),
    ⟨after_inv (note_inv nofun) ⟨_, rfl⟩, by decide +kernel⟩, ⟨after_inv (note_inv nofun) ⟨_, rfl⟩, by decide +kernel⟩,
    ⟨after_inv (note_inv nofun) ⟨_, rfl⟩, by decide +kernel⟩, ⟨after_inv (note_inv nofun) ⟨_, rfl⟩, by decide +kernel⟩⟩

theorem witness_ReleaseFinishes :
    (note .attack 40000).Inv ∧ ((note .attack 40000).egAt .op1).hold = 0 ∧ ((note .attack 40000).egAt .op1).freeze = 0 :=
  ⟨note_inv (fun _ => by decide), by decide +kernel⟩

/-- A code of 0 takes one sample, a code of 2 at most two. -/
theorem witness_SoundOffFinishes :
    ∃ s1 s2 v1 v2, (note .decay 0).Inv ∧ exec (.egSndoff .op1) (note .decay 0) = .next s1 ∧
      execAll [.egNext .op1] s1 = .next s2 ∧
      max 1 (s1.egAt .op1).cur.toNat ≤ [Instr.egNext .op1].countP (fun i => advances i .op1) ∧
      (note .decay 2).Inv ∧ exec (.egSndoff .op1) (note .decay 2) = .next v1 ∧
      execAll [.egNext .op1, .egKeyoff .op1, .sgNext] v1 = .next v2 ∧
      (∀ i ∈ [Instr.egNext .op1, .egKeyoff .op1, .sgNext], constructs i .op1 = false) ∧
      max 1 (v1.egAt .op1).cur.toNat ≤ [Instr.egNext .op1, .egKeyoff .op1, .sgNext].countP (fun i => advances i .op1) :=
  ⟨_, _, _, _, note_inv nofun, rfl, rfl, by decide +kernel, note_inv nofun, rfl, rfl, by decide, by decide +kernel⟩

/-- The hypotheses on `mul` and `det` are met at `ML` = 0 and at `DT` = 7. -/
theorem witness_OpSetfreqTunes :
    ((opState 0 7 0).opAt .op1).ml.toNat = 0 ∧ ¬ ((opState 0 7 0).opAt .op1).dt.toNat < 4 ∧
    ((opState 15 3 0).opAt .op1).ml.toNat ≠ 0 ∧ ((opState 15 3 0).opAt .op1).dt.toNat < 4 := by decide +kernel

theorem witness_OpNextSample :
    ∃ t1 t2, exec (.oscNext OpId.op1.osc) (note .attack 32766) = .next t1 ∧ exec (.egNext .op1) (note .attack 32766) = .next t2 ∧
      (note .attack 32766).Inv ∧ LevelsFit (note .attack 32766).config :=
  ⟨_, _, rfl, rfl, note_inv (fun _ => by decide), t8_levelsFit⟩

theorem witness_OpNextmSample :
    ∃ t1 t2, exec (.oscNextm OpId.op1.osc 0x80000000) (note .attack 32766) = .next t1 ∧
      exec (.egNext .op1) (note .attack 32766) = .next t2 ∧ (note .attack 32766).Inv ∧ LevelsFit (note .attack 32766).config :=
  ⟨_, _, rfl, rfl, note_inv (fun _ => by decide), t8_levelsFit⟩

theorem witness_OpNextamSample :
    (∃ t1, exec (.opNextm .op1 0x80000000) (note .attack 32766) = .next t1) ∧ (note .attack 32766).Inv ∧
    LevelsFit (note .attack 32766).config ∧ ((note .attack 32766).opAt .op1).ams = 0 :=
  ⟨⟨_, rfl⟩, note_inv (fun _ => by decide), t8_levelsFit, rfl⟩

theorem witness_OperatorSampleForms : ((note .finished 5).egAt .op2).st = .finished := by decide +kernel

theorem witness_SgSetfreqTunes : ∃ u, exec (.opSetfreq .op3 0x00010000 8) (note .attack 5) = .next u := ⟨_, rfl⟩

/-- The greatest legal tremolo depth, and the first reserved one. -/
theorem witness_VibratoAndTremoloStore : (127#13).toNat ≤ 127 ∧ 127 < (128#13).toNat := by decide

theorem witness_SgForwardsToEnvelopes :
    (∃ u, exec (.egKeyoff .op2) (note .decay 5) = .next u) ∧ (∃ u, exec (.egSndoff .op2) (note .attack 5) = .next u) ∧
    ∃ u, exec (.egSetfrz .op2 127) (note .decay 5) = .next u := ⟨⟨_, rfl⟩, ⟨_, rfl⟩, ⟨_, rfl⟩⟩

theorem witness_PedalsSetHold :
    ∃ u, exec (.egSethold .op2 (holdNumerator 127 0)) (note .decay 5) = .next u := by
  rw [show holdNumerator 127 0 = 16129 by decide]; exact ⟨_, rfl⟩

/-- Each LFO's effect on and off. -/
theorem witness_SgNextSample :
    let on : State := { blank with sg := { blank.sg with vibDepth := 1, trmDepth := 1 }, op := { blank.op with op4 := ⟨0, 0, 0, 1, 0⟩ } }
    on.sg.vibDepth ≠ 0 ∧ (∃ o, (on.opAt o).ams ≠ 0) ∧ on.sg.trmDepth ≠ 0 ∧
    blank.sg.vibDepth = 0 ∧ (¬ ∃ o, (blank.opAt o).ams ≠ 0) ∧ blank.sg.trmDepth = 0 := by
  refine ⟨by decide, ⟨.op4, by decide⟩, by decide, rfl, ?_, rfl⟩
  rintro ⟨o, h⟩; cases o <;> exact h rfl

/-- Two states that differ in what a plain voice does not depend on. -/
theorem witness_PlainVoiceDependsOnOperators :
    let s := note .attack 5
    let s' : State := { s with osc := { s.osc with lfoVib := ⟨1, 2⟩ }, sg := { s.sg with damper := 3, vibFreq := 4 }, rsp := 5 }
    s'.cfg = s.cfg ∧ s'.sg.alg = s.sg.alg ∧ s'.sg.fb = s.sg.fb ∧ s'.sg.fbReg = s.sg.fbReg ∧
    (∀ o : OpId, s'.oscAt o.osc = s.oscAt o.osc ∧ s'.egAt o = s.egAt o ∧ (s.opAt o).ams = 0 ∧ (s'.opAt o).ams = 0) ∧
    s.sg.vibDepth = 0 ∧ s'.sg.vibDepth = 0 ∧ s.sg.trmDepth = 0 ∧ s'.sg.trmDepth = 0 ∧ s' ≠ s := by
  refine ⟨rfl, rfl, rfl, rfl, fun o => ?_, rfl, rfl, rfl, rfl, fun h => ?_⟩
  · cases o <;> exact ⟨rfl, rfl, rfl, rfl⟩
  · exact absurd (congrArg State.rsp h) (by decide)

theorem witness_DefaultAlgorithms : ConfigName.dflt ∈ [ConfigName.dflt, .t8] ∧ ConfigName.t8 ∈ [ConfigName.dflt, .t8] := by decide

theorem witness_SgFinReads :
    (note .finished 0).sg.alg = 0 ∧ State.sg { note .decay 5 with sg := { blank.sg with alg := 7 } } = { blank.sg with alg := 7 } :=
  ⟨rfl, rfl⟩

theorem witness_FinishedVoiceSilent :
    ∃ s1 s2, sgFinished blank = true ∧
      (∀ i ∈ [Instr.sgKeyoff, .sgNext], (∀ e, constructs i e = false) ∧ ∀ alg fb lfo, i ≠ .sgConfig alg fb lfo) ∧
      execAll [.sgKeyoff, .sgNext] blank = .next s1 ∧ exec .sgNext s1 = .next s2 :=
  ⟨_, _, by decide, by simp [constructs], rfl, rfl⟩

/-- A command that keeps `SGFIN`, and an SG.CONFIG with the same carriers (ALG 1 after ALG 0). -/
theorem witness_SgFinMonotone :
    (∃ t, exec .sgNext blank = .next t) ∧ sgFinished blank = true ∧ (∀ e, constructs .sgNext e = false) ∧
    (∃ t, exec (.sgConfig 1 7 0) blank = .next t) ∧ (∀ e, constructs (.sgConfig 1 7 0) e = false) ∧
    (blank.config.algTable 1).c = (blank.config.algTable blank.sg.alg).c :=
  ⟨⟨_, rfl⟩, by decide, fun _ => rfl, ⟨_, rfl⟩, fun _ => rfl, by decide⟩

theorem witness_FeedbackAmounts :
    t8Config.Valid ∧ blank.config.fbPreshift = 0 ∧ blank.sg.fb = 0 ∧ blank.cfg ≠ .given ∧
    State.config { blank with sg := { blank.sg with fb := 7 } } = t8Config ∧ t8Config.fbPreshift = 0 :=
  ⟨t8Config_valid, rfl, rfl, by decide, rfl, rfl⟩

theorem witness_GainBounds :
    (-256 ≤ (-256 : Int) ∧ (-256 : Int) ≤ 255) ∧ (-256 ≤ (255 : Int) ∧ (255 : Int) ≤ 255) ∧ t8Config.Valid ∧ 7 < t8Config.sineDiv ∧
    (0#7 = 0) := ⟨by decide, by decide, t8Config_valid, by decide, rfl⟩

theorem witness_KeyedOffVoiceFinishes :
    (note .attack 40000).Inv ∧ ∀ e, ((note .attack 40000).egAt e).hold = 0 ∧ ((note .attack 40000).egAt e).freeze = 0 := by
  refine ⟨note_inv (fun _ => by decide), fun e => ?_⟩
  cases e <;> decide +kernel

theorem witness_PinResetsRegisters : State.host { note .decay 5 with host := [.reset, .command 0] } = .reset :: [.command 0] := rfl

theorem witness_ResetBlockSilent :
    RegistersReset State.reset ∧ (∃ t, exec .sgNext State.reset = .next t) ∧ ∀ e, constructs .sgNext e = false := by
  refine ⟨⟨?_, ?_, ?_, rfl⟩, ⟨_, rfl⟩, fun _ => rfl⟩
  · intro u; cases u <;> rfl
  · intro e; cases e <;> rfl
  · intro o; cases o <;> rfl

/-- A block as reset left it and one in mid-note, with the words of one note to come in the listed order and in another. -/
theorem witness_NoteOnForgetsThePast :
    let p : VoiceParams := ⟨4, 7, 0, voiceParams 1 0, voiceParams 1 0, voiceParams 2 0, voiceParams 1 0⟩
    let ws := expand (.noteOn p 60 0x00010000 8)
    let ws' := ((voiceLoadCommands p 60).reverse ++ [Instr.sgSetfreq 0x00010000 8]).map encode
    let s : State := { blank with host := ws.map HostEvent.command ++ [.reset] }
    let s' : State := { note .decay 917500 with host := ws'.map HostEvent.command ++ [.reset], rsp := 5 }
    s.cfg = s'.cfg ∧ Expansion (.noteOn p 60 0x00010000 8) ws ∧ Expansion (.noteOn p 60 0x00010000 8) ws' ∧ ws ≠ ws' ∧
    s.host = ws.map HostEvent.command ++ [.reset] ∧ s'.host = ws'.map HostEvent.command ++ [.reset] ∧ s.rsp ≠ s'.rsp :=
  ⟨rfl, expansion_expand _, ⟨_, List.reverse_perm _, rfl⟩, by decide +kernel, rfl, rfl, by decide⟩

/-- A rise at the last level below the peak; a rate that raises `FAR` at an overshot level, and one that lowers it below the peak (G12);
a sample after R37 (d) is lost, and a command that sets no rate. -/
theorem witness_StepKeepsInvariant :
    let s : State := { note .attack 32766 with host := [.command 0x1700000000000000#64] }
    let s' : State := { after (.egSetrate .op1 8) (note .attack 33766) with host := [.command 0x1100000000000004#64] }
    let s'' : State := { note .attack 16000 with host := [.command 0x1100000000000004#64] }
    let s3 : State := after (.egSetrate .op1 8) (note .attack 40000)
    (∃ t, s.Inv ∧ step s = .next t ∧ (s.egAt .op1).fAr.toNat ≤ (t.egAt .op1).fAr.toNat ∧ AttackBelowSum (s.egAt .op1)) ∧
    (∃ t, s'.Inv ∧ step s' = .next t ∧ (s'.egAt .op1).fAr.toNat < (t.egAt .op1).fAr.toNat ∧ AttackBelowSum (s'.egAt .op1)) ∧
    (∃ t, s''.Inv ∧ step s'' = .next t ∧ (t.egAt .op1).fAr.toNat < (s''.egAt .op1).fAr.toNat ∧
      (s''.egAt .op1).cur.toNat < (s''.egAt .op1).fTl.toNat ∧ AttackBelowSum (s''.egAt .op1)) ∧
    (∃ t, s3.Inv ∧ exec (.egNext .op1) s3 = .next t ∧ advances (.egNext .op1) .op1 = true ∧ ¬ AttackBelowSum (s3.egAt .op1)) ∧
    ∃ t, s.Inv ∧ exec (.egKeyoff .op1) s = .next t ∧ setsRate (.egKeyoff .op1) .op1 = false ∧ AttackBelowSum (s.egAt .op1) := by
  have h : AttackBelowSum ((note .attack 32766).egAt .op1) := fun _ => by decide +kernel
  have h' : AttackBelowSum ((after (.egSetrate .op1 8) (note .attack 33766)).egAt .op1) := fun _ => by decide +kernel
  have h'' : AttackBelowSum ((note .attack 16000).egAt .op1) := fun _ => by decide +kernel
  have h3 : ¬ AttackBelowSum ((after (.egSetrate .op1 8) (note .attack 40000)).egAt .op1) := fun hb =>
    absurd (hb rfl) (by decide +kernel)
  exact ⟨⟨_, note_inv (fun _ => by decide), rfl, by decide +kernel, h⟩,
    ⟨_, after_inv (note_inv (fun _ => by decide)) ⟨_, rfl⟩, rfl, by decide +kernel, h'⟩,
    ⟨_, note_inv (fun _ => by decide), rfl, by decide +kernel, by decide +kernel, h''⟩,
    ⟨_, after_inv (note_inv (fun _ => by decide)) ⟨_, rfl⟩, rfl, rfl, h3⟩, ⟨_, note_inv (fun _ => by decide), rfl, rfl, h⟩⟩

/-- A sample has overshot the peak (G1, sample 5) and the host is about to lower the attack rate. -/
theorem witness_AttackLevelBelowSum :
    let s : State := { note .attack 40000 with host := [.command 0x1100000000000008#64] }
    ∃ t, s.Inv ∧ (∀ e, AttackBelowSum (s.egAt e)) ∧ step s = .next t ∧ (t.egAt .op1).fAr.toNat < (s.egAt .op1).fAr.toNat := by
  have h : ∀ e, AttackBelowSum ((note .attack 40000).egAt e) := fun e _ => by cases e <;> decide +kernel
  exact ⟨_, note_inv (fun _ => by decide), h, rfl, by decide +kernel⟩

end Sys2Proof.Machine.Tests
end

section
/-! What one step can do (20_memory.md R70), and the statements of 10_state.md: the invariant R37, what R37 (d) says word for word, and
which commands write each register (R25, R26, R28, R31). -/

namespace Sys2Proof.Machine

open Sys2Proof

/-! ### One step -/

/-- All that a step can be: idling, the `RESET` input, a command, or a reserved word. -/
theorem step_cases {s t : State} (h : step s = .next t) :
    (s.host = [] ∧ t = s) ∨
    ∃ ev rest, s.host = ev :: rest ∧
      ((ev = .reset ∧ t = pinReset { s with host := rest }) ∨
        ∃ w, ev = .command w ∧
          ((∃ i, decode w = .ok i ∧ exec i { s with host := rest } = .next t) ∨
            ∃ r, decode w = .error r ∧ t = ignoreReserved { s with host := rest })) := by
  unfold step takeEvent at h
  cases hh : s.host with
  | nil =>
    rw [hh] at h
    exact .inl ⟨rfl, by cases h; rfl⟩
  | cons ev rest =>
    rw [hh] at h
    refine .inr ⟨ev, rest, rfl, ?_⟩
    cases ev with
    | reset => exact .inl ⟨rfl, by cases h; rfl⟩
    | command w =>
      refine .inr ⟨w, rfl, ?_⟩
      cases hd : decode w with
      | ok i => exact .inl ⟨i, rfl, by simpa only [hd] using h⟩
      | error r =>
        simp only [hd] at h
        exact .inr ⟨r, rfl, by cases h; rfl⟩

/-- No step touches the configuration (R63, R260). -/
theorem step_config {s t : State} (h : step s = .next t) : t.config = s.config := by
  obtain ⟨-, rfl⟩ | ⟨ev, rest, -, ⟨-, rfl⟩ | ⟨w, -, ⟨i, -, hi⟩ | ⟨r, -, rfl⟩⟩⟩ := step_cases h
  · rfl
  · rfl
  · exact exec_config (s := { s with host := rest }) hi
  · rfl

/-- To the envelopes a step is always some command: SG.RESET stands for the `RESET` input, and SG.FIN, which changes no register, for
idling and for a reserved word. -/
theorem step_egChange {s t : State} (h : step s = .next t) :
    ∃ i, ∀ e, EgChange s.config i e (s.egAt e) (t.egAt e) := by
  have unchanged : ∀ e x, EgChange s.config .sgFin e x x := fun _ _ => .keep rfl rfl rfl rfl nofun
  obtain ⟨-, rfl⟩ | ⟨ev, rest, -, ⟨-, rfl⟩ | ⟨w, -, ⟨i, -, hi⟩ | ⟨r, -, rfl⟩⟩⟩ := step_cases h
  · exact ⟨.sgFin, fun e => unchanged e _⟩
  · refine ⟨.sgReset, fun e => ?_⟩
    rw [pinReset, egAt_resetRegisters]
    exact .reset rfl
  · exact ⟨i, exec_egChange (s := { s with host := rest }) hi⟩
  · exact ⟨.sgFin, fun e => unchanged e _⟩

/-! ### The invariant (R37) -/

/-- Resetting the registers meets the invariant whatever the state was. -/
theorem resetRegisters_inv (s : State) : (resetRegisters s).Inv := fun e => by
  rw [egAt_resetRegisters]
  exact egInv_reset _

theorem registersReset_resetRegisters (s : State) : RegistersReset (resetRegisters s) :=
  ⟨oscAt_resetRegisters s, egAt_resetRegisters s, opAt_resetRegisters s, sg_resetRegisters s⟩

/-- Settles O58: the reset state is what resetting its own registers gives. -/
theorem resetMeetsInvariant : Obligations.ResetMeetsInvariant :=
  ⟨resetRegisters_inv State.reset, registersReset_resetRegisters State.reset⟩

/-- The invariant is kept by every step, the `RESET` input and reserved words included. -/
theorem step_inv {s t : State} (h : step s = .next t) (hs : s.Inv) : t.Inv := fun e => by
  obtain ⟨i, hi⟩ := step_egChange h
  rw [step_config h]
  exact (hi e).keeps_inv (configOf_valid s.cfg) (hs e)

/-- A step that does not lower `FAR`, or that finds the level below the peak, keeps R37 (d) as worded. -/
theorem step_belowSum {s t : State} (h : step s = .next t) (hs : s.Inv) {e : OpId}
    (he : (s.egAt e).fAr.toNat ≤ (t.egAt e).fAr.toNat ∨ (s.egAt e).cur.toNat < (s.egAt e).fTl.toNat)
    (hb : AttackBelowSum (s.egAt e)) : AttackBelowSum (t.egAt e) := by
  obtain ⟨i, hi⟩ := step_egChange h
  exact (hi e).keeps_belowSum (configOf_valid s.cfg) (hs e) (.inr he) hb

/-- Settles O59: every change a command can make of a unit keeps the invariant, and to the envelopes every step is a command. -/
theorem stepKeepsInvariant : Obligations.StepKeepsInvariant := by
  refine ⟨fun s t hs h => ⟨step_inv h hs, fun e => step_belowSum h hs⟩, fun i s t e hs h hi => ?_⟩
  have hc := exec_egChange h e
  obtain ha | ⟨hr, hb⟩ := hi
  · exact hc.belowSum_of_advances (configOf_valid s.cfg) (hs e) ha
  · exact hc.keeps_belowSum (configOf_valid s.cfg) (hs e) (.inl hr) hb

/-! ### R37 (d) as worded, past the peak (assumption 18) -/

/-- EG1 as 95_test_vectors.md G1 constructs it in `T8`, after the sample that passes the peak: `FTL` = 32767, `FAR` = 8000. -/
def overshotEg : Eg := { egInit t8Config 7 15 3 15 2 0 Eg.reset with cur := 40000 }

/-- A `T8` block with that envelope, to which the host presents `EG.SETRATE EG1, 8`. -/
def overshotState : State :=
  { State.reset with
    cfg := .t8
    eg := { State.reset.eg with eg1 := overshotEg }
    host := [.command 0x1100000000000008#64] }

theorem overshotEg_belowSum : AttackBelowSum overshotEg := fun _ => by decide +kernel

/-- A unit whose latched registers agree with its parameters and that meets R37 (d) as worded meets the invariant. -/
theorem egInv_of_belowSum {c : Config} (hc : c.Valid) {e : Eg} (hh : e.hold.toNat ≤ 16129) (hl : EgLatched c e)
    (hb : AttackBelowSum e) : EgInv c e :=
  ⟨hh, .inr hl, fun h => (hb h).trans_le (Nat.add_le_add_left (hl.fAr_le_top hc) _)⟩

theorem overshotEg_inv : EgInv t8Config overshotEg :=
  egInv_of_belowSum t8Config_valid (by decide) (egLatched_with_level (updateParams_latched t8Config_valid _) .attack 40000)
    overshotEg_belowSum

theorem overshotState_inv : overshotState.Inv
  | .op1 => overshotEg_inv
  | .op2 | .op3 | .op4 => egInv_reset _

theorem overshotState_belowSum : ∀ e, AttackBelowSum (overshotState.egAt e)
  | .op1 => overshotEg_belowSum
  | .op2 | .op3 | .op4 => nofun

/-- The step keeps `CUR` = 40000 and lowers `FAR` from 8000 to 1000 (41_envelope.md R149). -/
theorem step_overshotState :
    ∃ t, step overshotState = .next t ∧ (t.egAt .op1).st = .attack ∧
      ¬ (t.egAt .op1).cur.toNat < (t.egAt .op1).fTl.toNat + (t.egAt .op1).fAr.toNat :=
  ⟨_, step_command (i := .egSetrate .op1 8) (by decide) rfl, rfl, by decide +kernel⟩

/-- Refutes O60: `EG.SETRATE` lowers `FAR` under a level that has passed the peak, and 40000 is not below 32767 + 1000. -/
theorem not_attackLevelBelowSum : ¬ Obligations.AttackLevelBelowSum := by
  intro h
  obtain ⟨t, hstep, hst, hcur⟩ := step_overshotState
  exact hcur (h overshotState t overshotState_inv overshotState_belowSum hstep .op1 (by rw [hst]; rfl))

/-! ### Which commands write an oscillator (R25) -/

/-- `y` differs from `x`, what oscillator `u` held before command `i`, only in registers that R25 lets `i` write. -/
structure OscWrite (i : Instr) (u : OscId) (x y : Osc) : Prop where
  pos : writesPos i u = false → y.pos = x.pos
  step : writesStep i u = false → y.step = x.step

namespace OscWrite

variable {i : Instr} {u v : OscId} {x y : Osc}

theorem keep : OscWrite i u x x := ⟨fun _ => rfl, fun _ => rfl⟩

theorem of_eq (h : y = x) : OscWrite i u x y := h ▸ keep

/-- A command that may write the phase, and keeps the step. -/
theorem move (hw : writesPos i u = true) (h : y.step = x.step) : OscWrite i u x y :=
  ⟨fun hn => absurd hw (by simp [hn]), fun _ => h⟩

/-- A command that may write the step, and keeps the phase. -/
theorem tune (hw : writesStep i u = true) (h : y.pos = x.pos) : OscWrite i u x y :=
  ⟨fun _ => h, fun hn => absurd hw (by simp [hn])⟩

/-- A command that may write both. -/
theorem write (hp : writesPos i u = true) (hs : writesStep i u = true) : OscWrite i u x y :=
  ⟨fun hn => absurd hp (by simp [hn]), fun hn => absurd hs (by simp [hn])⟩

/-- A write of oscillator `v` needs the leave to write it only where `u` is `v`. -/
theorem setOsc {s : State} (hx : s.oscAt u = x) (h : u = v → OscWrite i u x y) : OscWrite i u x ((s.setOsc v y).oscAt u) := by
  rw [oscAt_setOsc, hx]
  split
  · exact h ‹_›
  · exact keep

/-- `OscSetCycle` writes the step of its unit. -/
theorem setCycleAt {s : State} {cycle : ℚ} (hx : s.oscAt u = x) (hw : u = v → writesStep i u = true) :
    OscWrite i u x ((oscSetCycleAt v cycle s).oscAt u) :=
  setOsc hx fun hu => tune (hw hu) (by rw [oscSetCycle_pos, ← hu, hx])

/-- An advance writes the phase of its unit. -/
theorem advanceAt {s : State} (hw : u = v → writesPos i u = true) :
    OscWrite i u (s.oscAt u) ((s.setOsc v (oscAdvance (s.oscAt v))).oscAt u) :=
  setOsc rfl fun hu => move (hw hu) (by rw [hu]; rfl)

/-- A sample of an operator advances its oscillator (42_operator.md R190). -/
theorem sampled {o : OpId} {s : State} (hw : u = o.osc → writesPos i u = true) :
    OscWrite i u (s.oscAt u) ((sampledState o s).oscAt u) := by
  rw [sampledState, oscAt_setEg]
  exact advanceAt hw

end OscWrite

/-- A change of the envelopes leaves the oscillators alone. -/
@[simp] theorem oscAt_forAllOps_onEg (g : Eg → Eg) (s : State) (u : OscId) :
    (forAllOps (fun o => onEg o g) s).oscAt u = s.oscAt u :=
  forAllOps_keeps (fun s => s.oscAt u) (fun o t => oscAt_onEg o g t u) s

/-- `OscSetCycle` on any unit keeps every phase. -/
@[simp] theorem pos_oscSetCycleAt (v u : OscId) (cycle : ℚ) (s : State) :
    ((oscSetCycleAt v cycle s).oscAt u).pos = (s.oscAt u).pos := by
  rw [oscSetCycleAt_eq, oscAt_setOsc]
  split
  · subst_vars; exact oscSetCycle_pos ..
  · rfl

@[simp] theorem pos_lfoSetFreq (v u : OscId) (f : ℚ) (s : State) : ((lfoSetFreq v f s).oscAt u).pos = (s.oscAt u).pos :=
  pos_oscSetCycleAt ..

@[simp] theorem pos_opSetFreqRateAt (o : OpId) (u : OscId) (f : ℚ) (rate : BitVec 20) (s : State) :
    ((opSetFreqRateAt o f rate s).oscAt u).pos = (s.oscAt u).pos := by
  simp [opSetFreqRateAt]

/-- Retuning the voice keeps every phase (43_soundgen.md R204). -/
theorem pos_sgSetFreq (f : ℚ) (rate : BitVec 20) (s : State) (u : OscId) :
    ((sgSetFreq f rate s).oscAt u).pos = (s.oscAt u).pos := by
  simp only [sgSetFreq, pos_lfoSetFreq]
  exact forAllOps_keeps (fun s => (s.oscAt u).pos) (fun o t => pos_opSetFreqRateAt o u f rate t) _

/-- Advancing any unit keeps every step. -/
theorem step_setOsc_advance (v u : OscId) (s : State) :
    ((s.setOsc v (oscAdvance (s.oscAt v))).oscAt u).step = (s.oscAt u).step := by
  rw [oscAt_setOsc]
  split
  · subst_vars; rfl
  · rfl

theorem step_oscAddPhAt (v u : OscId) (x : Int) (s : State) : ((oscAddPhAt v x s).oscAt u).step = (s.oscAt u).step := by
  rw [oscAddPhAt_eq, oscAt_setOsc]
  split
  · subst_vars; rfl
  · rfl

theorem step_sampledState (o : OpId) (s : State) (u : OscId) : ((sampledState o s).oscAt u).step = (s.oscAt u).step := by
  simp only [sampledState, oscAt_setEg, step_setOsc_advance]

theorem step_vibratoStep (s : State) (u : OscId) : ((vibratoStep s).oscAt u).step = (s.oscAt u).step := by
  by_cases h : s.sg.vibDepth = 0
  · rw [vibratoStep_off h]
  · rw [vibratoStep_on h]
    exact (forAllOps_keeps (fun s => (s.oscAt u).step) (fun o t => step_oscAddPhAt o.osc u _ t) _).trans (step_setOsc_advance ..)

theorem step_preSample (s : State) (u : OscId) : ((preSample s).oscAt u).step = (s.oscAt u).step := by
  rw [preSample, amStep_eq]
  split
  · exact (step_setOsc_advance ..).trans (step_vibratoStep s u)
  · exact step_vibratoStep s u

theorem step_algState (am : Option Int) (s : State) (u : OscId) : ((algState am s).oscAt u).step = (s.oscAt u).step := by
  simp only [algState, step_sampledState, oscAt_setSg]

theorem step_tremoloStep (s : State) (ret : Int) (u : OscId) : ((tremoloStep s ret).1.oscAt u).step = (s.oscAt u).step := by
  rw [tremoloStep_eq]
  split
  · rfl
  · exact step_setOsc_advance ..

/-- A sample of the voice moves phases and keeps every step (43_soundgen.md R212). -/
theorem step_sgNextSample (s : State) (u : OscId) : ((sgNextSample s).1.oscAt u).step = (s.oscAt u).step := by
  rw [sgNextSample_eq, step_tremoloStep, step_algState, step_preSample]

/-- No command writes a phase or a step but as R25 lists it. -/
theorem exec_oscWrite {i : Instr} {s t : State} (h : exec i s = .next t) (u : OscId) :
    OscWrite i u (s.oscAt u) (t.oscAt u) := by
  cases i
  case oscSetcyc v arg =>
    cases h
    exact .setCycleAt rfl fun hu => by simp [writesStep, hu]
  case oscNext v =>
    cases h
    exact .advanceAt fun hu => by simp [writesPos, hu]
  case oscNextm v arg =>
    cases h
    exact .advanceAt fun hu => by simp [writesPos, hu]
  case oscAddph v arg =>
    cases h
    exact .setOsc rfl fun hu => .move (by simp [writesPos, hu]) (by rw [hu]; rfl)
  case egSethold e holdn =>
    simp only [exec, execEgSethold] at h
    split at h <;> cases h <;> exact .of_eq (by simp [ignoreReserved])
  case opInit o p key =>
    cases h
    rw [oscAt_respond, opInitAt_eq, oscAt_setEg]
    exact .setOsc (oscAt_setOp ..) fun hu => .write (by simp [writesPos, hu]) (by simp [writesStep, hu])
  case opSetfreq o freq rate =>
    cases h
    rw [oscAt_respond, opSetFreqRateAt, oscAt_onEg]
    exact .setCycleAt rfl fun hu => by simp [writesStep, hu]
  case opNext o =>
    cases h
    rw [oscAt_respond, opNextAt_eq]
    exact .sampled fun hu => by simp [writesPos, hu]
  case opNextm o arg =>
    cases h
    rw [oscAt_respond, opNextMAt_eq]
    exact .sampled fun hu => by simp [writesPos, hu]
  case opNextam o amv mod =>
    cases h
    rw [oscAt_respond, opNextAmAt_eq]
    exact .sampled fun hu => by simp [writesPos, hu]
  case sgConfig alg fb lfo =>
    cases h
    obtain ⟨o, rfl⟩ | hu := oscId_cases u
    · exact .of_eq (by simp [sgConfigure])
    · exact .write (by obtain rfl | rfl | rfl := hu <;> rfl) (by obtain rfl | rfl | rfl := hu <;> rfl)
  case sgSetfreq freq rate =>
    cases h
    exact .tune rfl (pos_sgSetFreq ..)
  case sgNext =>
    cases h
    exact .move rfl (step_sgNextSample s u)
  case sgSetvib depth freq =>
    cases h
    rw [oscAt_respond, sgSetVib, lfoSetFreq]
    exact .setCycleAt (oscAt_setSg ..) fun hu => by simp [writesStep, hu]
  case sgSettrm depth freq =>
    simp only [exec, execSgSettrm] at h
    split at h <;> cases h
    · exact .keep
    · rw [oscAt_respond, sgSetTrm, lfoSetFreq]
      exact .setCycleAt (oscAt_setSg ..) fun hu => by simp [writesStep, hu]
  case sgReset => exact .write rfl rfl
  all_goals
    cases h
    exact .of_eq (by simp [egNextAt])

/-! ### Which commands write an operator's registers (R31) -/

@[simp] theorem opAt_forAllOps_onEg (g : Eg → Eg) (s : State) (o : OpId) :
    (forAllOps (fun o => onEg o g) s).opAt o = s.opAt o :=
  forAllOps_keeps (fun s => s.opAt o) (fun x t => opAt_onEg x g t o) s

@[simp] theorem opAt_sgHold (s : State) (o : OpId) : (sgHold s).opAt o = s.opAt o :=
  opAt_forAllOps_onEg _ s o

@[simp] theorem opAt_sgSetFreq (f : ℚ) (rate : BitVec 20) (s : State) (o : OpId) : (sgSetFreq f rate s).opAt o = s.opAt o := by
  simp only [sgSetFreq, lfoSetFreq_eq, opAt_setOsc]
  exact forAllOps_keeps (fun s => s.opAt o) (fun x t => by simp [opSetFreqRateAt_eq]) _

/-- An operator's own registers are written by its construction and by SG.RESET alone. -/
theorem exec_opAt {i : Instr} {s t : State} (h : exec i s = .next t) {o : OpId} (ho : ∀ p key, i ≠ .opInit o p key)
    (hr : i ≠ .sgReset) : t.opAt o = s.opAt o := by
  cases i
  case egSethold e holdn =>
    simp only [exec, execEgSethold] at h
    split at h <;> cases h <;> simp [ignoreReserved]
  case opInit x p key =>
    cases h
    have hx : o ≠ x := fun hx => ho p key (by rw [hx])
    simp [opInitAt_eq, hx]
  case sgSettrm depth freq =>
    simp only [exec, execSgSettrm] at h
    split at h <;> cases h <;> simp [ignoreReserved, sgSetTrm, lfoSetFreq_eq]
  case sgReset => exact absurd rfl hr
  all_goals
    cases h
    simp [oscSetCycleAt_eq, oscNextAt_eq, oscNextMAt, oscAddPhAt_eq, egNextAt, opSetFreqRateAt_eq, opNextAt_eq, opNextMAt_eq,
      opNextAmAt_eq, sgConfigure, sgSetVib, lfoSetFreq_eq]

/-- Settles O9: the oscillators by `exec_oscWrite`, the envelopes by what a command can make of a unit, the operators by `exec_opAt`. -/
theorem registerWriters : Obligations.RegisterWriters := fun i s t h => by
  refine ⟨fun u => (exec_oscWrite h u).pos, fun u => (exec_oscWrite h u).step, fun e hc hf => ?_, fun e hc hr => ?_,
    fun o ho hr => exec_opAt h ho hr⟩
  · exact ((exec_egChange h e).logStep hc (by rw [hf]; rfl)).fin hf
  · exact ((exec_egChange h e).keeps_params (configOf_valid s.cfg) hc hr).1

end Sys2Proof.Machine
end

section
/-! The port and the tables (20_memory.md): bytes over a byte-wide transport (R64, R65), the range of every computed table index (R62),
and which command a step runs (R70). -/

namespace Sys2Proof

/-! ### The byte-wide transport (R64, R65) -/

/-- Byte `k` on the transport is byte `k` of the word, counted from the least significant. -/
theorem bytesOfWord_getElem? : ∀ (n : Nat) (w : BitVec (8 * n)) (k : Nat), k < n →
    (bytesOfWord n w)[k]? = some (w.extractLsb' (8 * k) 8)
  | n + 1, w, 0, _ => by simp [bytesOfWord, BitVec.setWidth_eq_extractLsb']
  | n + 1, w, k + 1, hk => by
    rw [bytesOfWord, List.getElem?_cons_succ, bytesOfWord_getElem? n _ k (by omega)]
    congr 1
    ext i hi
    have hin : 8 * k + i < 8 * n := by omega
    have hadd : 8 + (8 * k + i) = 8 * (k + 1) + i := by omega
    simp [hin, hadd]

/-- A word is the higher bytes `v` over the byte `b` just when these are its two parts. -/
theorem shiftLeft_or_byte_eq_iff {n : Nat} (v : BitVec (8 * n)) (b : Byte) (w : BitVec (8 * (n + 1))) :
    (v.setWidth (8 * (n + 1)) <<< 8) ||| b.setWidth (8 * (n + 1)) = w ↔
      b = w.setWidth 8 ∧ v = (w >>> 8).setWidth (8 * n) := by
  constructor
  · rintro rfl
    constructor
    · ext i hi
      simp
    · ext i hi
      have hin : 8 + i < 8 * (n + 1) := by omega
      simp [hin, BitVec.getLsbD_eq_getElem hi]
  · rintro ⟨rfl, rfl⟩
    ext i hi
    by_cases h8 : i < 8
    · simp [h8, BitVec.getLsbD_eq_getElem hi]
    · have hin : i - 8 < 8 * n := by omega
      have hadd : 8 + (i - 8) = i := by omega
      simp [h8, hin, hadd, BitVec.getLsbD_eq_getElem hi]

/-- The byte strings that carry a word are exactly the bytes of that word. -/
theorem wordOfBytes_eq_some_iff : ∀ (n : Nat) (bs : List Byte) (w : BitVec (8 * n)),
    wordOfBytes n bs = some w ↔ bs = bytesOfWord n w
  | 0, [], w => by simp [wordOfBytes, bytesOfWord, BitVec.eq_nil w]
  | 0, _ :: _, _ => by simp [wordOfBytes, bytesOfWord]
  | _ + 1, [], _ => by simp [wordOfBytes, bytesOfWord]
  | n + 1, b :: bs, w => by
    rw [bytesOfWord, List.cons.injEq, ← wordOfBytes_eq_some_iff n bs]
    cases h : wordOfBytes n bs with
    | none => simp [wordOfBytes, h]
    | some v => simp only [wordOfBytes, h, Option.some.injEq, shiftLeft_or_byte_eq_iff]

/-- Settles O7: a command is a word of eight bytes and a response one of four. -/
theorem byteTransport : Obligations.ByteTransport :=
  ⟨bytesOfWord_getElem? 8, bytesOfWord_getElem? 4, wordOfBytes_eq_some_iff 8, wordOfBytes_eq_some_iff 4⟩

end Sys2Proof

namespace Sys2Proof.Machine

open Sys2Proof

/-! ### Table indices (R62) -/

theorem sineDiv_pos {c : Config} (hc : c.Valid) : 0 < c.sineDiv := by
  have := hc.sineDiv_ge
  omega

theorem sineIndex_lt {c : Config} (hc : c.Valid) (pos : BitVec 32) : sineIndex c pos < c.sineDiv :=
  Nat.mod_lt _ (sineDiv_pos hc)

/-- The modulated index wraps into the table for a negative offset too (R123). -/
theorem modIndex_lt {c : Config} (hc : c.Valid) (pos : BitVec 32) (mod : Int) : modIndex c pos mod < c.sineDiv := by
  have hpos : (0 : Int) < c.sineDiv := by exact_mod_cast sineDiv_pos hc
  exact (Int.toNat_lt_of_ne_zero (sineDiv_pos hc).ne').2 (Int.emod_lt_of_pos _ hpos)

/-- The argument of `VIB_ROM`, for every sample a sine table can hold (R62). -/
theorem vibDeviation_range {x : Int} (h1 : -32767 ≤ x) (h2 : x ≤ 32767) (depth : BitVec 13) :
    -8191 ≤ vibDeviation x depth ∧ vibDeviation x depth ≤ 8190 := by
  have hd : (depth.toNat : Int) ≤ 8191 := by have := depth.isLt; omega
  have hlo : -32767 * 8191 ≤ x * depth.toNat := by nlinarith
  have hhi : x * depth.toNat ≤ 32767 * 8191 := by nlinarith
  rw [vibDeviation, asr_eq]
  omega

/-- Settles O8: `SINE_ROM` by the wrap, `EXP_ROM` by the clamp, `LIN2LOG` by the width of `FTL` and by R37 for `CUR`, and `VIB_ROM` by
the bound on the samples. -/
theorem tableIndexInRange : Obligations.TableIndexInRange := fun c hc => by
  refine ⟨sineIndex_lt hc, modIndex_lt hc, fun cur => ?_, fun e he => ⟨?_, fun hl => ?_⟩, fun i depth hi => ?_⟩
  · have := hc.logSize_ge
    omega
  · exact e.fTl.isLt.trans (by decide)
  · have := he.cur_le hc hl
    omega
  · obtain ⟨hlo, hhi⟩ := hc.sineRom_bound i hi
    exact vibDeviation_range hlo hhi depth

/-! ### Which command a step runs (R70) -/

/-- Nothing happens between commands (60_exceptions.md R243). -/
theorem step_of_host_nil {s : State} (h : s.host = []) : step s = .next s := by
  simp only [step, takeEvent, h]

/-- Settles O2: `step_command` runs what the word decodes to, and the range check of decoding makes it well-formed. -/
theorem stepRunsDecodedCommand : Obligations.StepRunsDecodedCommand :=
  ⟨fun _ _ _ _ hhost hd => ⟨step_command hd hhost, (decode_ok.1 hd).2⟩, fun _ => step_of_host_nil⟩

end Sys2Proof.Machine
end

section
/-! The encoding (30_encoding.md): the decoder and the encoder undo each other (R91 to R98, R103), the reserved words are those of the
opcode map and of the two operand ranges (R99), and words that the spec writes out. -/

namespace Sys2Proof.Machine

open Sys2Proof

/-! ### Fields of a payload (R94) -/

/-- The value of the low `n` bits of a payload. -/
def lowBits (n : Nat) (p : BitVec 52) : Nat := p.toNat % 2 ^ n

theorem lowBits_of_lt {n : Nat} {p : BitVec 52} (h : p.toNat < 2 ^ n) : lowBits n p = p.toNat := Nat.mod_eq_of_lt h

theorem lowBits_zero (p : BitVec 52) : 0 = lowBits 0 p := (Nat.mod_one _).symm

/-- One field more, placed above the bits below it. -/
theorem lowBits_add_placed (lo n : Nat) (p : BitVec 52) :
    lowBits lo p + placed lo (p.extractLsb' lo n) = lowBits (lo + n) p := by
  rw [placed_eq, BitVec.extractLsb'_toNat, Nat.shiftRight_eq_div_pow, lowBits, lowBits, Nat.pow_add, Nat.mod_mul,
    Nat.mul_comm (2 ^ lo)]

theorem placed_zero_field (n : Nat) (p : BitVec 52) : placed 0 (p.extractLsb' 0 n) = lowBits n p := by
  simpa [← lowBits_zero] using lowBits_add_placed 0 n p

/-- Formats FR, AM and DF. -/
theorem placed_two_fields (m n : Nat) (p : BitVec 52) :
    placed 0 (p.extractLsb' 0 m) + placed m (p.extractLsb' m n) = lowBits (m + n) p := by
  rw [placed_zero_field, lowBits_add_placed]

/-! ### From words to commands and back (R98) -/

/-- Equal in its three fields, a word is the encoding of a command (R103). -/
theorem encode_eq_of_fields {w : Command} {i : Instr} (hopc : i.opcode.toNat = (opcField w).toNat) (hunit : i.unitCode = unitField w)
    (hpay : i.payload = (payloadField w).toNat) : encode i = w := by
  apply BitVec.eq_of_toNat_eq
  rw [encode_toNat, word_of_fields w, hopc, hunit, hpay]

/-- What the decoder makes of a word with the opcode of the row `r`, before the range check: it accepts the units and the payloads
that the row names, and what it reads encodes to the word. -/
structure RowDecodes (r : OpcodeRow) (w : Command) : Prop where
  ok_iff : (∃ i, decodeFields w = .ok i) ↔ (unitField w).toNat < r.units ∧ (payloadField w).toNat < 2 ^ r.width
  encode_eq : ∀ {i}, decodeFields w = .ok i → encode i = w

namespace RowDecodes

variable {w : Command} {opc width units : Nat}

/-- What the three classes share: the units `u` with `sel u` are those that `UNIT` can select, and `k` is the command read for them. -/
theorem of_ok_iff {α : Type} {sel : α → Prop} {k : α → Instr}
    (hok : ∀ i, decodeFields w = .ok i ↔ ∃ u, sel u ∧ (payloadField w).toNat < 2 ^ width ∧ i = k u)
    (hsel : (∃ u, sel u) ↔ (unitField w).toNat < units) (hopc : ∀ u, (k u).opcode.toNat = (opcField w).toNat)
    (hunit : ∀ u, sel u → (k u).unitCode = unitField w) (hpay : ∀ u, (k u).payload = lowBits width (payloadField w)) :
    RowDecodes ⟨opc, units, width⟩ w where
  ok_iff := by
    rw [← hsel]
    simp only [hok]
    exact ⟨fun ⟨_, u, hu, hp, _⟩ => ⟨⟨u, hu⟩, hp⟩, fun ⟨⟨u, hu⟩, hp⟩ => ⟨_, u, hu, hp, rfl⟩⟩
  encode_eq {i} h := by
    obtain ⟨u, hu, hp, rfl⟩ := (hok i).1 h
    exact encode_eq_of_fields (hopc u) (hunit u hu) ((hpay u).trans (lowBits_of_lt hp))

/-- A row of class OSC. -/
theorem osc {k : OscId → Instr} (hd : decodeFields w = decodeOsc (unitField w) width (payloadField w) k)
    (ho : opc = (opcField w).toNat) (hopc : ∀ u, (k u).opcode.toNat = opc) (hunit : ∀ u, (k u).unitCode = u.unit)
    (hpay : ∀ u, (k u).payload = lowBits width (payloadField w)) : RowDecodes ⟨opc, 7, width⟩ w :=
  of_ok_iff (sel := fun u => oscOfUnit (unitField w) = some u) (fun _ => by rw [hd, decodeOsc_ok])
    (by rw [← Option.ne_none_iff_exists', Ne, oscOfUnit_none_iff, Nat.not_le]) (fun u => (hopc u).trans ho)
    (fun u hu => (hunit u).trans (unit_of_oscOfUnit hu)) hpay

/-- A row of class EG or OP. -/
theorem op {k : OpId → Instr} (hd : decodeFields w = decodeOp (unitField w) width (payloadField w) k)
    (ho : opc = (opcField w).toNat) (hopc : ∀ u, (k u).opcode.toNat = opc) (hunit : ∀ u, (k u).unitCode = u.unit)
    (hpay : ∀ u, (k u).payload = lowBits width (payloadField w)) : RowDecodes ⟨opc, 4, width⟩ w :=
  of_ok_iff (sel := fun u => opOfUnit (unitField w) = some u) (fun _ => by rw [hd, decodeOp_ok])
    (by rw [← Option.ne_none_iff_exists', Ne, opOfUnit_none_iff, Nat.not_le]) (fun u => (hopc u).trans ho)
    (fun u hu => (hunit u).trans (unit_of_opOfUnit hu)) hpay

/-- A row of class SG, which has the one unit 0. -/
theorem sg {k : Instr} (hd : decodeFields w = decodeSg (unitField w) width (payloadField w) k)
    (ho : opc = (opcField w).toNat) (hopc : k.opcode.toNat = opc) (hunit : k.unitCode = 0)
    (hpay : k.payload = lowBits width (payloadField w)) : RowDecodes ⟨opc, 1, width⟩ w :=
  of_ok_iff (α := Unit) (sel := fun _ => unitField w = 0) (k := fun _ => k) (fun _ => by simp only [hd, decodeSg_ok, exists_const])
    (by simp [← BitVec.toNat_inj]) (fun _ => hopc.trans ho) (fun _ hu => hunit.trans hu.symm) fun _ => hpay

end RowDecodes

/-- Format EGI. -/
theorem payload_egInit (e : OpId) (p : BitVec 52) :
    (Instr.egInit e (p.extractLsb' 0 6) (p.extractLsb' 6 6) (p.extractLsb' 12 6) (p.extractLsb' 18 6) (p.extractLsb' 24 4)
      (p.extractLsb' 28 7)).payload = lowBits 35 p := by
  simp only [Instr.payload, placed_zero_field, lowBits_add_placed]

/-- Format OPI. -/
theorem payload_opInit (o : OpId) (p : BitVec 52) :
    (Instr.opInit o (opParamsOfPayload p) (p.extractLsb' 41 7)).payload = lowBits 48 p := by
  simp only [Instr.payload, payloadOfOpParams, opParamsOfPayload, placed_zero_field, lowBits_add_placed]

/-- Format SGC. -/
theorem payload_sgConfig (p : BitVec 52) :
    (Instr.sgConfig (p.extractLsb' 0 3) (p.extractLsb' 3 3) (p.extractLsb' 6 3)).payload = lowBits 9 p := by
  simp only [Instr.payload, placed_zero_field, lowBits_add_placed]

/-- The decoder follows the opcode map, row by row (R98). -/
theorem rowDecodes {r : OpcodeRow} {w : Command} (hr : r ∈ opcodeMap) (ho : r.opc = (opcField w).toNat) : RowDecodes r w := by
  revert r
  simp only [opcodeMap, List.cons_append, List.nil_append, List.forall_mem_cons]
  exact ⟨
    fun h => .osc (decodeFields_01 h.symm) h (fun _ => rfl) (fun _ => rfl) fun _ => placed_zero_field _ _,
    fun h => .osc (decodeFields_02 h.symm) h (fun _ => rfl) (fun _ => rfl) fun _ => lowBits_zero _,
    fun h => .osc (decodeFields_03 h.symm) h (fun _ => rfl) (fun _ => rfl) fun _ => placed_zero_field _ _,
    fun h => .osc (decodeFields_04 h.symm) h (fun _ => rfl) (fun _ => rfl) fun _ => placed_zero_field _ _,
    fun h => .op (decodeFields_10 h.symm) h (fun _ => rfl) (fun _ => rfl) fun _ => payload_egInit _ _,
    fun h => .op (decodeFields_11 h.symm) h (fun _ => rfl) (fun _ => rfl) fun _ => placed_zero_field _ _,
    fun h => .op (decodeFields_12 h.symm) h (fun _ => rfl) (fun _ => rfl) fun _ => lowBits_zero _,
    fun h => .op (decodeFields_13 h.symm) h (fun _ => rfl) (fun _ => rfl) fun _ => placed_zero_field _ _,
    fun h => .op (decodeFields_14 h.symm) h (fun _ => rfl) (fun _ => rfl) fun _ => placed_zero_field _ _,
    fun h => .op (decodeFields_15 h.symm) h (fun _ => rfl) (fun _ => rfl) fun _ => lowBits_zero _,
    fun h => .op (decodeFields_16 h.symm) h (fun _ => rfl) (fun _ => rfl) fun _ => lowBits_zero _,
    fun h => .op (decodeFields_17 h.symm) h (fun _ => rfl) (fun _ => rfl) fun _ => lowBits_zero _,
    fun h => .op (decodeFields_20 h.symm) h (fun _ => rfl) (fun _ => rfl) fun _ => payload_opInit _ _,
    fun h => .op (decodeFields_21 h.symm) h (fun _ => rfl) (fun _ => rfl) fun _ => placed_two_fields 32 20 _,
    fun h => .op (decodeFields_22 h.symm) h (fun _ => rfl) (fun _ => rfl) fun _ => lowBits_zero _,
    fun h => .op (decodeFields_23 h.symm) h (fun _ => rfl) (fun _ => rfl) fun _ => placed_zero_field _ _,
    fun h => .op (decodeFields_24 h.symm) h (fun _ => rfl) (fun _ => rfl) fun _ => placed_two_fields 32 9 _,
    fun h => .op (decodeFields_25 h.symm) h (fun _ => rfl) (fun _ => rfl) fun _ => lowBits_zero _,
    fun h => .sg (decodeFields_30 h.symm) h rfl rfl (payload_sgConfig _),
    fun h => .sg (decodeFields_31 h.symm) h rfl rfl (placed_two_fields 32 20 _),
    fun h => .sg (decodeFields_32 h.symm) h rfl rfl (lowBits_zero _),
    fun h => .sg (decodeFields_33 h.symm) h rfl rfl (lowBits_zero _),
    fun h => .sg (decodeFields_34 h.symm) h rfl rfl (lowBits_zero _),
    fun h => .sg (decodeFields_35 h.symm) h rfl rfl (lowBits_zero _),
    fun h => .sg (decodeFields_36 h.symm) h rfl rfl (placed_zero_field _ _),
    fun h => .sg (decodeFields_37 h.symm) h rfl rfl (placed_zero_field _ _),
    fun h => .sg (decodeFields_38 h.symm) h rfl rfl (placed_zero_field _ _),
    fun h => .sg (decodeFields_39 h.symm) h rfl rfl (placed_two_fields 32 13 _),
    fun h => .sg (decodeFields_3A h.symm) h rfl rfl (placed_two_fields 32 13 _),
    fun h => .sg (decodeFields_3F h.symm) h rfl rfl (lowBits_zero _),
    nofun⟩

/-- A word that decodes has the opcode of a row. -/
theorem row_of_decodeFields_ok {w : Command} {i : Instr} (h : decodeFields w = .ok i) :
    ∃ r ∈ opcodeMap, r.opc = (opcField w).toNat :=
  List.mem_map.1 (decodeFields_ok_opcode h : (opcField w).toNat ∈ opcodeMap.map OpcodeRow.opc)

theorem encode_of_decodeFields_ok {w : Command} {i : Instr} (h : decodeFields w = .ok i) : encode i = w := by
  obtain ⟨r, hr, ho⟩ := row_of_decodeFields_ok h
  exact (rowDecodes hr ho).encode_eq h

/-- Settles O5: the range check gives well-formedness, the row of the opcode gives back the word. -/
theorem encodeDecodeAgree : Obligations.EncodeDecodeAgree := fun _ _ h =>
  ⟨(decode_ok.1 h).2, encode_of_decodeFields_ok (decode_ok.1 h).1⟩

/-! ### From commands to words and back (R103) -/

theorem opcField_encode_toNat (i : Instr) : (opcField (encode i)).toNat = i.opcode.toNat := by rw [opcField_encode]

theorem payloadField_encode_toNat (i : Instr) : (payloadField (encode i)).toNat = i.payload :=
  (Laws.EncodeFields.of_bound i (payload_lt i)).2.2

/-- A field read from the word of a command, by its value in the payload. -/
theorem field_encode {i : Instr} {lo n : Nat} {f : BitVec n} (h : i.payload / 2 ^ lo % 2 ^ n = f.toNat) :
    (payloadField (encode i)).extractLsb' lo n = f := by
  rw [payloadField_encode, payload_field h (payload_lt i)]

/-- The formats of one field: W, R, H and B7. -/
theorem field_encode_only {i : Instr} {n : Nat} {f : BitVec n} (h : i.payload = placed 0 f) :
    (payloadField (encode i)).extractLsb' 0 n = f :=
  field_encode (by rw [h, placed_eq, pow_zero, mul_one, Nat.div_one, Nat.mod_eq_of_lt f.isLt])

section
variable {i : Instr} {m n : Nat} {f : BitVec m} {g : BitVec n} (h : i.payload = placed 0 f + placed m g)
include h

/-- The low field of formats FR, AM and DF. -/
theorem field_encode_low : (payloadField (encode i)).extractLsb' 0 m = f :=
  field_encode (by simp [h, Nat.mod_eq_of_lt f.isLt])

/-- The high field of formats FR, AM and DF. -/
theorem field_encode_high : (payloadField (encode i)).extractLsb' m n = g :=
  field_encode (by
    simp [h, Nat.add_mul_div_right _ _ (Nat.two_pow_pos m), Nat.div_eq_of_lt f.isLt, Nat.mod_eq_of_lt g.isLt])

/-- Formats FR, AM and DF have the width of their two fields. -/
theorem payload_lt_two_fields : i.payload < 2 ^ (m + n) := by
  rw [pow_add, Nat.mul_comm, ← Nat.div_lt_iff_lt_mul (Nat.two_pow_pos m), h]
  simp [Nat.add_mul_div_right _ _ (Nat.two_pow_pos m), Nat.div_eq_of_lt f.isLt, g.isLt]

end

section
variable {i : Instr} {width : Nat} (hp : i.payload < 2 ^ width)
include hp

theorem decodeOsc_encode {u : OscId} {k : OscId → Instr} (hu : i.unitCode = u.unit) (hk : k u = i) :
    decodeOsc (unitField (encode i)) width (payloadField (encode i)) k = .ok i :=
  decodeOsc_ok.2 ⟨u, by rw [unitField_encode, hu, oscOfUnit_unit], by rwa [payloadField_encode_toNat], hk.symm⟩

theorem decodeOp_encode {u : OpId} {k : OpId → Instr} (hu : i.unitCode = u.unit) (hk : k u = i) :
    decodeOp (unitField (encode i)) width (payloadField (encode i)) k = .ok i :=
  decodeOp_ok.2 ⟨u, by rw [unitField_encode, hu, opOfUnit_unit], by rwa [payloadField_encode_toNat], hk.symm⟩

theorem decodeSg_encode {k : Instr} (hu : i.unitCode = 0) (hk : k = i) :
    decodeSg (unitField (encode i)) width (payloadField (encode i)) k = .ok i :=
  decodeSg_ok.2 ⟨by rw [unitField_encode, hu], by rwa [payloadField_encode_toNat], hk.symm⟩

end

theorem payload_egInit_lt (e : OpId) (rar rdr rsr rrr : BitVec 6) (sl : BitVec 4) (tl : BitVec 7) :
    (Instr.egInit e rar rdr rsr rrr sl tl).payload < 2 ^ 35 := by
  simp only [Instr.payload, placed_eq]
  omega

theorem payload_opInit_lt (o : OpId) (p : OpParams) (key : BitVec 7) : (Instr.opInit o p key).payload < 2 ^ 48 := by
  simp only [Instr.payload, payloadOfOpParams, placed_eq]
  omega

theorem payload_sgConfig_lt (alg fb lfo : BitVec 3) : (Instr.sgConfig alg fb lfo).payload < 2 ^ 9 := by
  simp only [Instr.payload, placed_eq]
  omega

/-- The word of a command is read back as that command, before the range check. -/
theorem decodeFields_encode (i : Instr) : decodeFields (encode i) = .ok i := by
  have ho := opcField_encode_toNat i
  cases i with
  | oscSetcyc u arg => exact (decodeFields_01 ho).trans (decodeOsc_encode arg.isLt rfl (congrArg _ (field_encode_only rfl)))
  | oscNext u => exact (decodeFields_02 ho).trans (decodeOsc_encode Nat.one_pos rfl rfl)
  | oscNextm u arg => exact (decodeFields_03 ho).trans (decodeOsc_encode arg.isLt rfl (congrArg _ (field_encode_only rfl)))
  | oscAddph u arg => exact (decodeFields_04 ho).trans (decodeOsc_encode arg.isLt rfl (congrArg _ (field_encode_only rfl)))
  | egInit e rar rdr rsr rrr sl tl =>
    refine (decodeFields_10 ho).trans (decodeOp_encode (payload_egInit_lt ..) rfl ?_)
    rw [Instr.egInit.injEq]
    refine ⟨rfl, ?_, ?_, ?_, ?_, ?_, ?_⟩ <;> exact field_encode (by simp only [Instr.payload, placed_eq]; omega)
  | egSetrate e rate => exact (decodeFields_11 ho).trans (decodeOp_encode rate.isLt rfl (congrArg _ (field_encode_only rfl)))
  | egUpdate e => exact (decodeFields_12 ho).trans (decodeOp_encode Nat.one_pos rfl rfl)
  | egSethold e holdn => exact (decodeFields_13 ho).trans (decodeOp_encode holdn.isLt rfl (congrArg _ (field_encode_only rfl)))
  | egSetfrz e val => exact (decodeFields_14 ho).trans (decodeOp_encode val.isLt rfl (congrArg _ (field_encode_only rfl)))
  | egKeyoff e => exact (decodeFields_15 ho).trans (decodeOp_encode Nat.one_pos rfl rfl)
  | egSndoff e => exact (decodeFields_16 ho).trans (decodeOp_encode Nat.one_pos rfl rfl)
  | egNext e => exact (decodeFields_17 ho).trans (decodeOp_encode Nat.one_pos rfl rfl)
  | opInit o p key =>
    refine (decodeFields_20 ho).trans (decodeOp_encode (payload_opInit_lt ..) rfl ?_)
    rw [Instr.opInit.injEq, opParamsOfPayload, OpParams.mk.injEq]
    refine ⟨rfl, ⟨?_, ?_, ?_, ?_, ?_, ?_, ?_, ?_, ?_, ?_⟩, ?_⟩ <;>
      exact field_encode (by simp only [Instr.payload, payloadOfOpParams, placed_eq]; omega)
  | opSetfreq o freq rate =>
    have hp : (Instr.opSetfreq o freq rate).payload = placed 0 freq + placed 32 rate := rfl
    exact (decodeFields_21 ho).trans (decodeOp_encode (payload_lt_two_fields hp) rfl
      (congrArg₂ (Instr.opSetfreq o) (field_encode_low hp) (field_encode_high hp)))
  | opNext o => exact (decodeFields_22 ho).trans (decodeOp_encode Nat.one_pos rfl rfl)
  | opNextm o arg => exact (decodeFields_23 ho).trans (decodeOp_encode arg.isLt rfl (congrArg _ (field_encode_only rfl)))
  | opNextam o amv mod =>
    have hp : (Instr.opNextam o amv mod).payload = placed 0 mod + placed 32 amv := rfl
    exact (decodeFields_24 ho).trans (decodeOp_encode (payload_lt_two_fields hp) rfl
      (congrArg₂ (Instr.opNextam o) (field_encode_high hp) (field_encode_low hp)))
  | opFin o => exact (decodeFields_25 ho).trans (decodeOp_encode Nat.one_pos rfl rfl)
  | sgConfig alg fb lfo =>
    refine (decodeFields_30 ho).trans (decodeSg_encode (payload_sgConfig_lt ..) rfl ?_)
    rw [Instr.sgConfig.injEq]
    refine ⟨?_, ?_, ?_⟩ <;> exact field_encode (by simp only [Instr.payload, placed_eq]; omega)
  | sgSetfreq freq rate =>
    have hp : (Instr.sgSetfreq freq rate).payload = placed 0 freq + placed 32 rate := rfl
    exact (decodeFields_31 ho).trans (decodeSg_encode (payload_lt_two_fields hp) rfl
      (congrArg₂ Instr.sgSetfreq (field_encode_low hp) (field_encode_high hp)))
  | sgNext => exact (decodeFields_32 ho).trans (decodeSg_encode Nat.one_pos rfl rfl)
  | sgFin => exact (decodeFields_33 ho).trans (decodeSg_encode Nat.one_pos rfl rfl)
  | sgKeyoff => exact (decodeFields_34 ho).trans (decodeSg_encode Nat.one_pos rfl rfl)
  | sgSndoff => exact (decodeFields_35 ho).trans (decodeSg_encode Nat.one_pos rfl rfl)
  | sgSetdamper val => exact (decodeFields_36 ho).trans (decodeSg_encode val.isLt rfl (congrArg _ (field_encode_only rfl)))
  | sgSetsost val => exact (decodeFields_37 ho).trans (decodeSg_encode val.isLt rfl (congrArg _ (field_encode_only rfl)))
  | sgSetfrz val => exact (decodeFields_38 ho).trans (decodeSg_encode val.isLt rfl (congrArg _ (field_encode_only rfl)))
  | sgSetvib depth freq =>
    have hp : (Instr.sgSetvib depth freq).payload = placed 0 freq + placed 32 depth := rfl
    exact (decodeFields_39 ho).trans (decodeSg_encode (payload_lt_two_fields hp) rfl
      (congrArg₂ Instr.sgSetvib (field_encode_high hp) (field_encode_low hp)))
  | sgSettrm depth freq =>
    have hp : (Instr.sgSettrm depth freq).payload = placed 0 freq + placed 32 depth := rfl
    exact (decodeFields_3A ho).trans (decodeSg_encode (payload_lt_two_fields hp) rfl
      (congrArg₂ Instr.sgSettrm (field_encode_high hp) (field_encode_low hp)))
  | sgReset => exact (decodeFields_3F ho).trans (decodeSg_encode Nat.one_pos rfl rfl)

/-- Settles O4: the fields come back, and a well-formed command passes the range check. -/
theorem decodeEncodeAgree : Obligations.DecodeEncodeAgree := fun i hi => decode_ok.2 ⟨decodeFields_encode i, hi⟩

/-! ### Reserved words (R99) -/

/-- R99 (d) and (e), on an opcode and a payload. -/
def OperandReserved (opc payload : Nat) : Prop :=
  (opc = 0x13 ∧ 16129 < payload % 2 ^ 15) ∨ (opc = 0x3A ∧ 127 < payload / 2 ^ 32 % 2 ^ 13)

/-- The range check is R99 (d) and (e). -/
theorem wellFormed_iff (i : Instr) : i.WellFormed ↔ ¬ OperandReserved i.opcode.toNat i.payload := by
  cases i with
  | egSethold e holdn =>
    simp [Instr.WellFormed, Instr.wellFormed, holdInRange, OperandReserved, Instr.opcode, Instr.payload, Nat.mod_eq_of_lt holdn.isLt]
  | sgSettrm depth freq =>
    have hdepth : (Instr.sgSettrm depth freq).payload / 2 ^ 32 % 2 ^ 13 = depth.toNat := by
      simp only [Instr.payload, placed_eq]
      omega
    rw [OperandReserved, hdepth]
    simp [Instr.WellFormed, Instr.wellFormed, trmDepthInRange, Instr.opcode]
  | _ => exact iff_of_true rfl (by simp [OperandReserved, Instr.opcode])

/-- The opcode tells the row. -/
theorem row_unique : ∀ r ∈ opcodeMap, ∀ r' ∈ opcodeMap, r.opc = r'.opc → r = r' := by decide

/-- The cases of R99, at the fields of the word. -/
theorem reservedWord_iff_fields (w : Command) : ReservedWord w ↔
    (∀ r ∈ opcodeMap, r.opc ≠ (opcField w).toNat) ∨
    (∃ r ∈ opcodeMap, r.opc = (opcField w).toNat ∧ r.units ≤ (unitField w).toNat) ∨
    (∃ r ∈ opcodeMap, r.opc = (opcField w).toNat ∧ 2 ^ r.width ≤ (payloadField w).toNat) ∨
    OperandReserved (opcField w).toNat (payloadField w).toNat := by
  rw [opcField_toNat, unitField_toNat, payloadField_toNat, ReservedWord, OperandReserved]

/-- With an opcode of the map, the cases (a) to (c) speak of one row. -/
theorem not_reservedWord_iff_of_row {r : OpcodeRow} {w : Command} (hr : r ∈ opcodeMap) (ho : r.opc = (opcField w).toNat) :
    ¬ ReservedWord w ↔ ((unitField w).toNat < r.units ∧ (payloadField w).toNat < 2 ^ r.width) ∧
      ¬ OperandReserved (opcField w).toNat (payloadField w).toNat := by
  have only : ∀ {P : OpcodeRow → Prop}, (∃ r' ∈ opcodeMap, r'.opc = (opcField w).toNat ∧ P r') ↔ P r := fun {P} =>
    ⟨fun ⟨r', hr', ho', h⟩ => row_unique r' hr' r hr (ho'.trans ho.symm) ▸ h, fun h => ⟨r, hr, ho, h⟩⟩
  have hmap : ¬ ∀ r ∈ opcodeMap, r.opc ≠ (opcField w).toNat := fun h => h r hr ho
  rw [reservedWord_iff_fields, only, only]
  simp only [hmap, false_or, not_or, Nat.not_le, and_assoc]

/-- With an opcode of the map, a word decodes just when the row and the range check accept it. -/
theorem exists_decode_ok_iff_of_row {r : OpcodeRow} {w : Command} (hr : r ∈ opcodeMap) (ho : r.opc = (opcField w).toNat) :
    (∃ i, decode w = .ok i) ↔ ((unitField w).toNat < r.units ∧ (payloadField w).toNat < 2 ^ r.width) ∧
      ¬ OperandReserved (opcField w).toNat (payloadField w).toNat := by
  have hrange : ∀ {i}, decodeFields w = .ok i →
      (i.WellFormed ↔ ¬ OperandReserved (opcField w).toNat (payloadField w).toNat) := fun {i} h => by
    rw [wellFormed_iff, ← encode_of_decodeFields_ok h, opcField_encode_toNat, payloadField_encode_toNat]
  rw [← (rowDecodes hr ho).ok_iff]
  constructor
  · rintro ⟨i, h⟩
    obtain ⟨hf, hw⟩ := decode_ok.1 h
    exact ⟨⟨i, hf⟩, (hrange hf).1 hw⟩
  · rintro ⟨⟨i, hf⟩, h⟩
    exact ⟨i, decode_ok.2 ⟨hf, (hrange hf).2 h⟩⟩

/-- The words that decode are those R99 does not reserve. -/
theorem exists_decode_ok_iff (w : Command) : (∃ i, decode w = .ok i) ↔ ¬ ReservedWord w := by
  by_cases hrow : ∃ r ∈ opcodeMap, r.opc = (opcField w).toNat
  · obtain ⟨r, hr, ho⟩ := hrow
    rw [exists_decode_ok_iff_of_row hr ho, not_reservedWord_iff_of_row hr ho]
  · refine iff_of_false (fun ⟨i, h⟩ => hrow (row_of_decodeFields_ok (decode_ok.1 h).1)) (not_not_intro ?_)
    exact (reservedWord_iff_fields w).2 (.inl fun r hr ho => hrow ⟨r, hr, ho⟩)

theorem reservedWord_iff_decode_error (w : Command) : ReservedWord w ↔ ∃ e, decode w = .error e := by
  rw [← not_iff_not, ← exists_decode_ok_iff]
  cases decode w <;> simp

/-- A step discards a reserved word and answers 0. -/
theorem step_reserved {w : Command} {e : Reserved} (h : decode w = .error e) {s : State} {rest : List HostEvent}
    (hs : s.host = .command w :: rest) : step s = .next { s with host := rest, rsp := 0 } := by
  simp only [step, takeEvent, hs, h]
  rfl

/-- Settles O3: the decoder's errors are the cases of R99, and a step ignores a word that does not decode. -/
theorem reservedWordIgnored : Obligations.ReservedWordIgnored := by
  refine ⟨reservedWord_iff_decode_error, fun s w rest hs hw => ?_⟩
  obtain ⟨e, he⟩ := (reservedWord_iff_decode_error w).1 hw
  exact step_reserved he hs

/-! ### Words of the spec -/

/-- Settles O6: the worked example of R103 and four words of E1, each read by the decoder. -/
theorem specWordsDecode : Obligations.SpecWordsDecode := by
  unfold Obligations.SpecWordsDecode
  decide

end Sys2Proof.Machine
end

section
/-! Class OSC (40_oscillator.md): what the four commands do to the phase, the step and the response of one unit, and the sequence of
unmodulated samples. -/

namespace Sys2Proof.Machine

open Sys2Proof

/-! ### The commands as one write and one response -/

theorem exec_oscSetcyc (u : OscId) (arg : BitVec 32) (s : State) :
    exec (.oscSetcyc u arg) s = .next (respond 0 (s.setOsc u (oscSetCycle s.config (q16 arg) (s.oscAt u)))) := rfl

theorem exec_oscNext (u : OscId) (s : State) :
    exec (.oscNext u) s =
      .next (respond (s.config.sineRom (sineIndex s.config (oscAdvance (s.oscAt u)).pos)) (s.setOsc u (oscAdvance (s.oscAt u)))) := rfl

theorem exec_oscNextm (u : OscId) (arg : BitVec 32) (s : State) :
    exec (.oscNextm u arg) s =
      .next (respond (s.config.sineRom (modIndex s.config (oscAdvance (s.oscAt u)).pos arg.toInt))
        (s.setOsc u (oscAdvance (s.oscAt u)))) := rfl

theorem exec_oscAddph (u : OscId) (arg : BitVec 32) (s : State) :
    exec (.oscAddph u arg) s = .next (respond 0 (s.setOsc u (oscAddPh arg.toInt (s.oscAt u)))) := rfl

theorem oscAt_setOsc_self (s : State) (u : OscId) (o : Osc) : (s.setOsc u o).oscAt u = o := by
  rw [oscAt_setOsc, if_pos rfl]

/-- The frame of class OSC. -/
theorem onlyOsc_respond_setOsc (u : OscId) (o : Osc) (v : Int) (s : State) : OnlyOsc u s (respond v (s.setOsc u o)) :=
  ⟨fun w hw => by rw [oscAt_respond, oscAt_setOsc, if_neg hw], by simp, by simp, by simp, by simp [SameOutside]⟩

/-! ### The table (R120) -/

theorem sineIndex_eq_tableIndex (c : Config) (pos : BitVec 32) : sineIndex c pos = tableIndex c pos.toNat := by
  rw [sineIndex, phaseIndex, tableIndex, Nat.shiftRight_eq_div_pow]

/-- The response port holds every table entry as it stands. -/
theorem u32_sineRom_toInt {c : Config} (hc : c.Valid) {i : Nat} (hi : i < c.sineDiv) : (u32 (c.sineRom i)).toInt = c.sineRom i := by
  obtain ⟨hlo, hhi⟩ := hc.sineRom_bound i hi
  exact u32_toInt (by omega) (by omega)

/-! ### The phase (R122, R124) -/

theorem oscAdvance_pos_toNat (o : Osc) : (oscAdvance o).pos.toNat = (o.pos.toNat + o.step.toNat) % 2 ^ 32 := BitVec.toNat_add ..

theorem oscAdvance_of_step_zero {o : Osc} (h : o.step = 0) : oscAdvance o = o := by
  obtain ⟨pos, step⟩ := o
  obtain rfl : step = 0 := h
  simp [oscAdvance]

/-- A signed offset of the phase, taken modulo 2^32. -/
theorem toNat_add_u32 (x : BitVec 32) (z : Int) : ((x + u32 z).toNat : Int) = (x.toNat + z) % 2 ^ 32 := by
  rw [BitVec.toNat_add, u32_toNat]
  omega

/-- R124 (c): an offset of 65536 is one whole step. -/
theorem oscAddPh_whole_step (o : Osc) : (oscAddPh 65536 o).pos = o.pos + o.step := by
  have hstep : asr ((o.step.toNat : Int) * 65536) 16 = o.step.toNat := by
    rw [asr_eq]
    omega
  rw [oscAddPh, hstep, u32_toNat_cast]

/-- R124 (a): an offset of nothing, or of a stopped oscillator, is no move. -/
theorem oscAddPh_of_mul_eq_zero {o : Osc} {x : Int} (h : (o.step.toNat : Int) * x = 0) : oscAddPh x o = o := by
  simp [oscAddPh, h]

/-! ### OSC.NEXT (R122) -/

/-- Settles O11: the advance is addition modulo 2^32, and the table bounds the response. -/
theorem oscNextSample : Obligations.OscNextSample := fun u s => by
  have hc : s.config.Valid := configOf_valid s.cfg
  have hi := sineIndex_lt hc (oscAdvance (s.oscAt u)).pos
  obtain ⟨hlo, hhi⟩ := hc.sineRom_bound _ hi
  refine ⟨_, exec_oscNext u s, ?_⟩
  rw [oscAt_respond, oscAt_setOsc_self, rsp_respond, u32_sineRom_toInt hc hi]
  exact ⟨oscAdvance_pos_toNat _, rfl, congrArg _ (sineIndex_eq_tableIndex ..), hlo, hhi, oscAdvance_of_step_zero,
    onlyOsc_respond_setOsc ..⟩

/-! ### OSC.NEXTM (R123) -/

/-- Settles O12: as OSC.NEXT, with the entry at the offset index. -/
theorem oscNextmSample : Obligations.OscNextmSample := fun u arg s => by
  have hc : s.config.Valid := configOf_valid s.cfg
  refine ⟨_, exec_oscNextm u arg s, ?_⟩
  rw [oscAt_respond, oscAt_setOsc_self, rsp_respond, u32_sineRom_toInt hc (modIndex_lt hc ..), modIndex, phaseIndex,
    Nat.shiftRight_eq_div_pow]
  exact ⟨oscAdvance_pos_toNat _, rfl, rfl, onlyOsc_respond_setOsc ..⟩

/-- An offset of whole turns of the table wraps away. -/
theorem modIndex_of_dvd {c : Config} {mod : Int} (h : (c.sineDiv : Int) ∣ modOffset c mod) (pos : BitVec 32) :
    modIndex c pos mod = sineIndex c pos := by
  obtain ⟨k, hk⟩ := h
  rw [modIndex, hk, Int.add_mul_emod_self_left, sineIndex]
  norm_cast

/-- R123 (a) and (b): below one table entry either way the truncation leaves no offset. -/
theorem modOffset_of_lt {c : Config} {mod : Int} (h : mod.natAbs * c.sineDiv < c.modFull) : modOffset c mod = 0 := by
  rw [modOffset, tdiv, ← Int.natAbs_eq_zero, Int.natAbs_tdiv, Int.natAbs_mul]
  exact Nat.div_eq_of_lt h

/-- R123 (c): whole turns of the modulation are whole turns of the table. -/
theorem sineDiv_dvd_modOffset {c : Config} (hc : c.Valid) {mod : Int} (h : (c.modFull : Int) ∣ mod) :
    (c.sineDiv : Int) ∣ modOffset c mod := by
  obtain ⟨k, rfl⟩ := h
  obtain ⟨b, hb⟩ := hc.modFull_pow
  have hfull : (c.modFull : Int) ≠ 0 := by simp [hb]
  rw [modOffset, tdiv, mul_assoc, Int.mul_tdiv_cancel_left _ hfull]
  exact dvd_mul_left ..

/-- Settles O13: in each corner the offset is a multiple of the table's length. -/
theorem oscNextmCorners : Obligations.OscNextmCorners := fun u arg s h => by
  have hoffset : (s.config.sineDiv : Int) ∣ modOffset s.config arg.toInt := by
    obtain h | h := h
    · rw [modOffset_of_lt h]
      exact dvd_zero _
    · exact sineDiv_dvd_modOffset (configOf_valid s.cfg) h
  rw [exec_oscNextm, exec_oscNext, modIndex_of_dvd hoffset]

/-! ### OSC.ADDPH (R124) -/

/-- Settles O14: `asr` is the floor of the division by 65536, and the sum is taken modulo 2^32. -/
theorem oscAddphMove : Obligations.OscAddphMove := fun u arg s => by
  refine ⟨_, exec_oscAddph u arg s, ?_⟩
  rw [oscAt_respond, oscAt_setOsc_self]
  refine ⟨?_, rfl, ?_, ?_, rfl, onlyOsc_respond_setOsc ..⟩
  · exact (toNat_add_u32 ..).trans (by rw [asr_eq]; rfl)
  · rintro rfl
    exact oscAddPh_whole_step _
  · rintro (rfl | hstep)
    · exact oscAddPh_of_mul_eq_zero (mul_zero _)
    · exact oscAddPh_of_mul_eq_zero (by simp [hstep])

/-! ### The sequence of samples (R125) -/

theorem oscAdvance_iterate_step (n : Nat) (o : Osc) : (oscAdvance^[n] o).step = o.step := by
  induction n with
  | zero => rfl
  | succ n ih => rwa [Function.iterate_succ_apply']

theorem oscAdvance_iterate_pos_toNat (n : Nat) (o : Osc) :
    (oscAdvance^[n] o).pos.toNat = (o.pos.toNat + n * o.step.toNat) % 2 ^ 32 := by
  induction n with
  | zero => simp [Nat.mod_eq_of_lt o.pos.isLt]
  | succ n ih =>
    rw [Function.iterate_succ_apply', oscAdvance_pos_toNat, oscAdvance_iterate_step, ih, Nat.mod_add_mod, add_assoc, Nat.succ_mul]

/-- The phase is back after `2^32 / gcd(STEP, 2^32)` samples: they advance it by a multiple of 2^32. -/
theorem oscAdvance_iterate_period (n : Nat) (o : Osc) :
    oscAdvance^[n + 2 ^ 32 / Nat.gcd o.step.toNat (2 ^ 32)] o = oscAdvance^[n] o := by
  have hturns : 2 ^ 32 ∣ 2 ^ 32 / Nat.gcd o.step.toNat (2 ^ 32) * o.step.toNat := by
    rw [Nat.mul_comm, ← Nat.mul_div_assoc _ (Nat.gcd_dvd_right ..)]
    exact Nat.dvd_lcm_right ..
  obtain ⟨k, hk⟩ := hturns
  have hpos : (oscAdvance^[n + 2 ^ 32 / Nat.gcd o.step.toNat (2 ^ 32)] o).pos = (oscAdvance^[n] o).pos :=
    BitVec.eq_of_toNat_eq (by
      rw [oscAdvance_iterate_pos_toNat, oscAdvance_iterate_pos_toNat, Nat.add_mul, hk, ← add_assoc, Nat.add_mul_mod_self_left])
  rw [Osc.mk.injEq]
  exact ⟨hpos, by rw [oscAdvance_iterate_step, oscAdvance_iterate_step]⟩

/-- `n` samples advance the unit `n` times, and the last answers the entry at the phase it leaves. -/
theorem execAll_replicate_oscNext (u : OscId) (s : State) (n : Nat) : ∃ t, execAll (List.replicate n (.oscNext u)) s = .next t ∧
    t.oscAt u = oscAdvance^[n] (s.oscAt u) ∧ (1 ≤ n → t.rsp = u32 (s.config.sineRom (sineIndex s.config (t.oscAt u).pos))) := by
  induction n with
  | zero => exact ⟨s, rfl, rfl, fun h => absurd h (by decide)⟩
  | succ n ih =>
    obtain ⟨t, hrun, hosc, -⟩ := ih
    rw [List.replicate_succ']
    refine ⟨_, execAll_append.2 ⟨t, hrun, execAll_cons.2 ⟨_, exec_oscNext u t, rfl⟩⟩, ?_⟩
    rw [oscAt_respond, oscAt_setOsc_self, rsp_respond, execAll_config hrun, hosc, Function.iterate_succ_apply']
    exact ⟨rfl, fun _ => rfl⟩

/-- Settles O15: the phase after `n` samples by induction on `n`, and one period more leaves the same phase. -/
theorem oscSampleSequence : Obligations.OscSampleSequence := fun u n s hn => by
  have hc : s.config.Valid := configOf_valid s.cfg
  obtain ⟨t, hrun, hosc, hrsp⟩ := execAll_replicate_oscNext u s n
  refine ⟨t, hrun, ?_, ?_, ?_, fun v hv => ?_⟩
  · rw [hosc, oscAdvance_iterate_pos_toNat]
  · rw [hosc, oscAdvance_iterate_step]
  · rw [hrsp hn, u32_sineRom_toInt hc (sineIndex_lt hc _), sineIndex_eq_tableIndex]
  · obtain ⟨v', hrun', hosc', hrsp'⟩ :=
      execAll_replicate_oscNext u s (n + 2 ^ 32 / Nat.gcd (s.oscAt u).step.toNat (2 ^ 32))
    obtain rfl : v' = v := Host.Outcome.next.inj (hrun'.symm.trans hv)
    have hback : v'.oscAt u = t.oscAt u := by rw [hosc', hosc, oscAdvance_iterate_period]
    exact ⟨hback, by rw [hrsp' (Nat.le_add_right_of_le hn), hrsp hn, hback]⟩

/-! ### OSC.SETCYC (R121) -/

theorem q16_eq_zero_iff (w : BitVec 32) : q16 w = 0 ↔ w = 0 := by
  rw [q16, div_eq_zero_iff]
  simp [BitVec.toNat_eq]

/-- The rational quotient of R121, floored, is one division of naturals. -/
theorem oscSetCycle_q16_step (c : Config) (arg : BitVec 32) (o : Osc) :
    (oscSetCycle c (q16 arg) o).step.toNat =
      if arg = 0 then 0 else c.sineDiv * 2 ^ c.phaseFrac * 65536 / arg.toNat % 2 ^ 32 := by
  simp only [oscSetCycle, q16_eq_zero_iff]
  split
  · rfl
  · have hquot : (c.sineDiv : ℚ) * (2 ^ c.phaseFrac : Nat) / q16 arg =
        (c.sineDiv * 2 ^ c.phaseFrac * 65536 : Nat) / (arg.toNat : ℚ) := by
      rw [q16, div_div_eq_mul_div]
      push_cast
      rfl
    have hfloor : ((c.sineDiv : ℚ) * (2 ^ c.phaseFrac : Nat) / q16 arg).floor =
        (c.sineDiv * 2 ^ c.phaseFrac * 65536 / arg.toNat : Nat) := by
      rw [hquot]
      exact Rat.floor_natCast_div_natCast ..
    rw [hfloor, u32_natCast, BitVec.toNat_ofNat]

/-- Settles O10: the step by `oscSetCycle_q16_step`, the phase by `oscSetCycle_pos`. -/
theorem oscSetcycStep : Obligations.OscSetcycStep := fun u arg s => by
  refine ⟨_, exec_oscSetcyc u arg s, ?_⟩
  rw [oscAt_respond, oscAt_setOsc_self]
  exact ⟨oscSetCycle_pos .., oscSetCycle_q16_step .., rfl, onlyOsc_respond_setOsc ..⟩

end Sys2Proof.Machine
end

section
/-! Class EG (41_envelope.md): what each command does to its unit. Every command is one write of the unit and one response, so its
effect is the procedure's, and its frame is the same for all. -/

namespace Sys2Proof.Machine

open Sys2Proof

/-! ### One write and one response -/

theorem setEg_egAt_self (s : State) (e : OpId) : s.setEg e (s.egAt e) = s := by cases e <;> rfl

theorem egAt_respond_setEg_self (s : State) (e : OpId) (x : Eg) (v : Int) : (respond v (s.setEg e x)).egAt e = x := by
  rw [egAt_respond, egAt_setEg, if_pos rfl]

/-- The frame of class EG. -/
theorem onlyEg_respond_setEg (s : State) (e : OpId) (x : Eg) (v : Int) : OnlyEg e s (respond v (s.setEg e x)) :=
  ⟨by simp, fun f hf => by rw [egAt_respond, egAt_setEg, if_neg hf], by simp, by simp, by simp [SameOutside]⟩

theorem OnlyEg.refl (e : OpId) (s : State) : OnlyEg e s s := ⟨rfl, fun _ _ => rfl, rfl, rfl, rfl, rfl⟩

theorem OnlyEg.trans {e : OpId} {s t u : State} (h : OnlyEg e s t) (k : OnlyEg e t u) : OnlyEg e s u := by
  obtain ⟨h1, h2, h3, h4, h5, h6⟩ := h
  obtain ⟨k1, k2, k3, k4, k5, k6⟩ := k
  exact ⟨k1.trans h1, fun f hf => (k2 f hf).trans (h2 f hf), k3.trans h3, k4.trans h4, k5.trans h5, k6.trans h6⟩

/-- A write of what the unit holds changes nothing but the response. -/
theorem respond_setEg_of_eq {s : State} {e : OpId} {x : Eg} (h : x = s.egAt e) (v : Int) :
    respond v (s.setEg e x) = { s with rsp := u32 v } := by
  rw [h, setEg_egAt_self]; rfl

/-- A procedure that changes nothing the second time makes a command that changes nothing the second time. -/
theorem respond_setEg_again {g : Eg → Eg} (hg : ∀ x, g (g x) = g x) {s t : State} {e : OpId} {v : Int}
    (ht : t = respond v (s.setEg e (g (s.egAt e)))) : respond v (t.setEg e (g (t.egAt e))) = t := by
  have hx : g (t.egAt e) = t.egAt e := by rw [ht, egAt_respond_setEg_self, hg]
  rw [respond_setEg_of_eq hx, ht]
  rfl

/-! ### The commands that latch (R145, R147 to R149, R158, R159) -/

theorem exec_egInit (e : OpId) (rar rdr rsr rrr : BitVec 6) (sl : BitVec 4) (tl : BitVec 7) (s : State) :
    exec (.egInit e rar rdr rsr rrr sl tl) s = .next (respond 0 (s.setEg e (updateParams s.config
      { s.egAt e with rar := rar, rdr := rdr, rsr := rsr, rrr := rrr, sl := sl, tl := tl, rate := 0, hold := 0, freeze := 0,
                      st := .attack, cur := 0 }))) := rfl

theorem exec_egSetrate (e : OpId) (rate : BitVec 20) (s : State) :
    exec (.egSetrate e rate) s = .next (respond 0 (s.setEg e (updateParams s.config { s.egAt e with rate := rate }))) := rfl

theorem exec_egSetfrz (e : OpId) (val : BitVec 7) (s : State) :
    exec (.egSetfrz e val) s = .next (respond 0 (s.setEg e (updateParams s.config { s.egAt e with freeze := val }))) := rfl

theorem exec_egUpdate (e : OpId) (s : State) :
    exec (.egUpdate e) s = .next (respond 0 (s.setEg e (updateParams s.config (s.egAt e)))) := rfl

theorem exec_egSethold_legal {holdn : BitVec 15} (h : holdn.toNat ≤ 16129) (e : OpId) (s : State) :
    exec (.egSethold e holdn) s = .next (respond 0 (s.setEg e (updateParams s.config { s.egAt e with hold := holdn }))) := by
  rw [exec, execEgSethold, if_neg (by omega)]
  rfl

theorem exec_egSethold_reserved {holdn : BitVec 15} (h : 16129 < holdn.toNat) (e : OpId) (s : State) :
    exec (.egSethold e holdn) s = .next { s with rsp := 0 } := by
  rw [exec, execEgSethold, if_pos h]
  rfl

/-- What the commands that latch have in common: the unit holds the new control registers `y` and what R145 makes of them. -/
theorem latches_of_eq {e : OpId} {y : Eg} {s t : State} (ht : t = respond 0 (s.setEg e (updateParams s.config y))) :
    t.egAt e = withLatched y (t.egAt e) ∧ EgLatched s.config (t.egAt e) ∧ t.rsp = 0 ∧ OnlyEg e s t := by
  have hx : t.egAt e = updateParams s.config y := by rw [ht, egAt_respond_setEg_self]
  rw [hx, withLatched_updateParams, ht]
  exact ⟨rfl, updateParams_latched (configOf_valid s.cfg) y, rfl, onlyEg_respond_setEg ..⟩

/-- Settles O16: construction writes the parameters and latches. -/
theorem egInitConstructs : Obligations.EgInitConstructs := fun e rar rdr rsr rrr sl tl s =>
  ⟨_, exec_egInit e rar rdr rsr rrr sl tl s, latches_of_eq rfl⟩

/-- Settles O17: each command writes its operand and latches. -/
theorem egRateAndFreeze : Obligations.EgRateAndFreeze :=
  ⟨fun e rate s => ⟨_, exec_egSetrate e rate s, latches_of_eq rfl⟩,
    fun e val s => ⟨_, exec_egSetfrz e val s, latches_of_eq rfl⟩⟩

/-- Settles O18: at the full numerator the factor of the three decrements is 0. -/
theorem egSetholdStores : Obligations.EgSetholdStores := fun e holdn s => by
  refine ⟨fun h => ⟨_, exec_egSethold_legal h e s, ?_⟩, fun h => exec_egSethold_reserved h e s⟩
  obtain ⟨hstored, hlatched, hrsp, hframe⟩ := latches_of_eq (s := s) (e := e) (y := { s.egAt e with hold := holdn }) rfl
  refine ⟨hstored, hlatched, hrsp, hframe, fun hfull => hlatched.decrements_zero (.inl ?_)⟩
  rw [hstored]
  exact hfull

/-- Settles O19: in a state of the invariant a unit is latched already unless it is as reset left it. -/
theorem egUpdateLatches : Obligations.EgUpdateLatches := fun e s => by
  obtain ⟨hstored, hlatched, hrsp, hframe⟩ := latches_of_eq (s := s) (e := e) (y := s.egAt e) rfl
  refine ⟨_, exec_egUpdate e s, hstored, hlatched, hrsp, hframe, fun hinv hne => respond_setEg_of_eq ?_ 0⟩
  obtain ⟨-, hl, -⟩ := hinv e
  exact updateParams_of_latched (configOf_valid s.cfg) (hl.resolve_left hne)

/-! ### Key-off (R157) -/

theorem exec_egKeyoff (e : OpId) (s : State) : exec (.egKeyoff e) s = .next (respond 0 (s.setEg e (egKeyOff (s.egAt e)))) := rfl

theorem egKeyOff_frame (x : Eg) : egKeyOff x = { x with st := stAfterKeyoff x.st } := by
  unfold egKeyOff stAfterKeyoff
  cases h : x.st <;> simp [← h]

theorem stAfterKeyoff_idem (x : EgState) : stAfterKeyoff (stAfterKeyoff x) = stAfterKeyoff x := by cases x <;> rfl

theorem egKeyOff_idem (x : Eg) : egKeyOff (egKeyOff x) = egKeyOff x := by simp only [egKeyOff_frame, stAfterKeyoff_idem]

theorem stAfterKeyoff_of_released {x : EgState} (h : x ∈ releasedChain) : stAfterKeyoff x = x := by
  cases x <;> simp_all [releasedChain, stAfterKeyoff]

/-- Settles O20: key-off writes `ST` alone, by its column of the transition table. -/
theorem egKeyoffReleases : Obligations.EgKeyoffReleases := fun e s => by
  refine ⟨_, exec_egKeyoff e s, ?_⟩
  rw [egAt_respond_setEg_self, egKeyOff_st]
  refine ⟨egKeyOff_frame _, fun h => by rw [h]; rfl, fun h => by rw [h]; rfl, fun h => by rw [h]; rfl, fun h => ?_, ?_, rfl,
    onlyEg_respond_setEg ..⟩
  · exact stAfterKeyoff_of_released (by simp [releasedChain] at h ⊢; tauto)
  · rw [exec_egKeyoff, respond_setEg_again egKeyOff_idem rfl]

/-! ### Sound-off (R156) -/

theorem exec_egSndoff (e : OpId) (s : State) :
    exec (.egSndoff e) s = .next (respond 0 (s.setEg e (egSoundOff s.config (s.egAt e)))) := rfl

theorem egSoundOff_of_finished (c : Config) {x : Eg} (h : x.st = .finished) : egSoundOff c x = x := by
  rw [egSoundOff, h]

theorem egSoundOff_of_code (c : Config) {x : Eg} (hf : x.st ≠ .finished) (hl : linearState x.st = false) :
    egSoundOff c x = { x with st := .soundoff } := by
  unfold egSoundOff
  cases h : x.st <;> simp_all [linearState]

theorem egSoundOff_of_linear (c : Config) {x : Eg} (hl : linearState x.st = true) :
    egSoundOff c x = { x with st := .soundoff, cur := levelCode c x.cur.toNat } := by
  unfold egSoundOff
  cases h : x.st <;> simp_all [linearState]

theorem egSoundOff_idem (c : Config) (x : Eg) : egSoundOff c (egSoundOff c x) = egSoundOff c x := by
  by_cases hf : (egSoundOff c x).st = .finished
  · exact egSoundOff_of_finished c hf
  · have hs : (egSoundOff c x).st = .soundoff := by
      rw [egSoundOff_st, stAfterSndoff] at hf ⊢
      split at hf
      · exact absurd rfl hf
      · rw [if_neg ‹_›]
    rw [egSoundOff_of_code c hf (linearState_egSoundOff c x), ← hs]

/-- Settles O21: the three cases of the procedure, and LIN2LOG fits a register below 2^31. -/
theorem egSndoffJumps : Obligations.EgSndoffJumps := fun e s => by
  refine ⟨_, exec_egSndoff e s, ?_⟩
  rw [egAt_respond_setEg_self]
  refine ⟨egSoundOff_of_finished _, egSoundOff_of_code _, fun h => ?_, ?_, rfl, onlyEg_respond_setEg ..⟩
  · rw [egSoundOff_of_linear _ h]
    exact ⟨rfl, levelCode_toNat (configOf_valid s.cfg)⟩
  · rw [exec_egSndoff, config_respond, config_setEg, respond_setEg_again (egSoundOff_idem s.config) rfl]

/-! ### One sample (R150 to R155, R160, R161) -/

theorem exec_egNext (e : OpId) (s : State) :
    exec (.egNext e) s = .next (respond (egNext s.config (s.egAt e)).2 (s.setEg e (egNext s.config (s.egAt e)).1)) := rfl

/-- A sample of a unit, once it is known what `EgNext` makes of the unit and returns. -/
theorem exec_egNext_of_eq {e : OpId} {s : State} {y : Eg} {v : Nat} (h : egNext s.config (s.egAt e) = (y, v)) :
    ∃ t, exec (.egNext e) s = .next t ∧ t.egAt e = y ∧ t.rsp = BitVec.ofNat 32 v ∧ OnlyEg e s t := by
  refine ⟨_, exec_egNext e s, ?_⟩
  rw [egAt_respond_setEg_self, rsp_respond, h, u32_natCast]
  exact ⟨rfl, rfl, onlyEg_respond_setEg ..⟩

theorem egNext_linear_eq (c : Config) {x : Eg} (h : linearState x.st = true) :
    egNext c x = egRise c (if x.st = .attack then .decay else .decayRelease) x := by
  unfold egNext
  cases hs : x.st <;> simp_all [linearState]

theorem egNext_decay (c : Config) {x : Eg} (h : x.st = .decay) : egNext c x = egFall c x.fDr .sastain x := by rw [egNext, h]

theorem egNext_decayRelease (c : Config) {x : Eg} (h : x.st = .decayRelease) :
    egNext c x = egFall c (decayReleaseStep x) .release x := by rw [egNext, h]

theorem egNext_sastain (c : Config) {x : Eg} (h : x.st = .sastain) : egNext c x = egFade c x.fSr x := by rw [egNext, h]

theorem egNext_soundoff (c : Config) {x : Eg} (h : x.st = .soundoff) : egNext c x = egFade c x.fOr x := by rw [egNext, h]

theorem egNext_release (c : Config) {x : Eg} (h : x.st = .release) : egNext c x = egReleaseArm c x := by rw [egNext, h]

theorem egNext_finished (c : Config) {x : Eg} (h : x.st = .finished) : egNext c x = (x, 0) := by rw [egNext, h]

/-- Settles O22: the rise does not wrap by R37 (d), and the peak is a function of `TL`, which only a construction or a reset writes. -/
theorem egNextAttack : Obligations.EgNextAttack := fun e s hinv hlin => by
  have hc : s.config.Valid := configOf_valid s.cfg
  have hlat := (hinv e).latched hlin
  have hpeak : ∀ (i : Instr) (u : State), exec i s = .next u → constructs i e = false → i ≠ .sgReset →
      (u.egAt e).fTl = (s.egAt e).fTl :=
    fun i u hu hi hr => ((exec_egChange hu e).keeps_params hc hi hr).2 hlat
  have hn := egNext_linear_eq s.config hlin
  rcases egRise_cases s.config (if (s.egAt e).st = .attack then .decay else .decayRelease) (s.egAt e) with ⟨h, hy⟩ | ⟨h, hy⟩
  · obtain ⟨t, ht, hg, hr, hf⟩ := exec_egNext_of_eq (hn.trans hy)
    refine ⟨t, ht, fun _ => ?_, fun h' => absurd h' (by omega), hf, hpeak⟩
    rw [hr, hg, BitVec.ofNat_toNat, BitVec.setWidth_eq]
    exact ⟨rfl, (rise_toNat hc hlat h).1, rfl⟩
  · obtain ⟨t, ht, hg, hr, hf⟩ := exec_egNext_of_eq (hn.trans hy)
    have hle := hlat.fTl_le hc
    refine ⟨t, ht, fun h' => absurd h' (by omega), fun _ => ?_, hf, hpeak⟩
    rw [hr, hg, BitVec.toNat_ofNat]
    exact ⟨rfl, levelCode_toNat hc (by omega), Nat.mod_eq_of_lt (by omega)⟩

/-- A sample of a unit in DECAY or DECAY_RELEASE, which falls by `d` (R152, R153). -/
theorem exec_egNext_fall {e : OpId} {s : State} {d : BitVec 32} {after : EgState}
    (hn : egNext s.config (s.egAt e) = egFall s.config d after (s.egAt e)) :
    ∃ t, exec (.egNext e) s = .next t ∧
      ((s.egAt e).fSl.toNat + d.toNat < (s.egAt e).cur.toNat →
        t.egAt e = { s.egAt e with cur := (t.egAt e).cur } ∧ (t.egAt e).cur.toNat = (s.egAt e).cur.toNat - d.toNat) ∧
      ((s.egAt e).cur.toNat ≤ (s.egAt e).fSl.toNat + d.toNat →
        t.egAt e = { s.egAt e with cur := (t.egAt e).cur, st := after } ∧
        (t.egAt e).cur.toNat = min (s.egAt e).cur.toNat (s.egAt e).fSl.toNat) ∧
      t.rsp = BitVec.ofNat 32 (decoded s.config (t.egAt e).cur.toNat) ∧ OnlyEg e s t := by
  rcases egFall_cases s.config d after (s.egAt e) with ⟨h, hy⟩ | ⟨h, hy⟩ <;>
    obtain ⟨t, ht, hg, hr, hf⟩ := exec_egNext_of_eq (hn.trans hy) <;>
    refine ⟨t, ht, ?_⟩ <;> rw [hr, hg]
  · exact ⟨fun _ => ⟨rfl, sub_toNat (by omega)⟩, fun h' => absurd h' (by omega), rfl, hf⟩
  · exact ⟨fun h' => absurd h' (by omega), fun _ => ⟨rfl, min_code_toNat _⟩, by rw [← min_code_toNat], hf⟩

/-- Settles O23: both states are one arm of the procedure. -/
theorem egNextDecay : Obligations.EgNextDecay := by
  rintro e s x after (⟨hs, rfl, rfl⟩ | ⟨hs, rfl, rfl⟩)
  · exact exec_egNext_fall (egNext_decay _ hs)
  · rw [← decayReleaseStep_toNat]
    exact exec_egNext_fall (egNext_decayRelease _ hs)

/-- A sample of a unit in SASTAIN or SOUNDOFF, which fades by `d` (R154, R160). -/
theorem exec_egNext_fade {e : OpId} {s : State} {d : BitVec 32}
    (hn : egNext s.config (s.egAt e) = egFade s.config d (s.egAt e)) :
    ∃ t, exec (.egNext e) s = .next t ∧
      (d.toNat < (s.egAt e).cur.toNat →
        (t.egAt e).cur.toNat = (s.egAt e).cur.toNat - d.toNat ∧
        (1 < decoded s.config (t.egAt e).cur.toNat →
          t.egAt e = { s.egAt e with cur := (t.egAt e).cur } ∧
          t.rsp = BitVec.ofNat 32 (decoded s.config (t.egAt e).cur.toNat)) ∧
        (decoded s.config (t.egAt e).cur.toNat ≤ 1 →
          t.egAt e = { s.egAt e with cur := (t.egAt e).cur, st := .finished } ∧ t.rsp = 0)) ∧
      ((s.egAt e).cur.toNat ≤ d.toNat → t.egAt e = { s.egAt e with st := .finished } ∧ t.rsp = 0) ∧ OnlyEg e s t := by
  rcases egFade_cases s.config d (s.egAt e) with ⟨h, hd, hy⟩ | ⟨h, hd, hy⟩ | ⟨h, hy⟩ <;>
    obtain ⟨t, ht, hg, hr, hf⟩ := exec_egNext_of_eq (hn.trans hy) <;>
    refine ⟨t, ht, ?_⟩ <;> rw [hr, hg]
  · exact ⟨fun _ => ⟨sub_toNat (by omega), fun _ => ⟨rfl, rfl⟩, fun h' => absurd hd (not_lt.2 h')⟩,
      fun h' => absurd h' (by omega), hf⟩
  · exact ⟨fun _ => ⟨sub_toNat (by omega), fun h' => absurd h' (not_lt.2 hd), fun _ => ⟨rfl, rfl⟩⟩,
      fun h' => absurd h' (by omega), hf⟩
  · exact ⟨fun h' => absurd h' (by omega), fun _ => ⟨rfl, rfl⟩, hf⟩

/-- Settles O24: both states are one arm of the procedure. -/
theorem egNextFade : Obligations.EgNextFade := by
  rintro e s x (⟨hs, rfl⟩ | ⟨hs, rfl⟩)
  · exact exec_egNext_fade (egNext_sastain _ hs)
  · exact exec_egNext_fade (egNext_soundoff _ hs)

/-- Settles O25: FINISHED writes back what the unit holds, and RELEASE has the three outcomes of `egReleaseArm_cases`. -/
theorem egNextRelease : Obligations.EgNextRelease := by
  refine ⟨fun e s hs => ?_, fun e s hs => ?_⟩
  · rw [exec_egNext, egNext_finished _ hs]
    exact congrArg _ (respond_setEg_of_eq rfl 0)
  · have hn := egNext_release s.config hs
    rcases egReleaseArm_cases s.config (s.egAt e) with ⟨h, hd, hy⟩ | ⟨h, hd, hy⟩ | ⟨h, hy⟩ <;>
      obtain ⟨t, ht, hg, hr, hf⟩ := exec_egNext_of_eq (hn.trans hy) <;>
      refine ⟨t, ht, ?_⟩ <;> rw [hr, hg]
    · exact ⟨fun _ => ⟨sub_toNat (by omega), by rw [if_pos hd], rfl⟩, fun h' => absurd h' (by omega), hf⟩
    · exact ⟨fun _ => ⟨sub_toNat (by omega), by rw [if_neg (not_lt.2 hd), ← hs], rfl⟩, fun h' => absurd h' (by omega), hf⟩
    · exact ⟨fun h' => absurd h' (by omega), fun _ => ⟨rfl, rfl⟩, hf⟩

end Sys2Proof.Machine
end

section
/-! The envelope as a state machine (41_envelope.md): the transition table (R162), the two chains (R163), and what follows over runs of
commands (R165, R166), at one unit and at the voice (43_soundgen.md R215, R216). -/

namespace Sys2Proof.Machine

open Sys2Proof

/-! ### The transition table (R162) -/

section
variable {i : Instr} {e : OpId}

/-! A command has at most one of the four effects. -/

theorem advances_of_keysOff (h : keysOff i e = true) : advances i e = false := by
  cases i <;> simp_all [advances, keysOff]

theorem advances_keysOff_of_soundsOff (h : soundsOff i e = true) : advances i e = false ∧ keysOff i e = false := by
  cases i <;> simp_all [advances, keysOff, soundsOff]

theorem no_other_of_constructs (h : constructs i e = true) :
    advances i e = false ∧ keysOff i e = false ∧ soundsOff i e = false := by
  cases i <;> simp_all [advances, keysOff, soundsOff, constructs]

end

/-- The state register of a unit after a command. -/
theorem EgChange.st_eq {c : Config} {i : Instr} {e : OpId} {x y : Eg} (h : EgChange c i e x y) :
    y.st = (if advances i e then stAfterNext c x
      else if keysOff i e then stAfterKeyoff x.st
      else if soundsOff i e then stAfterSndoff x.st
      else if constructs i e then .attack
      else if i = .sgReset then .finished
      else x.st) := by
  cases h with
  | keep ha hk hs hc hr => simp [ha, hk, hs, hc, hr]
  | advance ha => simp [ha, egNext_st]
  | keyOff hk => simp [advances_of_keysOff hk, hk, egKeyOff_st]
  | soundOff hs =>
    obtain ⟨ha, hk⟩ := advances_keysOff_of_soundsOff hs
    simp [ha, hk, hs, egSoundOff_st]
  | construct hc =>
    obtain ⟨ha, hk, hs⟩ := no_other_of_constructs hc
    simp [ha, hk, hs, hc, egInit]
  | reset hr => subst hr; rfl
  | control ha hk hs hc hr z hz => rw [hz]; simp [ha, hk, hs, hc, hr]

/-- A command that advances a unit does nothing else to it. -/
theorem EgChange.eq_egNext {c : Config} {i : Instr} {e : OpId} {x y : Eg} (h : EgChange c i e x y) (ha : advances i e = true) :
    y = (egNext c x).1 := by
  cases h with
  | advance => rfl
  | keep ha' => rw [ha'] at ha; cases ha
  | keyOff hk => rw [advances_of_keysOff hk] at ha; cases ha
  | soundOff hs => rw [(advances_keysOff_of_soundsOff hs).1] at ha; cases ha
  | construct hc => rw [(no_other_of_constructs hc).1] at ha; cases ha
  | reset hr => subst hr; cases ha
  | control ha' => rw [ha'] at ha; cases ha

/-- A sound-off of a unit does nothing else to it. -/
theorem EgChange.eq_egSoundOff {c : Config} {i : Instr} {e : OpId} {x y : Eg} (h : EgChange c i e x y)
    (hs : soundsOff i e = true) : y = egSoundOff c x := by
  have ⟨ha, hk⟩ := advances_keysOff_of_soundsOff hs
  cases h with
  | soundOff => rfl
  | keep _ _ hs' => rw [hs'] at hs; cases hs
  | advance ha' => rw [ha] at ha'; cases ha'
  | keyOff hk' => rw [hk] at hk'; cases hk'
  | construct hc => rw [(no_other_of_constructs hc).2.2] at hs; cases hs
  | reset hr => subst hr; cases hs
  | control _ _ hs' => rw [hs'] at hs; cases hs

/-- Settles O26: the table is what a command can make of a unit, read at `ST`. -/
theorem envelopeTransitions : Obligations.EnvelopeTransitions := fun i s t e h => by
  have hch := exec_egChange h e
  refine ⟨hch.st_eq, fun hs hl hcur => ?_⟩
  rw [hch.eq_egSoundOff hs, egSoundOff_of_linear _ hl]
  exact levelCode_toNat (configOf_valid s.cfg) hcur

/-! ### The two chains (R163) -/

/-- The `EG.NEXT` column leads forward. -/
theorem forward_stAfterNext (c : Config) (x : Eg) : Forward x.st (stAfterNext c x) := by
  unfold stAfterNext
  cases x.st <;> dsimp only <;> repeat' split
  all_goals decide

/-- FINISHED is the only state on both chains. -/
theorem eq_finished_of_mem_chains {x : EgState} (hp : x ∈ playingChain) (hr : x ∈ releasedChain) : x = .finished := by
  cases x <;> simp_all [playingChain, releasedChain]

/-- Nothing stands after FINISHED. -/
theorem eq_finished_of_forward {y : EgState} (h : Forward .finished y) : y = .finished := by
  revert h; cases y <;> decide

theorem forward_mem_playingChain {x y : EgState} (h : Forward x y) (hx : x ∈ playingChain) : y ∈ playingChain := by
  obtain rfl | hp | hr := h
  · exact hx
  · exact hp.subset (by simp)
  · obtain rfl := eq_finished_of_mem_chains hx (hr.subset (by simp))
    rwa [eq_finished_of_forward (.inr (.inr hr))]

theorem forward_mem_releasedChain {x y : EgState} (h : Forward x y) (hx : x ∈ releasedChain) : y ∈ releasedChain := by
  obtain rfl | hp | hr := h
  · exact hx
  · obtain rfl := eq_finished_of_mem_chains (hp.subset (by simp)) hx
    rwa [eq_finished_of_forward (.inr (.inl hp))]
  · exact hr.subset (by simp)

theorem stAfterSndoff_mem_releasedChain (x : EgState) : stAfterSndoff x ∈ releasedChain := by cases x <;> decide

/-- Settles O27: a sample moves along its chain, and every other transition of the table either stays, crosses over, or constructs. -/
theorem envelopeNeverRegresses : Obligations.EnvelopeNeverRegresses := fun i s t e h => by
  have hst := (exec_egChange h e).st_eq
  have hfwd := forward_stAfterNext s.config (s.egAt e)
  refine ⟨fun ha => ?_, fun hx hy hne => ?_, fun hx hy hne => ?_⟩
  · rwa [hst, if_pos ha]
  · by_contra hno
    obtain ⟨hk, hs⟩ := not_or.1 hno
    refine hne (eq_finished_of_mem_chains ?_ hy)
    rw [hst, if_neg hk, if_neg hs]
    split_ifs
    · exact forward_mem_playingChain hfwd hx
    · decide
    · decide
    · exact hx
  · by_contra hc
    refine hne (eq_finished_of_mem_chains hy ?_)
    rw [hst, if_neg hc]
    split_ifs
    · exact forward_mem_releasedChain hfwd hx
    · rwa [stAfterKeyoff_of_released hx]
    · exact stAfterSndoff_mem_releasedChain _
    · decide
    · exact hx

/-! ### Levels outside the attack (R165 (a)) -/

/-- A level that fits the signed response port is read back as it is. -/
theorem egNext_level_lt {c : Config} (hc : c.Valid) (hfit : LevelsFit c) {x : Eg} (hl : linearState x.st = false) :
    (egNext c x).2 < 2 ^ 31 := by
  rw [egNext_level hl]
  split
  · decide
  · exact (decoded_le hc _).trans_lt hfit

/-- The levels of two samples with only `LogStep`s between them. -/
theorem egNext_level_anti {c : Config} (hc : c.Valid) {x y : Eg} (hx : linearState x.st = false)
    (h : LogStep c (egNext c x).1 y) : (egNext c y).2 ≤ (egNext c x).2 := by
  have hstep : LogStep c (egNext c x).1 (egNext c y).1 := h.trans (egNext_logStep h.lin)
  rw [egNext_level hx, egNext_level h.lin]
  split
  · exact Nat.zero_le _
  next hy =>
    rw [if_neg fun hf => hy (hstep.fin hf)]
    exact decoded_mono hc (hstep.cur hy)

/-- Settles O28: the code never grows over a run, and decoding is monotone. -/
theorem levelNonIncreasing : Obligations.LevelNonIncreasing := fun e s s1 s2 s3 run _ hfit hl hrun h1 h2 h3 => by
  have hc : s.config.Valid := configOf_valid s.cfg
  have hcfg : s2.config = s.config := (execAll_config h2).trans (exec_config h1)
  rw [exec_egNext] at h1 h3
  cases h1; cases h3
  have hlog := execAll_logStep h2 hrun (by rw [egAt_respond_setEg_self]; exact (egNext_logStep hl).lin)
  rw [egAt_respond_setEg_self, config_respond, config_setEg] at hlog
  have hle := egNext_level_anti hc hl hlog
  have hlt := egNext_level_lt hc hfit hl
  rw [rsp_respond, rsp_respond, hcfg, u32_toInt (by omega) (by omega), u32_toInt (by omega) (by omega)]
  exact_mod_cast hle

/-! ### Held notes (R145 (b), R165 (d), R166) -/

theorem decoded_zero_le {c : Config} (hc : c.Valid) : decoded c 0 ≤ 1 := by
  simpa [decoded] using hc.expRom_zero

/-- A code that decodes above 1 is not exhausted. -/
theorem cur_pos_of_decoded {c : Config} (hc : c.Valid) {v : Nat} (h : 1 < decoded c v) : 0 < v := by
  refine Nat.pos_of_ne_zero fun h0 => ?_
  have := decoded_zero_le hc
  rw [h0] at h
  omega

/-- A fall by nothing keeps the code, and goes on exactly from the sustain level down. -/
theorem egFall_zero (c : Config) {d : BitVec 32} (hd : d = 0) (after : EgState) (x : Eg) :
    egFall c d after x = ({ x with st := if x.fSl.toNat < x.cur.toNat then x.st else after }, decoded c x.cur.toNat) := by
  subst hd
  rcases egFall_cases c 0 after x with ⟨h, hy⟩ | ⟨h, hy⟩ <;> rw [hy]
  · change x.fSl.toNat < x.cur.toNat at h
    rw [if_pos h, sub_zero]
  · change x.cur.toNat ≤ x.fSl.toNat at h
    rw [if_neg (not_lt.2 h), if_pos (BitVec.le_def.2 h), min_eq_left h]

theorem egFade_zero {c : Config} (hc : c.Valid) {x : Eg} (h : 1 < decoded c x.cur.toNat) :
    egFade c 0 x = (x, decoded c x.cur.toNat) := by
  have hpos := cur_pos_of_decoded hc h
  rcases egFade_cases c 0 x with ⟨-, -, hy⟩ | ⟨-, hd, -⟩ | ⟨h0, -⟩
  · rw [hy, sub_zero]
  · rw [sub_zero] at hd; omega
  · exact absurd hpos (not_lt.2 h0)

theorem egReleaseArm_zero (c : Config) {x : Eg} (hr : x.fRr = 0) (hpos : 0 < x.cur.toNat) :
    egReleaseArm c x =
      ({ x with st := if decoded c x.cur.toNat < c.soundoffLevel then .soundoff else x.st }, decoded c x.cur.toNat) := by
  have hcode : x.cur - x.fRr = x.cur := by rw [hr, sub_zero]
  rcases egReleaseArm_cases c x with ⟨-, hd, hy⟩ | ⟨-, hd, hy⟩ | ⟨h0, -⟩
  · rw [hcode] at hd hy
    rw [hy, if_pos hd]
  · rw [hcode] at hd hy
    rw [hy, if_neg (not_lt.2 hd)]
  · rw [hr] at h0; exact absurd hpos (not_lt.2 h0)

/-- The three decrements that the pedals scale, at a pedal's maximum. -/
theorem EgInv.decrements_zero {c : Config} {x : Eg} (h : EgInv c x) (hp : x.hold.toNat = 16129 ∨ x.freeze.toNat = 127) :
    x.fDr = 0 ∧ x.fSr = 0 ∧ x.fRr = 0 := by
  obtain ⟨-, rfl | hl, -⟩ := h
  · exact ⟨rfl, rfl, rfl⟩
  · exact hl.decrements_zero hp

/-- If from each state of `sts` a sample leads to one of them and keeps the code and its level, then so do any number of samples. -/
theorem staysHeld_of_egNext {e : OpId} {s : State} {sts : List EgState} (hst : (s.egAt e).st ∈ sts)
    (hstep : ∀ x ∈ sts, ∃ y ∈ sts, egNext s.config { s.egAt e with st := x } =
      ({ s.egAt e with st := y }, decoded s.config (s.egAt e).cur.toNat)) (n : Nat) : StaysHeld e n sts s := by
  induction n with
  | zero => exact ⟨s, rfl, rfl, hst, nofun, .refl e s⟩
  | succ n ih =>
    obtain ⟨t, hrun, hg, hx, -, hf⟩ := ih
    obtain ⟨y, hy, hn⟩ := hstep _ hx
    rw [← hg, ← execAll_config hrun] at hn
    obtain ⟨u, hu, hgu, hr, hfu⟩ := exec_egNext_of_eq hn
    refine ⟨u, ?_, ?_, ?_, fun _ => ?_, hf.trans hfu⟩
    · rw [List.replicate_succ']
      exact execAll_append.2 ⟨t, hrun, execAll_cons.2 ⟨u, hu, rfl⟩⟩
    · rw [hgu]
    · rw [hgu]; exact hy
    · rw [hr, execAll_config hrun]

theorem egNext_decay_held (c : Config) {x : Eg} (hs : x.st = .decay) (hd : x.fDr = 0) :
    egNext c x =
      ({ x with st := if x.fSl.toNat < x.cur.toNat then .decay else .sastain }, decoded c x.cur.toNat) := by
  rw [egNext_decay c hs, egFall_zero c hd, hs]

theorem egNext_decayRelease_held (c : Config) {x : Eg} (hs : x.st = .decayRelease) (hd : x.fDr = 0) (hr : x.fRr = 0) :
    egNext c x =
      ({ x with st := if x.fSl.toNat < x.cur.toNat then .decayRelease else .release }, decoded c x.cur.toNat) := by
  have hstep : decayReleaseStep x = 0 := by rw [decayReleaseStep, hd, hr, ite_self]
  rw [egNext_decayRelease c hs, egFall_zero c hstep, hs]

theorem egNext_sastain_held {c : Config} (hc : c.Valid) {x : Eg} (hs : x.st = .sastain) (hd : x.fSr = 0)
    (hlevel : 1 < decoded c x.cur.toNat) : egNext c x = (x, decoded c x.cur.toNat) := by
  rw [egNext_sastain c hs, hd, egFade_zero hc hlevel]

theorem egNext_release_held {c : Config} (hc : c.Valid) {x : Eg} (hs : x.st = .release) (hr : x.fRr = 0)
    (hlevel : c.soundoffLevel ≤ decoded c x.cur.toNat) : egNext c x = (x, decoded c x.cur.toNat) := by
  have hpos := cur_pos_of_decoded hc (hc.soundoffLevel_ge.trans hlevel)
  rw [egNext_release c hs, egReleaseArm_zero c hr hpos, if_neg (not_lt.2 hlevel)]

/-- Settles O29: at a full pedal the decrements are 0, so a sample keeps the code and moves the state at most along the list. -/
theorem heldNoteStays : Obligations.HeldNoteStays := fun e s n hinv hp => by
  have hc : s.config.Valid := configOf_valid s.cfg
  obtain ⟨hdr, hsr, hrr⟩ := (hinv e).decrements_zero hp
  refine ⟨fun hst hd => ?_, fun hst hd => ?_, fun hst hcur => ?_, fun hst hpos hd => ?_⟩
  · refine staysHeld_of_egNext hst (fun x hx => ?_) n
    obtain rfl | rfl := List.mem_pair.1 hx
    · exact ⟨_, by split <;> simp, egNext_decay_held (x := { s.egAt e with st := .decay }) _ rfl hdr⟩
    · exact ⟨_, hx, egNext_sastain_held (x := { s.egAt e with st := .sastain }) hc rfl hsr hd⟩
  · refine staysHeld_of_egNext hst (fun x hx => ?_) n
    obtain rfl | rfl := List.mem_pair.1 hx
    · exact ⟨_, by split <;> simp, egNext_decayRelease_held (x := { s.egAt e with st := .decayRelease }) _ rfl hdr hrr⟩
    · exact ⟨_, hx, egNext_release_held (x := { s.egAt e with st := .release }) hc rfl hrr hd⟩
  · refine staysHeld_of_egNext (List.mem_singleton_self _) (fun x hx => ⟨x, hx, ?_⟩) n
    obtain rfl := List.mem_singleton.1 hx
    obtain h | h := List.mem_pair.1 hst
    · rw [egNext_decay_held _ h hdr, if_pos hcur, ← h]
    · rw [egNext_decayRelease_held _ h hdr hrr, if_pos hcur, ← h]
  · exact exec_egNext_of_eq (by rw [egNext_release _ hst, egReleaseArm_zero _ hrr hpos, if_pos hd])

/-! ### The end of a released note (R165 (c)) -/

/-- A unit that was keyed off with hold and freeze at 0. -/
structure Releasing (c : Config) (x : Eg) : Prop where
  inv : EgInv c x
  hold : x.hold = 0
  freeze : x.freeze = 0
  st : x.st ∈ releasedChain

/-- A bound on the samples until a released unit is FINISHED: a rise takes at most `FTL - CUR` and the hand-over; after it the code falls
with each sample, or the state moves on. -/
def samplesLeft (x : Eg) : Nat :=
  match x.st with
  | .attackRelease => x.fTl.toNat - x.cur.toNat + (2 ^ 32 + 3)
  | .decayRelease => x.cur.toNat + 3
  | .release => x.cur.toNat + 2
  | .soundoff => x.cur.toNat + 1
  | .attack | .decay | .sastain | .finished => 0

theorem samplesLeft_le (x : Eg) : samplesLeft x ≤ 2 ^ 15 + 3 * 2 ^ 32 := by
  have hcur := x.cur.isLt
  have htl := x.fTl.isLt
  unfold samplesLeft
  split <;> omega

theorem releasing_egKeyOff {c : Config} {x : Eg} (h : EgInv c x) (hh : x.hold = 0) (hf : x.freeze = 0) :
    Releasing c (egKeyOff x) := by
  refine ⟨egInv_egKeyOff h, ?_, ?_, ?_⟩
  · rw [egKeyOff_frame]; exact hh
  · rw [egKeyOff_frame]; exact hf
  · rw [egKeyOff_st]; cases x.st <;> decide

theorem releasing_egNext {c : Config} (hc : c.Valid) {x : Eg} (h : Releasing c x) : Releasing c (egNext c x).1 := by
  refine ⟨egInv_egNext hc h.inv, ?_, ?_, ?_⟩
  · rw [egNext_frame]; exact h.hold
  · rw [egNext_frame]; exact h.freeze
  · rw [egNext_st]; exact forward_mem_releasedChain (forward_stAfterNext c x) h.st

section
variable {c : Config} {x : Eg}

theorem samplesLeft_lt_of_attackRelease (hc : c.Valid) (hl : EgLatched c x) (hs : x.st = .attackRelease) :
    samplesLeft (egNext c x).1 < samplesLeft x := by
  rw [egNext_linear_eq c (by rw [hs]; rfl), hs, if_neg (by decide)]
  rcases egRise_cases c .decayRelease x with ⟨h, hy⟩ | ⟨-, hy⟩ <;> rw [hy] <;> simp only [samplesLeft, hs]
  · have hcur := (rise_toNat hc hl h).1
    have har := hl.fAr_pos
    omega
  · have hcode := (levelCode c x.fTl.toNat).isLt
    omega

theorem samplesLeft_lt_of_decayRelease (hrr : 1 ≤ x.fRr.toNat) (hs : x.st = .decayRelease) :
    samplesLeft (egNext c x).1 < samplesLeft x := by
  rw [egNext_decayRelease c hs]
  rcases egFall_cases c (decayReleaseStep x) .release x with ⟨h, hy⟩ | ⟨-, hy⟩ <;> rw [hy] <;> simp only [samplesLeft, hs]
  · have hstep := decayReleaseStep_toNat x
    rw [sub_toNat (by omega)]
    omega
  · rw [min_code_toNat]
    omega

theorem samplesLeft_lt_of_release (hrr : 1 ≤ x.fRr.toNat) (hs : x.st = .release) :
    samplesLeft (egNext c x).1 < samplesLeft x := by
  rw [egNext_release c hs]
  rcases egReleaseArm_cases c x with ⟨h, -, hy⟩ | ⟨h, -, hy⟩ | ⟨-, hy⟩ <;> rw [hy] <;> simp only [samplesLeft, hs]
  · rw [sub_toNat (by omega)]
    omega
  · rw [sub_toNat (by omega)]
    omega
  · omega

theorem samplesLeft_lt_of_soundoff (hor : 1 ≤ x.fOr.toNat) (hs : x.st = .soundoff) :
    samplesLeft (egNext c x).1 < samplesLeft x := by
  rw [egNext_soundoff c hs]
  rcases egFade_cases c x.fOr x with ⟨h, -, hy⟩ | ⟨-, -, hy⟩ | ⟨-, hy⟩ <;> rw [hy] <;> simp only [samplesLeft, hs]
  · rw [sub_toNat (by omega)]
    omega
  · omega
  · omega

end

/-- A sample of a released unit brings FINISHED nearer. -/
theorem samplesLeft_egNext_lt {c : Config} (hc : c.Valid) {x : Eg} (h : Releasing c x) (hf : x.st ≠ .finished) :
    samplesLeft (egNext c x).1 < samplesLeft x := by
  obtain ⟨⟨-, hlat, -⟩, hhold, hfreeze, hmem⟩ := h
  have hl := hlat.resolve_left (ne_reset_of_st hf)
  have hrr := hl.fRr_pos hhold hfreeze
  simp only [releasedChain, List.mem_cons, List.not_mem_nil, or_false] at hmem
  obtain hs | hs | hs | hs | hs := hmem
  · exact samplesLeft_lt_of_attackRelease hc hl hs
  · exact samplesLeft_lt_of_decayRelease hrr hs
  · exact samplesLeft_lt_of_release hrr hs
  · exact samplesLeft_lt_of_soundoff hl.fOr_pos hs
  · exact absurd hs hf

/-- One sample of a unit, its level left aside. -/
def egAdvance (c : Config) (x : Eg) : Eg := (egNext c x).1

theorem egAdvance_iterate_finished {c : Config} (hc : c.Valid) (n : Nat) {x : Eg} (h : Releasing c x) (hn : samplesLeft x ≤ n) :
    ((egAdvance c)^[n] x).st = .finished := by
  induction n generalizing x with
  | zero =>
    rw [Function.iterate_zero_apply]
    by_contra hf
    exact absurd (samplesLeft_egNext_lt hc h hf) (by omega)
  | succ n ih =>
    rw [Function.iterate_succ_apply]
    refine ih (releasing_egNext hc h) ?_
    by_cases hf : x.st = .finished
    · rw [egAdvance, egNext_finished c hf, samplesLeft, hf]
      exact Nat.zero_le n
    · have := samplesLeft_egNext_lt hc h hf
      rw [egAdvance]
      omega

/-- The same sample command, any number of times. -/
theorem execAll_replicate_advances {i : Instr} (hi : ∀ s, ∃ t, exec i s = .next t) (n : Nat) (s : State) :
    ∃ t, execAll (List.replicate n i) s = .next t ∧
      ∀ e, advances i e = true → t.egAt e = (egAdvance s.config)^[n] (s.egAt e) := by
  induction n generalizing s with
  | zero => exact ⟨s, rfl, fun _ _ => rfl⟩
  | succ n ih =>
    obtain ⟨u, hu⟩ := hi s
    obtain ⟨t, hrun, ht⟩ := ih u
    refine ⟨t, execAll_cons.2 ⟨u, hu, hrun⟩, fun e he => ?_⟩
    rw [ht e he, exec_config hu, (exec_egChange hu e).eq_egNext he, Function.iterate_succ_apply, egAdvance]

/-- Settles O30: `samplesLeft` falls with every sample and is within the bound. -/
theorem releaseFinishes : Obligations.ReleaseFinishes := fun e s hinv hh hf => by
  have hc : s.config.Valid := configOf_valid s.cfg
  have hrel := releasing_egKeyOff (hinv e) hh hf
  obtain ⟨t, hrun, ht⟩ := execAll_replicate_advances (i := .egNext e) (fun s => ⟨_, exec_egNext e s⟩)
    (samplesLeft (egKeyOff (s.egAt e))) (respond 0 (s.setEg e (egKeyOff (s.egAt e))))
  refine ⟨_, samplesLeft_le _, t, execAll_cons.2 ⟨_, exec_egKeyoff e s, hrun⟩, ?_⟩
  rw [ht e (by simp [advances]), egAt_respond_setEg_self, config_respond, config_setEg]
  exact egAdvance_iterate_finished hc _ hrel le_rfl

/-- A voice all of whose operators have finished answers SG.FIN with 1 (43_soundgen.md R215). -/
theorem exec_sgFin_of_finished {s : State} (h : ∀ e, (s.egAt e).st = .finished) : exec .sgFin s = .next { s with rsp := 1 } := by
  have hfin : sgFinished s = true := by simp [sgFinished, carrierDone, opFinished, h]
  rw [exec, execSgFin, hfin]
  rfl

/-- Settles O53: SG.KEYOFF releases the four units, and SG.NEXT advances all of them. -/
theorem keyedOffVoiceFinishes : Obligations.KeyedOffVoiceFinishes := fun s hinv hpedals => by
  have hc : s.config.Valid := configOf_valid s.cfg
  have hkey : exec .sgKeyoff s = .next (respond 0 (forAllOps (fun o => onEg o egKeyOff) s)) := rfl
  have hrel : ∀ e, Releasing s.config ((respond 0 (forAllOps (fun o => onEg o egKeyOff) s)).egAt e) := fun e => by
    rw [egAt_respond, egAt_forAllOps (g := egKeyOff) (fun o f t => egAt_onEg o f egKeyOff t)]
    exact releasing_egKeyOff (hinv e) (hpedals e).1 (hpedals e).2
  obtain ⟨t, hrun, ht⟩ := execAll_replicate_advances (i := .sgNext) (fun s => ⟨_, rfl⟩) (2 ^ 15 + 3 * 2 ^ 32)
    (respond 0 (forAllOps (fun o => onEg o egKeyOff) s))
  have hfin : ∀ e, (t.egAt e).st = .finished := fun e => by
    rw [ht e rfl, exec_config hkey]
    exact egAdvance_iterate_finished hc _ (hrel e) (samplesLeft_le _)
  exact ⟨_, le_rfl, t, execAll_cons.2 ⟨_, hkey, hrun⟩, exec_sgFin_of_finished hfin, hfin⟩

/-! ### The end of a note after a sound-off (R160, R165 (e)) -/

/-- A sample in SOUNDOFF finishes, or lowers the code and leaves it above 0. -/
theorem egNext_of_soundoff {c : Config} (hc : c.Valid) {x : Eg} (h : EgInv c x) (hs : x.st = .soundoff) :
    (egNext c x).1.st = .finished ∨
      (egNext c x).1.st = .soundoff ∧ 0 < (egNext c x).1.cur.toNat ∧ (egNext c x).1.cur.toNat < x.cur.toNat := by
  have hlat : EgLatched c x := h.2.1.resolve_left (ne_reset_of_st (by simp [hs]))
  have hor := hlat.fOr_pos
  rw [egNext_soundoff c hs]
  rcases egFade_cases c x.fOr x with ⟨h1, hd, hy⟩ | ⟨-, -, hy⟩ | ⟨-, hy⟩ <;> rw [hy]
  · have hcur := sub_toNat (a := x.cur) (b := x.fOr) (by omega)
    exact .inr ⟨hs, cur_pos_of_decoded hc hd, by simp only []; omega⟩
  · exact .inl rfl
  · exact .inl rfl

/-- A command that neither advances nor constructs a unit in SOUNDOFF leaves it there with its code, or resets it. -/
theorem EgChange.of_soundoff {c : Config} {i : Instr} {e : OpId} {x y : Eg} (h : EgChange c i e x y)
    (ha : advances i e = false) (hc : constructs i e = false) (hs : x.st = .soundoff) :
    y.st = .finished ∨ y.st = .soundoff ∧ y.cur = x.cur := by
  cases h with
  | keep => exact .inr ⟨hs, rfl⟩
  | advance ha' => rw [ha] at ha'; cases ha'
  | keyOff => rw [egKeyOff_frame, hs]; exact .inr ⟨rfl, rfl⟩
  | soundOff =>
    rw [egSoundOff_of_code c (by simp [hs]) (by rw [hs]; rfl)]
    exact .inr ⟨rfl, rfl⟩
  | construct hc' => rw [hc] at hc'; cases hc'
  | reset => exact .inl rfl
  | control _ _ _ _ _ z hz => rw [hz]; exact .inr ⟨hs, rfl⟩

theorem execAll_finished {e : OpId} {l : List Instr} {s t : State} (h : execAll l s = .next t)
    (hc : ∀ i ∈ l, constructs i e = false) (hf : (s.egAt e).st = .finished) : (t.egAt e).st = .finished :=
  (execAll_logStep h hc (by rw [hf]; rfl)).fin hf

/-- As many samples as the code is high end SOUNDOFF, whatever comes between them. -/
theorem execAll_of_soundoff {e : OpId} {l : List Instr} {s t : State} (hinv : s.Inv) (h : execAll l s = .next t)
    (hc : ∀ i ∈ l, constructs i e = false) (hs : (s.egAt e).st = .soundoff)
    (hn : max 1 (s.egAt e).cur.toNat ≤ l.countP (fun i => advances i e)) : (t.egAt e).st = .finished := by
  induction l generalizing s with
  | nil => simp at hn
  | cons i l ih =>
    obtain ⟨u, hu, hl⟩ := execAll_cons.1 h
    have hcl : ∀ j ∈ l, constructs j e = false := fun j hj => hc j (List.mem_cons_of_mem i hj)
    have hch := exec_egChange hu e
    by_cases ha : advances i e = true
    · rw [List.countP_cons_of_pos (p := fun i => advances i e) ha] at hn
      have hnext := egNext_of_soundoff (c := s.config) (configOf_valid s.cfg) (hinv e) hs
      rw [← hch.eq_egNext ha] at hnext
      obtain hf | ⟨hs', hpos, hlt⟩ := hnext
      · exact execAll_finished hl hcl hf
      · exact ih (exec_inv hu hinv) hl hcl hs' (by omega)
    · rw [List.countP_cons_of_neg (p := fun i => advances i e) ha] at hn
      obtain hf | ⟨hs', hcur⟩ := hch.of_soundoff (by simpa using ha) (hc i (List.mem_cons_self ..)) hs
      · exact execAll_finished hl hcl hf
      · exact ih (exec_inv hu hinv) hl hcl hs' (by rwa [hcur])

/-- Settles O31: the unit is in SOUNDOFF or FINISHED after the command, and `execAll_of_soundoff` counts its samples. -/
theorem soundOffFinishes : Obligations.SoundOffFinishes := fun e s s1 s2 run hinv h1 h2 hc hn => by
  have hst : (s1.egAt e).st = stAfterSndoff (s.egAt e).st := by
    rw [(exec_egChange h1 e).eq_egSoundOff (by simp [soundsOff]), egSoundOff_st]
  rw [stAfterSndoff] at hst
  split at hst
  · exact execAll_finished h2 hc hst
  · exact execAll_of_soundoff (exec_inv h1 hinv) h2 hc hst hn

end Sys2Proof.Machine
end

section
/-! Class OP (42_operator.md): construction, tuning, the three sample forms and OP.FIN, with the bounds of the two gains (R187, and
43_soundgen.md R213). The three sample forms leave one state, `sampledState`, and OP.NEXT is OP.NEXTM at modulation 0, so the sample
forms are settled through OP.NEXTM. -/

namespace Sys2Proof.Machine

open Sys2Proof

/-! ### The frame of class OP -/

namespace OnlyOperator

variable {o : OpId} {s t : State}

theorem refl (o : OpId) (s : State) : OnlyOperator o s s :=
  ⟨fun _ _ => rfl, fun _ _ => rfl, fun _ _ => rfl, rfl, rfl, rfl⟩

theorem setOp (h : OnlyOperator o s t) (r : OpRegs) : OnlyOperator o s (t.setOp o r) := by
  obtain ⟨hosc, heg, hop, hsg, hhost, hcfg⟩ := h
  exact ⟨by simpa using hosc, by simpa using heg, fun p hp => by rw [opAt_setOp, if_neg hp, hop p hp], by simpa using hsg,
    by simpa using hhost, by simpa using hcfg⟩

theorem setOsc (h : OnlyOperator o s t) (x : Osc) : OnlyOperator o s (t.setOsc o.osc x) := by
  obtain ⟨hosc, heg, hop, hsg, hhost, hcfg⟩ := h
  exact ⟨fun u hu => by rw [oscAt_setOsc, if_neg hu, hosc u hu], by simpa using heg, by simpa using hop, by simpa using hsg,
    by simpa using hhost, by simpa using hcfg⟩

theorem setEg (h : OnlyOperator o s t) (y : Eg) : OnlyOperator o s (t.setEg o y) := by
  obtain ⟨hosc, heg, hop, hsg, hhost, hcfg⟩ := h
  exact ⟨by simpa using hosc, fun f hf => by rw [egAt_setEg, if_neg hf, heg f hf], by simpa using hop, by simpa using hsg,
    by simpa using hhost, by simpa using hcfg⟩

theorem respond (h : OnlyOperator o s t) (v : Int) : OnlyOperator o s (respond v t) := h

end OnlyOperator

/-- R190 (c), for the state that the three sample forms leave. -/
theorem onlyOperator_sampledState (o : OpId) (s : State) : OnlyOperator o s (sampledState o s) :=
  ((OnlyOperator.refl o s).setOsc _).setEg _

/-! ### The commands as writes and one response -/

theorem exec_opInit (o : OpId) (p : OpParams) (key : BitVec 7) (s : State) :
    exec (.opInit o p key) s = .next (respond 0 (opInitAt o p key s)) := rfl

theorem exec_opSetfreq (o : OpId) (freq : BitVec 32) (rate : BitVec 20) (s : State) :
    exec (.opSetfreq o freq rate) s = .next (respond 0 (opSetFreqRateAt o (q16 freq) rate s)) := rfl

theorem exec_opNextm (o : OpId) (arg : BitVec 32) (s : State) :
    exec (.opNextm o arg) s = .next (respond (sampledProduct o arg.toInt s) (sampledState o s)) := by
  rw [exec, execOpNextm, opNextMAt_eq, s32]

theorem exec_opNextam (o : OpId) (amv : BitVec 9) (mod : BitVec 32) (s : State) :
    exec (.opNextam o amv mod) s =
      .next (respond (asr (sampledProduct o mod.toInt s * amGain s.config (s.opAt o) amv.toInt) 15) (sampledState o s)) := by
  rw [exec, execOpNextam, opNextAmAt_eq, s32, s9]

/-- No modulation is no offset of the lookup (40_oscillator.md R123). -/
theorem oscNextM_zero (c : Config) (x : Osc) : oscNextM c 0 x = oscNext c x := by
  have hoffset : (c.sineDiv : Int) ∣ modOffset c 0 := by simp [modOffset, tdiv]
  rw [oscNextM, oscNext, modIndex_of_dvd hoffset]

theorem exec_oscNextm_zero (u : OscId) (s : State) : exec (.oscNextm u 0) s = exec (.oscNext u) s :=
  oscNextmCorners u 0 s (.inr (dvd_zero _))

/-- R185: modulation 0 is no modulation. -/
theorem exec_opNextm_zero (o : OpId) (s : State) : exec (.opNextm o 0) s = exec (.opNext o) s := by
  rw [exec_opNextm, exec, execOpNext, opNextAt_eq, sampledProduct, show (0 : BitVec 32).toInt = 0 from rfl, oscNextM_zero]

/-! ### OP.INIT (R180, R181) -/

theorem scaledRate_toNat (r : BitVec 5) (k : Nat) : (scaledRate r k).toNat = min 63 (2 * r.toNat + k) := by
  rw [scaledRate, BitVec.toNat_ofNat, Nat.mod_eq_of_lt (by omega)]

theorem scaledRelease_toNat (r : BitVec 4) (k : Nat) : (scaledRelease r k).toNat = min 63 (4 * r.toNat + 2 + k) := by
  rw [scaledRelease, BitVec.toNat_ofNat, Nat.mod_eq_of_lt (by omega)]

/-- Settles O32: the three writes of the construction, and `EgInit` latches. -/
theorem opInitConstructs : Obligations.OpInitConstructs := fun o p key s => by
  refine ⟨_, exec_opInit o p key s, ?_⟩
  rw [opInitAt_eq, egAt_respond_setEg_self, oscAt_respond, oscAt_setEg, oscAt_setOsc_self, opAt_respond, opAt_setEg, opAt_setOsc,
    opAt_setOp, if_pos rfl]
  exact ⟨rfl, rfl, scaledRate_toNat .., scaledRate_toNat .., scaledRate_toNat .., scaledRelease_toNat .., rfl, rfl, rfl, rfl, rfl,
    rfl, rfl, updateParams_latched (configOf_valid s.cfg) _, rfl, ((((OnlyOperator.refl o s).setOp _).setOsc _).setEg _).respond 0⟩

/-! ### OP.SETFREQ (R182, R183) -/

theorem opMul_eq (r : OpRegs) : opMul r = if r.ml.toNat = 0 then 1 / 2 else (r.ml.toNat : ℚ) := by
  simp only [opMul, BitVec.toNat_eq]
  rfl

/-- The two low bits of `DT` select the row, its high bit the sign. -/
theorem opDet_eq (c : Config) (r : OpRegs) :
    opDet c r = (if r.dt.toNat < 4 then 1 else -1) * c.detuneRom (BitVec.ofNat 2 (r.dt.toNat % 4)) r.key := by
  have hrow : r.dt.setWidth 2 = BitVec.ofNat 2 (r.dt.toNat % 4) := BitVec.eq_of_toNat_eq (by simp)
  rw [opDet, hrow]
  split <;> simp

/-- Settles O33: `oscSetCycle_cycleOf_step` at the effective frequency, and `EgSetRate` latches. -/
theorem opSetfreqTunes : Obligations.OpSetfreqTunes := fun o freq rate s => by
  refine ⟨_, exec_opSetfreq o freq rate s, ?_⟩
  rw [opSetFreqRateAt_eq, egAt_respond_setEg_self, oscAt_respond, oscAt_setEg, oscAt_setOsc_self, opAt_respond, opAt_setEg,
    opAt_setOsc]
  refine ⟨oscSetCycle_pos .., ?_, rfl, updateParams_latched (configOf_valid s.cfg) _, rfl, rfl,
    (((OnlyOperator.refl o s).setOsc _).setEg _).respond 0⟩
  rintro mul det rfl rfl
  rw [oscSetCycle_cycleOf_step, effectiveFreq, opMul_eq, opDet_eq, q16]

/-! ### The gains (R187, 43_soundgen.md R213) -/

/-- The gain is `32768 - (256 - am) * factor`, and `256 - am` is between 1 and 512. -/
theorem amGain_bounds (c : Config) (r : OpRegs) {am : Int} (hlo : -256 ≤ am) (hhi : am ≤ 255) :
    32768 - 512 * (c.amsRom r.ams / 2 : Nat) ≤ amGain c r am ∧ amGain c r am ≤ 32768 - (c.amsRom r.ams / 2 : Nat) := by
  have hfactor : (0 : Int) ≤ (c.amsRom r.ams / 2 : Nat) := Int.natCast_nonneg _
  rw [amGain, amsBias, amsFactor]
  constructor <;> nlinarith

theorem trmGain_bounds {x : Int} (hlo : -32767 ≤ x) (hhi : x ≤ 32767) (depth : BitVec 7) :
    33 ≤ trmGain x depth ∧ trmGain x depth ≤ 4096 := by
  have hdepth : (depth.toNat : Int) ≤ 127 := by have := depth.isLt; omega
  have hnonneg : 0 ≤ (x + 32768) * depth.toNat := mul_nonneg (by omega) (Int.natCast_nonneg _)
  have hprod : (x + 32768) * depth.toNat ≤ 65535 * 127 := mul_le_mul (by omega) hdepth (Int.natCast_nonneg _) (by decide)
  rw [trmGain, asr_eq]
  omega

theorem trmGain_zero (x : Int) : trmGain x 0 = 4096 := by simp [trmGain]

/-- Settles O52: the range of the 9-bit AM value, and the bound on the samples with the 7-bit depth. -/
theorem gainBounds : Obligations.GainBounds := by
  refine ⟨fun c r am hlo hhi => amGain_bounds c r hlo hhi, fun c i depth hc hi => ?_⟩
  obtain ⟨hlo, hhi⟩ := hc.sineRom_bound i hi
  obtain ⟨hmin, hmax⟩ := trmGain_bounds hlo hhi depth
  refine ⟨hmin, hmax, ?_⟩
  rintro rfl
  exact trmGain_zero _

/-- In magnitude the gain is at most unity: R6 bounds the factor by 128. -/
theorem amGain_abs_le {c : Config} (hc : c.Valid) (r : OpRegs) (amv : BitVec 9) : |amGain c r amv.toInt| ≤ 2 ^ 15 := by
  have hfactor := hc.amsRom_bound r.ams
  obtain ⟨hlo, hhi⟩ := amGain_bounds c r (am := amv.toInt) (by have := amv.le_toInt; omega) (by have := amv.toInt_lt; omega)
  rw [abs_le]
  omega

/-- R186 (a): with `AMS` = 0 the gain is unity. -/
theorem amGain_of_ams_zero {c : Config} (hc : c.Valid) {r : OpRegs} (h : r.ams = 0) (am : Int) : amGain c r am = 2 ^ 15 := by
  have hfactor : amsFactor c r = 0 := by rw [amsFactor, h, hc.amsRom_zero]; rfl
  rw [amGain, amsBias, hfactor]
  ring

/-- A product of two factors on the scale `2^15`, one of them at most unity, is brought back within the bound of the other. -/
theorem asr_mul_abs_le {x g b : Int} (hx : |x| ≤ b) (hg : |g| ≤ 2 ^ 15) : |asr (x * g) 15| ≤ b := by
  have hprod : |x * g| ≤ b * 2 ^ 15 := by
    rw [abs_mul]
    exact mul_le_mul hx hg (abs_nonneg g) ((abs_nonneg x).trans hx)
  rw [asr_eq]
  rw [abs_le] at hprod ⊢
  omega

/-! ### The response of a sample -/

/-- A level of a unit in the invariant can be read back from the response port, under assumption 6. -/
theorem EgInv.level_lt {c : Config} (hc : c.Valid) (hfit : LevelsFit c) {x : Eg} (h : EgInv c x) : (egNext c x).2 < 2 ^ 31 := by
  by_cases hl : linearState x.st = true
  · have hlat := h.latched hl
    have hpeak := hlat.fTl_le hc
    rw [egNext_linear_eq c hl]
    rcases egRise_cases c (if x.st = .attack then .decay else .decayRelease) x with ⟨hlt, hy⟩ | ⟨-, hy⟩ <;> rw [hy]
    · have hrise := rise_toNat hc hlat hlt
      simp only []
      omega
    · simp only []
      omega
  · exact egNext_level_lt hc hfit (by simpa using hl)

theorem u32_toInt_of_abs_lt {x : Int} (h : |x| < 2 ^ 31) : (u32 x).toInt = x := by
  obtain ⟨hlo, hhi⟩ := abs_lt.1 h
  exact u32_toInt (by omega) hhi

/-- A sample is below unity. -/
theorem oscNextM_abs_le {c : Config} (hc : c.Valid) (mod : Int) (x : Osc) : |(oscNextM c mod x).2| ≤ 2 ^ 15 := by
  obtain ⟨hlo, hhi⟩ := hc.sineRom_bound _ (modIndex_lt hc (oscAdvance x).pos mod)
  rw [oscNextM, abs_le]
  exact ⟨by omega, by omega⟩

/-- A sample is below unity, so its product with a level is no larger than the level. -/
theorem sampledProduct_abs_lt {s : State} (hinv : s.Inv) (hfit : LevelsFit s.config) (o : OpId) (mod : Int) :
    |sampledProduct o mod s| < 2 ^ 31 := by
  have hc : s.config.Valid := configOf_valid s.cfg
  have hlevel : |((egNext s.config (s.egAt o)).2 : Int)| ≤ 2 ^ 31 - 1 := by
    have hlt := (hinv o).level_lt hc hfit
    rw [Nat.abs_cast]
    omega
  have hprod := asr_mul_abs_le hlevel (oscNextM_abs_le hc mod (s.oscAt o.osc))
  rw [sampledProduct, opOutput, mul_comm]
  omega

/-! ### OP.NEXT and OP.NEXTM (R184, R185) -/

/-- R184, R185: the response is the floor of the product of the two units' responses. -/
theorem u32_sampledProduct_toInt {s : State} (hinv : s.Inv) (hfit : LevelsFit s.config) (o : OpId) (mod : Int) :
    (u32 (sampledProduct o mod s)).toInt =
      (u32 (oscNextM s.config mod (s.oscAt o.osc)).2).toInt * (u32 (egNext s.config (s.egAt o)).2).toInt / 2 ^ 15 := by
  have hc : s.config.Valid := configOf_valid s.cfg
  have hlevel := (hinv o).level_lt hc hfit
  have hsample := oscNextM_abs_le hc mod (s.oscAt o.osc)
  rw [u32_toInt_of_abs_lt (sampledProduct_abs_lt hinv hfit o mod), u32_toInt_of_abs_lt (by omega),
    u32_toInt_of_abs_lt (by rw [Nat.abs_cast]; omega), sampledProduct, opOutput, asr_eq]

/-- Settles O35: `sampledState` is one advance of the oscillator and one sample of the envelope. -/
theorem opNextmSample : Obligations.OpNextmSample := by
  refine ⟨fun o arg s t1 t2 h1 h2 => ⟨_, exec_opNextm o arg s, ?_⟩, exec_opNextm_zero⟩
  cases h1
  cases h2
  refine ⟨?_, ?_, ?_, (onlyOperator_sampledState o s).respond _, fun hinv hfit => ?_⟩
  · rw [oscAt_respond, oscAt_sampledState, if_pos rfl]
    exact (oscAt_setOsc_self ..).symm
  · rw [egAt_respond, egAt_sampledState, if_pos rfl]
    exact (egAt_respond_setEg_self ..).symm
  · rw [opAt_respond, opAt_sampledState]
  · exact u32_sampledProduct_toInt hinv hfit o _

/-- Settles O34: OP.NEXT is OP.NEXTM at modulation 0, as OSC.NEXT is OSC.NEXTM. -/
theorem opNextSample : Obligations.OpNextSample := fun o s t1 t2 h1 h2 => by
  rw [← exec_opNextm_zero]
  exact opNextmSample.1 o 0 s t1 t2 ((exec_oscNextm_zero ..).trans h1) h2

/-! ### OP.NEXTAM (R186) -/

/-- Settles O36: the gain is at most unity, so the scaled response fits the port as OP.NEXTM's does. -/
theorem opNextamSample : Obligations.OpNextamSample := by
  refine ⟨fun o amv mod s t1 h1 => ?_, fun o amv mod s h => ?_⟩
  · rw [exec_opNextm] at h1
    cases h1
    refine ⟨_, exec_opNextam o amv mod s, rfl, ?_⟩
    rintro factor rfl hinv hfit
    have hc : s.config.Valid := configOf_valid s.cfg
    have hproduct := sampledProduct_abs_lt hinv hfit o mod.toInt
    have hscaled := asr_mul_abs_le (Int.le_sub_one_of_lt hproduct) (amGain_abs_le hc (s.opAt o) amv)
    rw [rsp_respond, rsp_respond, u32_toInt_of_abs_lt hproduct, u32_toInt_of_abs_lt (by omega), asr_eq]
    rfl
  · have hc : s.config.Valid := configOf_valid s.cfg
    rw [exec_opNextam, exec_opNextm, amGain_of_ams_zero hc h, asr_eq, Int.mul_ediv_cancel _ (by decide)]

/-! ### The three sample forms together (R190) -/

/-- R190 (b): the level of a finished operator is 0. -/
theorem sampledProduct_of_finished {o : OpId} {s : State} (h : (s.egAt o).st = .finished) (mod : Int) :
    sampledProduct o mod s = 0 := by
  rw [sampledProduct, egNext_finished _ h, opOutput, Nat.cast_zero, mul_zero, asr_zero]

/-- Settles O37: all three leave `sampledState` and differ in the response alone. -/
theorem operatorSampleForms : Obligations.OperatorSampleForms := fun o amv mod s => by
  refine ⟨_, _, _, (exec_opNextm_zero o s).symm.trans (exec_opNextm o 0 s), exec_opNextm o mod s, exec_opNextam o amv mod s, rfl, rfl,
    (onlyOperator_sampledState o s).respond _, ?_, fun hf => ⟨?_, ?_, ?_, ?_⟩⟩
  · rw [opAt_respond, opAt_sampledState]
  · rw [rsp_respond, sampledProduct_of_finished hf, u32_zero]
  · rw [rsp_respond, sampledProduct_of_finished hf, u32_zero]
  · rw [rsp_respond, sampledProduct_of_finished hf, zero_mul, asr_zero, u32_zero]
  · rw [egAt_respond, egAt_sampledState, if_pos rfl, egNext_finished _ hf]

/-! ### OP.FIN (R188) -/

/-- Settles O38: the response is the status value `OPFIN`, and nothing else is written. -/
theorem opFinReads : Obligations.OpFinReads := fun o s => by
  have hexec : exec (.opFin o) s = .next { s with rsp := u32 (finResponse (opFinished s o)) } := rfl
  rw [hexec, opFinished]
  by_cases h : (s.egAt o).st = .finished
  · rw [h, if_pos rfl]
    rfl
  · rw [beq_false_of_ne h, if_neg h]
    rfl

end Sys2Proof.Machine
end

section
/-! Class SG, the commands that write registers (43_soundgen.md R201 to R205, R216 to R223): what SG.CONFIG and the tuning commands make
of each oscillator, and what the commands that act on all four envelopes leave alone. -/

namespace Sys2Proof.Machine

open Sys2Proof

/-! ### SG.CONFIG (R201) -/

/-- Settles O39: the writes are of the SG bank and of the three LFOs. -/
theorem sgConfigConstructs : Obligations.SgConfigConstructs := fun alg fb lfo s => by
  have hexec : exec (.sgConfig alg fb lfo) s = .next (respond 0 (sgConfigure alg fb lfo s)) := rfl
  refine ⟨_, hexec, ?_⟩
  simp [sgConfigure, SameOutside]

/-! ### Tuning (R202 to R205, R222) -/

/-- The last tuning of an oscillator is the one that counts. -/
theorem oscSetCycle_again (c : Config) (x y : ℚ) (o : Osc) : oscSetCycle c x (oscSetCycle c y o) = oscSetCycle c x o := by
  unfold oscSetCycle
  split <;> split <;> rfl

/-- The frequency to which SG.SETFREQ tunes each oscillator, at base frequency `f` (R203, R204). -/
def voiceFreq (s : State) (f : ℚ) : OscId → ℚ
  | .osc1 => effectiveFreq s.config (s.opAt .op1) f
  | .osc2 => effectiveFreq s.config (s.opAt .op2) f
  | .osc3 => effectiveFreq s.config (s.opAt .op3) f
  | .osc4 => effectiveFreq s.config (s.opAt .op4) f
  | .lfoAm => s.config.lfofreqRom s.sg.lfoIdx
  | .lfoVib => q16 s.sg.vibFreq
  | .lfoTrm => q16 s.sg.trmFreq

theorem voiceFreq_op (s : State) (f : ℚ) (o : OpId) : voiceFreq s f o.osc = effectiveFreq s.config (s.opAt o) f := by
  cases o <;> rfl

/-- SG.SETFREQ tunes every oscillator to its frequency at the new rate. -/
theorem oscAt_sgSetFreq (f : ℚ) (rate : BitVec 20) (s : State) (u : OscId) :
    (sgSetFreq f rate s).oscAt u = oscSetCycle s.config (cycleOf (voiceFreq s f u) rate) (s.oscAt u) := by
  obtain ⟨o, rfl⟩ | rfl | rfl | rfl := oscId_cases u
  · simp [sgSetFreq, lfoSetFreq_eq, oscAt_forAllOps_tune, voiceFreq_op]
  all_goals
    simp [sgSetFreq, lfoSetFreq_eq, oscAt_forAllOps_tune_lfo, config_forAllOps_tune, sg_forAllOps_tune, voiceFreq]

@[simp] theorem sg_sgSetFreq (f : ℚ) (rate : BitVec 20) (s : State) : (sgSetFreq f rate s).sg = { s.sg with sgRate := rate } := by
  simp [sgSetFreq, lfoSetFreq_eq, sg_forAllOps_tune]

@[simp] theorem op_sgSetFreq (f : ℚ) (rate : BitVec 20) (s : State) : (sgSetFreq f rate s).op = s.op :=
  op_eq_of_opAt (opAt_sgSetFreq f rate s)

theorem exec_sgSetfreq (freq : BitVec 32) (rate : BitVec 20) (s : State) :
    exec (.sgSetfreq freq rate) s = .next (respond 0 (sgSetFreq (q16 freq) rate s)) := rfl

/-- Settles O40: each oscillator is tuned to its own frequency, the operators' as OP.SETFREQ tunes them. -/
theorem sgSetfreqTunes : Obligations.SgSetfreqTunes := fun freq rate s => by
  have hstep : ∀ u, ((sgSetFreq (q16 freq) rate s).oscAt u).step.toNat =
      stepFor s.config (voiceFreq s (q16 freq) u) rate := fun u => by
    rw [oscAt_sgSetFreq, oscSetCycle_cycleOf_step]
  refine ⟨_, exec_sgSetfreq freq rate s, sg_sgSetFreq (q16 freq) rate s, ?_, pos_sgSetFreq (q16 freq) rate s,
    hstep .lfoAm, hstep .lfoVib, hstep .lfoTrm, op_sgSetFreq (q16 freq) rate s, rfl,
    exec_sameOutside (exec_sgSetfreq freq rate s)⟩
  intro o u hu
  rw [exec_opSetfreq, opSetFreqRateAt_eq] at hu
  cases hu
  rw [oscAt_respond, oscAt_sgSetFreq, voiceFreq_op, egAt_respond, egAt_sgSetFreq]
  simp

/-- What SG.SETVIB and SG.SETTRM have in common: a write `g` of the SG bank, and one LFO tuned at the stored rate. -/
def retuneLfo (v : OscId) (g : SgRegs → SgRegs) (freq : BitVec 32) (s : State) : State :=
  (s.setSg (g s.sg)).setOsc v (oscSetCycle s.config (cycleOf (q16 freq) s.sg.sgRate) (s.oscAt v))

theorem exec_sgSetvib (depth : BitVec 13) (freq : BitVec 32) (s : State) :
    exec (.sgSetvib depth freq) s =
      .next (respond 0 (retuneLfo .lfoVib (fun r => { r with vibDepth := depth, vibFreq := freq }) freq s)) := rfl

theorem exec_sgSettrm_legal {depth : BitVec 13} (h : depth.toNat ≤ 127) (freq : BitVec 32) (s : State) :
    exec (.sgSettrm depth freq) s =
      .next (respond 0 (retuneLfo .lfoTrm (fun r => { r with trmDepth := depth.setWidth 7, trmFreq := freq }) freq s)) :=
  if_neg (Nat.not_lt.2 h)

theorem exec_sgSettrm_reserved {depth : BitVec 13} (h : 127 < depth.toNat) (freq : BitVec 32) (s : State) :
    exec (.sgSettrm depth freq) s = .next { s with rsp := 0 } := if_pos h

section RetuneLfo

variable (v : OscId) (g : SgRegs → SgRegs) (freq : BitVec 32) (s : State)

@[simp] theorem oscAt_retuneLfo (u : OscId) :
    (retuneLfo v g freq s).oscAt u =
      if u = v then oscSetCycle s.config (cycleOf (q16 freq) s.sg.sgRate) (s.oscAt v) else s.oscAt u := by simp [retuneLfo]

@[simp] theorem eg_retuneLfo : (retuneLfo v g freq s).eg = s.eg := by simp [retuneLfo]
@[simp] theorem egAt_retuneLfo (e : OpId) : (retuneLfo v g freq s).egAt e = s.egAt e := by simp [retuneLfo]
@[simp] theorem op_retuneLfo : (retuneLfo v g freq s).op = s.op := by simp [retuneLfo]
@[simp] theorem opAt_retuneLfo (o : OpId) : (retuneLfo v g freq s).opAt o = s.opAt o := by simp [retuneLfo]
@[simp] theorem sg_retuneLfo : (retuneLfo v g freq s).sg = g s.sg := by simp [retuneLfo]
@[simp] theorem host_retuneLfo : (retuneLfo v g freq s).host = s.host := by simp [retuneLfo]
@[simp] theorem cfg_retuneLfo : (retuneLfo v g freq s).cfg = s.cfg := by simp [retuneLfo]
@[simp] theorem config_retuneLfo : (retuneLfo v g freq s).config = s.config := by simp [retuneLfo]

/-- The step of the LFO, and the frame. -/
theorem retuneLfo_tunes {t : State} (ht : t = respond 0 (retuneLfo v g freq s)) :
    (t.oscAt v).pos = (s.oscAt v).pos ∧ (t.oscAt v).step.toNat = stepFor s.config ((freq.toNat : ℚ) / 65536) s.sg.sgRate ∧
    (∀ u, u ≠ v → t.oscAt u = s.oscAt u) ∧ t.eg = s.eg ∧ t.op = s.op ∧ t.rsp = 0 ∧ SameOutside s t := by
  subst ht
  rw [oscAt_respond, oscAt_retuneLfo, if_pos rfl]
  refine ⟨oscSetCycle_pos .., oscSetCycle_cycleOf_step .., fun u hu => ?_, by simp, by simp, rfl, by simp [SameOutside]⟩
  rw [oscAt_respond, oscAt_retuneLfo, if_neg hu]

end RetuneLfo

/-- Settles O41: a legal depth fits the seven bits of `TRMDEPTH`. -/
theorem vibratoAndTremoloStore : Obligations.VibratoAndTremoloStore := by
  refine ⟨fun depth freq s => ⟨_, exec_sgSetvib depth freq s, sg_retuneLfo .., retuneLfo_tunes _ _ _ _ rfl⟩,
    fun depth freq s => ⟨fun h => ⟨_, exec_sgSettrm_legal h freq s, ?_, ?_, retuneLfo_tunes _ _ _ _ rfl⟩,
      fun h => exec_sgSettrm_reserved h freq s⟩⟩
  · rw [sg_respond, sg_retuneLfo]
  · rw [sg_respond, sg_retuneLfo, BitVec.toNat_setWidth, Nat.mod_eq_of_lt (by omega)]

/-! ### The order of the tuning commands (R223) -/

@[simp] theorem cfg_sgSetFreq (f : ℚ) (rate : BitVec 20) (s : State) : (sgSetFreq f rate s).cfg = s.cfg := by
  simp only [sgSetFreq, lfoSetFreq_eq, cfg_setOsc]
  exact forAllOps_keeps (fun s => s.cfg) (fun o t => by simp [opSetFreqRateAt_eq]) _

@[simp] theorem config_sgSetFreq (f : ℚ) (rate : BitVec 20) (s : State) : (sgSetFreq f rate s).config = s.config :=
  congrArg configOf (cfg_sgSetFreq f rate s)

@[simp] theorem host_sgSetFreq (f : ℚ) (rate : BitVec 20) (s : State) : (sgSetFreq f rate s).host = s.host := by
  simp only [sgSetFreq, lfoSetFreq_eq, host_setOsc]
  exact forAllOps_keeps (fun s => s.host) (fun o t => by simp [opSetFreqRateAt_eq]) _

/-- A retuned LFO has its new frequency at the new rate in either order, and the other units are tuned by SG.SETFREQ alone. -/
theorem sgSetFreq_retuneLfo {v : OscId} {g : SgRegs → SgRegs} {freq : BitVec 32} {f : ℚ} {s : State}
    (hg : ∀ r rate, g { r with sgRate := rate } = { g r with sgRate := rate })
    (hf : ∀ u, voiceFreq (s.setSg (g s.sg)) f u = if u = v then q16 freq else voiceFreq s f u) (rate : BitVec 20) :
    respond 0 (retuneLfo v g freq (respond 0 (sgSetFreq f rate s))) =
      respond 0 (sgSetFreq f rate (respond 0 (retuneLfo v g freq s))) := by
  have hfreq : ∀ u, voiceFreq (respond 0 (retuneLfo v g freq s)) f u = if u = v then q16 freq else voiceFreq s f u := fun u => by
    rw [← hf]
    cases u <;> simp [voiceFreq]
  refine State.ext_at (fun u => ?_) (by simp [egAt_sgSetFreq]) (by simp) ?_ rfl (by simp) (by simp)
  · simp only [oscAt_respond, oscAt_retuneLfo, oscAt_sgSetFreq, hfreq]
    by_cases hu : u = v
    · simp [hu, oscSetCycle_again]
    · simp [hu]
  · simp only [sg_respond, sg_retuneLfo, sg_sgSetFreq]
    exact hg s.sg rate

/-- Settles O42: a legal SG.SETTRM retunes as SG.SETVIB does, and a reserved one changes nothing but the response. -/
theorem tuningOrderIrrelevant : Obligations.TuningOrderIrrelevant := fun freq vf tf rate vd td s => by
  constructor
  · simp only [execAll, exec_sgSetfreq, exec_sgSetvib]
    exact congrArg _ (sgSetFreq_retuneLfo (fun _ _ => rfl) (fun u => by cases u <;> simp [voiceFreq]) rate)
  · by_cases h : td.toNat ≤ 127
    · simp only [execAll, exec_sgSetfreq, exec_sgSettrm_legal h]
      exact congrArg _ (sgSetFreq_retuneLfo (fun _ _ => rfl) (fun u => by cases u <;> simp [voiceFreq]) rate)
    · simp only [execAll, exec_sgSetfreq, exec_sgSettrm_reserved (Nat.lt_of_not_le h)]
      rfl

/-! ### All four envelopes (R216 to R221) -/

@[simp] theorem sg_forAllOps_onEg (g : Eg → Eg) (s : State) : (forAllOps (fun o => onEg o g) s).sg = s.sg :=
  forAllOps_keeps (fun s => s.sg) (fun o t => sg_onEg o g t) s

theorem egAt_forAllOps_onEg (g : Eg → Eg) (s : State) (e : OpId) : (forAllOps (fun o => onEg o g) s).egAt e = g (s.egAt e) :=
  egAt_forAllOps (fun o f t => egAt_onEg o f g t) s e

/-- The commands that change the envelopes alike leave every other register alone. -/
theorem forAllOps_onEg_frame {g : Eg → Eg} {s t : State} (ht : t = respond 0 (forAllOps (fun o => onEg o g) s)) :
    t.osc = s.osc ∧ t.op = s.op ∧ t.sg = s.sg ∧ t.rsp = 0 ∧ SameOutside s t := by
  subst ht
  exact ⟨forAllOps_keeps _ (osc_onEg · g) s, forAllOps_keeps _ (op_onEg · g) s, sg_forAllOps_onEg g s, rfl,
    forAllOps_keeps _ (host_onEg · g) s, forAllOps_keeps _ (cfg_onEg · g) s⟩

/-- One EG command for each envelope, and nothing else. -/
theorem forwardsToEnvelopes {i : Instr} {k : OpId → Instr} {g : Eg → Eg} {s : State}
    (hi : exec i s = .next (respond 0 (forAllOps (fun o => onEg o g) s)))
    (hk : ∀ e, exec (k e) s = .next (respond 0 (s.setEg e (g (s.egAt e))))) :
    ∃ t, exec i s = .next t ∧ (∀ (e : OpId) (u : State), exec (k e) s = .next u → t.egAt e = u.egAt e) ∧
      t.osc = s.osc ∧ t.op = s.op ∧ t.sg = s.sg ∧ t.rsp = 0 ∧ SameOutside s t := by
  refine ⟨_, hi, fun e u hu => ?_, forAllOps_onEg_frame rfl⟩
  obtain rfl := Host.Outcome.next.inj ((hk e).symm.trans hu)
  rw [egAt_respond, egAt_forAllOps_onEg, egAt_respond_setEg_self]

/-- Settles O43: each of the three commands makes one change of every envelope. -/
theorem sgForwardsToEnvelopes : Obligations.SgForwardsToEnvelopes :=
  ⟨fun s => forwardsToEnvelopes rfl fun e => exec_egKeyoff e s,
    fun s => forwardsToEnvelopes rfl fun e => exec_egSndoff e s,
    fun val s => forwardsToEnvelopes rfl fun e => exec_egSetfrz e val s⟩

/-! ### The pedals (R218 to R220) -/

theorem holdNumerator_le (d v : BitVec 7) : (holdNumerator d v).toNat ≤ 16129 := by
  rw [holdNumerator_toNat]
  exact Nat.sub_le ..

/-- R218: the numerator is the combined hold with no rounding. -/
theorem holdNumerator_exact (d v : BitVec 7) :
    ((holdNumerator d v).toNat : ℚ) / 16129 = 1 - (1 - (d.toNat : ℚ) / 127) * (1 - (v.toNat : ℚ) / 127) := by
  have hd : d.toNat ≤ 127 := by have := d.isLt; omega
  have hv : v.toNat ≤ 127 := by have := v.isLt; omega
  have hprod : (127 - d.toNat) * (127 - v.toNat) ≤ 16129 := Nat.mul_le_mul (Nat.sub_le 127 _) (Nat.sub_le 127 _)
  rw [holdNumerator_toNat]
  push_cast [hd, hv, hprod]
  ring

theorem sg_respond_sgHold_setSg (r : SgRegs) (s : State) : (respond 0 (sgHold (s.setSg r))).sg = r := by
  rw [sg_respond, sg_sgHold, sg_setSg]

/-- What the two pedals have in common: `SgHold` after a write of the SG bank that stores the operand. -/
theorem sgHold_setSg_holds {r : SgRegs} {s t : State} (ht : t = respond 0 (sgHold (s.setSg r))) :
    (∃ n : BitVec 15, n.toNat ≤ 16129 ∧
      (n.toNat : ℚ) / 16129 = 1 - (1 - (t.sg.damper.toNat : ℚ) / 127) * (1 - (t.sg.sost.toNat : ℚ) / 127) ∧
      ∀ (e : OpId) (u : State), exec (.egSethold e n) s = .next u → t.egAt e = u.egAt e) ∧
    t.osc = s.osc ∧ t.op = s.op ∧ t.rsp = 0 ∧ SameOutside s t := by
  have hsg : t.sg = r := by rw [ht, sg_respond_sgHold_setSg]
  obtain ⟨hosc, hop, -, hrsp, hout⟩ := forAllOps_onEg_frame (s := s.setSg r) ht
  refine ⟨⟨holdNumerator r.damper r.sost, holdNumerator_le .., ?_, fun e u hu => ?_⟩, hosc, hop, hrsp, hout⟩
  · rw [hsg, holdNumerator_exact]
  · rw [exec_egSethold_legal (holdNumerator_le ..)] at hu
    cases hu
    rw [ht, egAt_respond, egAt_sgHold, egAt_respond_setEg_self]
    rfl

/-- Settles O44: both pedals end in `SgHold`, whose numerator is exact. -/
theorem pedalsSetHold : Obligations.PedalsSetHold := fun val s => by
  refine ⟨_, _, rfl, sg_respond_sgHold_setSg _ s, rfl, sg_respond_sgHold_setSg _ s, fun t ht => ?_⟩
  simp only [List.mem_cons, List.not_mem_nil, or_false] at ht
  obtain ht | ht := ht <;> exact sgHold_setSg_holds ht

end Sys2Proof.Machine
end

section
/-! Class SG, one sample (43_soundgen.md R208 to R215, R224): `SG.NEXT` in the closed form of its statement, unit by unit and output by
output, the plain voice, and the voice that has finished. -/

namespace Sys2Proof.Machine

open Sys2Proof

theorem exec_sgNext (s : State) : exec .sgNext s = .next (respond (sgNextSample s).2 (sgNextSample s).1) := rfl

/-! ### The oscillators of a sample (R209, R212) -/

theorem oscAdvance_eq (x : Osc) : oscAdvance x = { pos := BitVec.ofNat 32 (advancedPos x), step := x.step } := by
  rw [advancedPos, ← oscAdvance_pos_toNat, BitVec.ofNat_toNat, BitVec.setWidth_eq]
  rfl

theorem oscNext_sample (c : Config) (x : Osc) : (oscNext c x).2 = nextSample c x := by
  rw [oscNext, sineIndex_eq_tableIndex, oscAdvance_pos_toNat, nextSample, advancedPos]

theorem oscAdvance_oscAddPh_pos_toNat (m : Int) (x : Osc) : (oscAdvance (oscAddPh m x)).pos.toNat = offsetPos x m := by
  have hmoved : ((oscAddPh m x).pos.toNat : Int) = (x.pos.toNat + x.step.toNat * m / 65536) % 2 ^ 32 := by
    rw [oscAddPh, toNat_add_u32, asr_eq]
    rfl
  have hstep : (oscAddPh m x).step = x.step := rfl
  rw [oscAdvance_pos_toNat, hstep, offsetPos]
  omega

theorem oscAdvance_oscAddPh_eq (m : Int) (x : Osc) :
    oscAdvance (oscAddPh m x) = { pos := BitVec.ofNat 32 (offsetPos x m), step := x.step } := by
  rw [← oscAdvance_oscAddPh_pos_toNat, BitVec.ofNat_toNat, BitVec.setWidth_eq]
  rfl

/-- Without vibrato the offset of the sample is 0, which is no move. -/
theorem oscAt_preSample_op (s : State) (o : OpId) : (preSample s).oscAt o.osc = oscAddPh (voiceVib s) (s.oscAt o.osc) := by
  rw [preSample, oscAt_amStep, if_neg (by simp), oscAt_vibratoStep_op, voiceVib]
  split
  · rw [oscAddPh_of_mul_eq_zero (mul_zero _)]
  · rw [vibOffset, vibDeviation, oscNext_sample, asr_eq]

theorem oscAt_sgNextSample_op (s : State) (o : OpId) :
    (sgNextSample s).1.oscAt o.osc =
      { pos := BitVec.ofNat 32 (offsetPos (s.oscAt o.osc) (voiceVib s)), step := (s.oscAt o.osc).step } := by
  rw [sgNextSample_eq, oscAt_tremoloStep, if_neg (by simp), oscAt_algState_op, oscAt_preSample_op, oscAdvance_oscAddPh_eq]

theorem oscAt_sgNextSample_vib (s : State) :
    (sgNextSample s).1.oscAt .lfoVib = if s.sg.vibDepth ≠ 0 then oscAdvance (s.oscAt .lfoVib) else s.oscAt .lfoVib := by
  rw [sgNextSample_eq, oscAt_tremoloStep, if_neg (by simp), oscAt_algState_vib, preSample, oscAt_amStep, if_neg (by simp),
    oscAt_vibratoStep_vib, ite_not]

theorem amEnabled_vibratoStep (s : State) : amEnabled (vibratoStep s) = amEnabled s := amEnabled_congr (by simp)

theorem oscAt_sgNextSample_am (s : State) :
    (sgNextSample s).1.oscAt .lfoAm = if amEnabled s = true then oscAdvance (s.oscAt .lfoAm) else s.oscAt .lfoAm := by
  rw [sgNextSample_eq, oscAt_tremoloStep, if_neg (by simp), oscAt_algState_am, preSample, oscAt_amStep,
    oscAt_vibratoStep_lfo s (.inl rfl), amEnabled_vibratoStep]
  simp

theorem oscAt_preSample_trm (s : State) : (preSample s).oscAt .lfoTrm = s.oscAt .lfoTrm := by
  rw [preSample, oscAt_amStep, if_neg (by simp), oscAt_vibratoStep_lfo s (.inr rfl)]

theorem oscAt_sgNextSample_trm (s : State) :
    (sgNextSample s).1.oscAt .lfoTrm = if s.sg.trmDepth ≠ 0 then oscAdvance (s.oscAt .lfoTrm) else s.oscAt .lfoTrm := by
  rw [sgNextSample_eq, oscAt_tremoloStep, oscAt_algState_trm, oscAt_preSample_trm]
  simp

/-- An LFO advances exactly when its effect is active. -/
theorem lfo_advances_iff {x y : Osc} {p active : Prop} [Decidable p] (hy : y = if p then oscAdvance x else x) (ha : active ↔ p) :
    (active → y = { pos := BitVec.ofNat 32 (advancedPos x), step := x.step }) ∧ (¬ active → y = x) := by
  rw [ha, hy, ← oscAdvance_eq]
  exact ⟨fun h => if_pos h, fun h => if_neg h⟩

/-! ### The values of a sample (R208, R210, R211, R213) -/

theorem amValue_vibratoStep (s : State) : amValue (vibratoStep s) = voiceAm s := by
  have hoff : (∀ o ∈ [OpId.op1, .op2, .op3, .op4], (s.opAt o).ams = 0) ↔ ¬ amEnabled s = true := by
    simp [amEnabled, and_assoc]
  simp only [amValue, voiceAm, hoff, amEnabled_vibratoStep, oscAt_vibratoStep_lfo s (.inl rfl), config_vibratoStep,
    oscNext_sample, asr_eq, ite_not]

/-- An operator's sample is taken at the phase that vibrato left. -/
theorem sampledValue_preSample (s : State) (o : OpId) (mod : Int) :
    sampledValue (voiceAm s) o mod (preSample s) = voiceOp s o mod := by
  have hproduct : sampledProduct o mod (preSample s) =
      s.config.sineRom ((((offsetPos (s.oscAt o.osc) (voiceVib s) / 2 ^ s.config.phaseFrac : Nat) : Int)
        + (mod * s.config.sineDiv).tdiv s.config.modFull) % s.config.sineDiv).toNat * (egNext s.config (s.egAt o)).2 / 2 ^ 15 := by
    rw [sampledProduct, oscAt_preSample_op, egAt_preSample, config_preSample, opOutput, asr_eq, oscNextM, modIndex, phaseIndex,
      Nat.shiftRight_eq_div_pow, oscAdvance_oscAddPh_pos_toNat]
    rfl
  simp only [sampledValue, voiceOp, hproduct]
  cases voiceAm s with
  | none => rfl
  | some am => simp only [asr_eq, amGain, amsBias, amsFactor, config_preSample, opAt_preSample]

theorem feedbackValue_eq (s : State) :
    feedbackValue s = s.sg.fbReg.toInt * 2 ^ s.config.fbPreshift / 2 ^ fbshiftTable s.sg.fb := by
  have hc : s.config.Valid := configOf_valid s.cfg
  rw [feedbackValue, feedbackShift, hc.fbshiftRom_fixed, asr_eq]
  push_cast
  rfl

theorem feedbackValue_preSample (s : State) : feedbackValue (preSample s) = feedbackValue s := by
  simp [feedbackValue, feedbackShift]

theorem algRow_preSample (s : State) : algRow (preSample s) = s.config.algTable s.sg.alg := by simp [algRow]

theorem algOut1_preSample (s : State) : algOut1 (voiceAm s) (preSample s) = voiceOut1 s := by
  rw [algOut1, sampledValue_preSample, feedbackValue_preSample, feedbackValue_eq, voiceOut1]

theorem algOut2_preSample (s : State) : algOut2 (voiceAm s) (preSample s) = voiceOut2 s := by
  rw [algOut2, sampledValue_preSample, algRow_preSample, algOut1_preSample, voiceOut2]
  simp [sumOver]

theorem algOut3_preSample (s : State) : algOut3 (voiceAm s) (preSample s) = voiceOut3 s := by
  rw [algOut3, sampledValue_preSample, algRow_preSample, algOut1_preSample, algOut2_preSample, voiceOut3]
  simp [sumOver]

theorem algOut4_preSample (s : State) : algOut4 (voiceAm s) (preSample s) = voiceOut4 s := by
  rw [algOut4, sampledValue_preSample, algRow_preSample, algOut1_preSample, algOut2_preSample, algOut3_preSample, voiceOut4]
  simp [sumOver]

theorem algSum_preSample (s : State) : algSum (voiceAm s) (preSample s) = voiceMix s := by
  rw [algSum, algRow_preSample, algOut1_preSample, algOut2_preSample, algOut3_preSample, algOut4_preSample]
  rfl

theorem sgNextSample_value (s : State) : (sgNextSample s).2 = voiceReturn s := by
  rw [sgNextSample_eq, amValue_vibratoStep, algSum_preSample, tremoloStep_eq, voiceReturn, sg_algState, sg_preSample,
    config_algState, config_preSample, oscAt_algState_trm, oscAt_preSample_trm]
  split
  · rfl
  · rw [trmGain, asr_eq, asr_eq, oscNext_sample]

theorem sg_sgNextSample_voice (s : State) :
    (sgNextSample s).1.sg = { s.sg with fbReg := u32 (voiceOut1 s) } := by
  rw [sg_sgNextSample, amValue_vibratoStep, algOut1_preSample]

/-- Settles O45: the closed forms above, unit by unit, and the frame of an envelope's sample. -/
theorem sgNextSample_closedForm : Obligations.SgNextSample := fun s => by
  refine ⟨_, exec_sgNext s, ?_, sg_sgNextSample_voice s, fun o => ⟨oscAt_sgNextSample_op s o, egAt_sgNextSample s o, ?_⟩, ?_,
    op_sgNextSample s, host_sgNextSample s, cfg_sgNextSample s⟩
  · rw [rsp_respond, sgNextSample_value]
    rfl
  · rw [egAt_respond, egAt_sgNextSample]
    exact egNext_frame s.config (s.egAt o)
  · rintro u active (⟨rfl, ha⟩ | ⟨rfl, ha⟩ | ⟨rfl, ha⟩)
    · exact lfo_advances_iff (oscAt_sgNextSample_vib s) ha
    · exact lfo_advances_iff (oscAt_sgNextSample_am s) (ha.trans (amEnabled_iff s).symm)
    · exact lfo_advances_iff (oscAt_sgNextSample_trm s) ha

/-! ### The plain voice (R224 (b)) -/

theorem oscAt_sgNextSample_plain {s : State} (hvib : s.sg.vibDepth = 0) (ham : ∀ o, (s.opAt o).ams = 0) (htrm : s.sg.trmDepth = 0) :
    ∀ u ∈ [OscId.lfoAm, .lfoVib, .lfoTrm], (sgNextSample s).1.oscAt u = s.oscAt u := by
  have hoff : ¬ amEnabled s = true := by simp [amEnabled_iff, ham]
  simp [oscAt_sgNextSample_am, oscAt_sgNextSample_vib, oscAt_sgNextSample_trm, hvib, hoff, htrm]

/-- An operator's output depends on its own units, on the vibrato offset and on the AM value. -/
theorem voiceOp_congr {s s' : State} {o : OpId} (hc : s'.config = s.config) (hosc : s'.oscAt o.osc = s.oscAt o.osc)
    (heg : s'.egAt o = s.egAt o) (hams : (s'.opAt o).ams = (s.opAt o).ams) (hvib : voiceVib s' = voiceVib s)
    (ham : voiceAm s' = voiceAm s) (mod : Int) : voiceOp s' o mod = voiceOp s o mod := by
  simp only [voiceOp, hc, hosc, heg, hams, hvib, ham]

/-- Beside the operators, the sum depends on the routing registers and `FBREG`. -/
theorem voiceMix_congr {s s' : State} (hc : s'.config = s.config) (halg : s'.sg.alg = s.sg.alg) (hfb : s'.sg.fb = s.sg.fb)
    (hreg : s'.sg.fbReg = s.sg.fbReg) (hop : ∀ o mod, voiceOp s' o mod = voiceOp s o mod) :
    voiceOut1 s' = voiceOut1 s ∧ voiceMix s' = voiceMix s := by
  have h1 : voiceOut1 s' = voiceOut1 s := by simp only [voiceOut1, hc, hfb, hreg, hop]
  have h2 : voiceOut2 s' = voiceOut2 s := by simp only [voiceOut2, hc, halg, hop, h1]
  have h3 : voiceOut3 s' = voiceOut3 s := by simp only [voiceOut3, hc, halg, hop, h1, h2]
  have h4 : voiceOut4 s' = voiceOut4 s := by simp only [voiceOut4, hc, halg, hop, h1, h2, h3]
  exact ⟨h1, by simp only [voiceMix, hc, halg, h1, h2, h3, h4]⟩

/-- Settles O46: with the three effects off the offset is 0 and there is no AM value, so the outputs agree one after the other. -/
theorem plainVoiceDependsOnOperators : Obligations.PlainVoiceDependsOnOperators := by
  intro s s' hcfg halg hfb hreg hunits hvib hvib' htrm htrm'
  have hosc : ∀ o : OpId, s'.oscAt o.osc = s.oscAt o.osc := fun o => (hunits o).1
  have heg : ∀ o, s'.egAt o = s.egAt o := fun o => (hunits o).2.1
  have hams : ∀ o, (s.opAt o).ams = 0 := fun o => (hunits o).2.2.1
  have hams' : ∀ o, (s'.opAt o).ams = 0 := fun o => (hunits o).2.2.2
  have hc : s'.config = s.config := congrArg configOf hcfg
  have hoffset : voiceVib s' = voiceVib s := (if_pos hvib').trans (if_pos hvib).symm
  have ham : voiceAm s' = voiceAm s := (if_pos fun o _ => hams' o).trans (if_pos fun o _ => hams o).symm
  have hop : ∀ o mod, voiceOp s' o mod = voiceOp s o mod := fun o =>
    voiceOp_congr hc (hosc o) (heg o) ((hams' o).trans (hams o).symm) hoffset ham
  obtain ⟨hout, hmix⟩ := voiceMix_congr hc halg hfb hreg hop
  have hreturn : voiceReturn s' = voiceReturn s := (if_pos htrm').trans (hmix.trans (if_pos htrm).symm)
  refine ⟨_, _, exec_sgNext s, exec_sgNext s', ?_, ?_, fun o => ⟨?_, ?_⟩, fun u hu =>
    ⟨oscAt_sgNextSample_plain hvib hams htrm u hu, oscAt_sgNextSample_plain hvib' hams' htrm' u hu⟩⟩
  · rw [rsp_respond, rsp_respond, sgNextSample_value, sgNextSample_value, hreturn]
  · rw [sg_respond, sg_respond, sg_sgNextSample_voice, sg_sgNextSample_voice, hout]
  · rw [oscAt_respond, oscAt_respond, oscAt_sgNextSample_op, oscAt_sgNextSample_op, hosc, hoffset]
  · rw [egAt_respond, egAt_respond, egAt_sgNextSample, egAt_sgNextSample, hc, heg]

/-! ### The finished voice (R215, R224 (c)) -/

theorem carrierDone_iff (s : State) (o : OpId) :
    carrierDone s o = true ↔ (opSetHas (s.config.algTable s.sg.alg).c o = true → (s.egAt o).st = .finished) := by
  rw [carrierDone, algRow, opFinished]
  cases opSetHas (s.config.algTable s.sg.alg).c o <;> simp

theorem sgFinished_iff (s : State) :
    sgFinished s = true ↔ ∀ o, opSetHas (s.config.algTable s.sg.alg).c o = true → (s.egAt o).st = .finished := by
  simp only [sgFinished, Bool.and_eq_true, carrierDone_iff]
  constructor
  · rintro ⟨⟨⟨h1, h2⟩, h3⟩, h4⟩ o
    cases o
    exacts [h1, h2, h3, h4]
  · exact fun h => ⟨⟨⟨h .op1, h .op2⟩, h .op3⟩, h .op4⟩

theorem sgFinished_of_finished {s : State} (h : ∀ e, (s.egAt e).st = .finished) : sgFinished s = true :=
  (sgFinished_iff s).2 fun o _ => h o

/-- Settles O48: the carriers of row 0 are OP4 alone and those of row 7 are all four, by R206 (d) and (e). -/
theorem sgFinReads : Obligations.SgFinReads := fun s => by
  have hc : s.config.Valid := configOf_valid s.cfg
  have hexec : exec .sgFin s = .next { s with rsp := if sgFinished s then 1 else 0 } := by
    rw [exec, execSgFin]
    cases sgFinished s <;> rfl
  refine ⟨sgFinished s, hexec, rfl, sgFinished_iff s, fun h0 => ?_, fun h7 => ?_⟩
  · rw [sgFinished_iff, h0, hc.algTable_serial]
    refine ⟨fun h => h .op4 rfl, fun h o ho => ?_⟩
    cases o
    case op4 => exact h
    all_goals cases ho
  · rw [sgFinished_iff, h7, hc.algTable_parallel]
    exact ⟨fun h o => h o (by cases o <;> rfl), fun h o _ => h o⟩

/-- `ALG` is written by SG.CONFIG and by SG.RESET alone (10_state.md R32). -/
theorem exec_alg {i : Instr} {s t : State} (h : exec i s = .next t) (hc : ∀ alg fb lfo, i ≠ .sgConfig alg fb lfo)
    (hr : i ≠ .sgReset) : t.sg.alg = s.sg.alg := by
  cases i
  case egSethold e holdn =>
    simp only [exec, execEgSethold] at h
    split at h <;> cases h <;> simp [ignoreReserved]
  case sgConfig alg fb lfo => exact absurd rfl (hc alg fb lfo)
  case sgSettrm depth freq =>
    simp only [exec, execSgSettrm] at h
    split at h <;> cases h <;> simp [ignoreReserved, sgSetTrm, lfoSetFreq_eq]
  case sgReset => exact absurd rfl hr
  all_goals
    cases h
    simp [oscSetCycleAt_eq, oscNextAt_eq, oscNextMAt, oscAddPhAt_eq, egNextAt, opInitAt_eq, opSetFreqRateAt_eq, opNextAt_eq,
      opNextMAt_eq, opNextAmAt_eq, sgSetVib, lfoSetFreq_eq]

/-- FINISHED is left by a construction alone. -/
theorem exec_finished {i : Instr} {s t : State} (h : exec i s = .next t) {e : OpId} (hc : constructs i e = false)
    (hf : (s.egAt e).st = .finished) : (t.egAt e).st = .finished :=
  ((exec_egChange h e).logStep hc (by rw [hf]; rfl)).fin hf

/-- Settles O50: the carriers stay finished, and they stay the carriers, unless SG.RESET finishes every operator. -/
theorem sgFinMonotone : Obligations.SgFinMonotone := fun i s t h hfin hc hcfg => by
  by_cases hr : i = .sgReset
  · subst hr
    cases h
    exact sgFinished_of_finished fun e => by rw [egAt_respond, egAt_resetRegisters]; rfl
  have hcarriers : (s.config.algTable t.sg.alg).c = (s.config.algTable s.sg.alg).c := by
    by_cases hi : ∀ alg fb lfo, i ≠ .sgConfig alg fb lfo
    · rw [exec_alg h hi hr]
    · simp only [not_forall, not_not] at hi
      obtain ⟨alg, fb, lfo, rfl⟩ := hi
      cases h
      exact hcfg alg fb lfo rfl
  rw [sgFinished_iff] at hfin ⊢
  intro o ho
  rw [exec_config h, hcarriers] at ho
  exact exec_finished h (hc o) (hfin o ho)

theorem execAll_sgFinished {run : List Instr} {s t : State} (h : execAll run s = .next t) (hfin : sgFinished s = true)
    (hrun : ∀ i ∈ run, (∀ e, constructs i e = false) ∧ ∀ alg fb lfo, i ≠ .sgConfig alg fb lfo) : sgFinished t = true := by
  induction run generalizing s with
  | nil => cases h; exact hfin
  | cons i run ih =>
    obtain ⟨u, hu, hrest⟩ := execAll_cons.1 h
    obtain ⟨hc, hcfg⟩ := hrun i (.head _)
    exact ih hrest (sgFinMonotone i s u hu hfin hc fun alg fb lfo hi => absurd hi (hcfg alg fb lfo)) fun j hj => hrun j (.tail _ hj)

/-- 42_operator.md R190 (b): the level of a finished operator is 0. -/
theorem voiceOp_of_finished {s : State} {o : OpId} (h : (s.egAt o).st = .finished) (mod : Int) : voiceOp s o mod = 0 := by
  simp only [voiceOp, egNext_finished _ h]
  cases voiceAm s <;> simp

theorem voiceMix_of_sgFinished {s : State} (h : sgFinished s = true) : voiceMix s = 0 := by
  rw [sgFinished_iff] at h
  have h1 : (if (s.config.algTable s.sg.alg).c.op1 then voiceOut1 s else 0) = 0 :=
    ite_eq_right_iff.2 fun hc => voiceOp_of_finished (h .op1 hc) _
  have h2 : (if (s.config.algTable s.sg.alg).c.op2 then voiceOut2 s else 0) = 0 :=
    ite_eq_right_iff.2 fun hc => voiceOp_of_finished (h .op2 hc) _
  have h3 : (if (s.config.algTable s.sg.alg).c.op3 then voiceOut3 s else 0) = 0 :=
    ite_eq_right_iff.2 fun hc => voiceOp_of_finished (h .op3 hc) _
  have h4 : (if (s.config.algTable s.sg.alg).c.op4 then voiceOut4 s else 0) = 0 :=
    ite_eq_right_iff.2 fun hc => voiceOp_of_finished (h .op4 hc) _
  simp only [voiceMix, h1, h2, h3, h4, add_zero]

/-- Settles O49: the voice is still finished when it is sampled, and its sum is then one of zeros. -/
theorem finishedVoiceSilent : Obligations.FinishedVoiceSilent := fun run s s1 s2 hfin hrun h1 h2 => by
  have hmix := voiceMix_of_sgFinished (execAll_sgFinished h1 hfin hrun)
  cases h2
  rw [rsp_respond, sgNextSample_value, voiceReturn, hmix, zero_mul, Int.zero_ediv, ite_self, u32_zero]

/-! ### The feedback (R208) -/

/-- A signed register shifted down by 31 is its sign. -/
theorem toInt_div_sign (x : BitVec 32) : x.toInt / 2 ^ 31 = if x.toInt < 0 then -1 else 0 := by
  have hlo := x.le_toInt
  have hhi := x.toInt_lt
  split <;> omega

/-- In both named configurations a modulation of -1 or 0 is below one table entry. -/
theorem modOffset_named {s : State} (hs : s.cfg ≠ .given) {mod : Int} (h : mod = -1 ∨ mod = 0) : modOffset s.config mod = 0 := by
  apply modOffset_of_lt
  rw [State.config]
  cases hn : s.cfg
  case given => exact absurd hn hs
  all_goals obtain rfl | rfl := h <;> decide

/-- Settles O51: `FBSHIFT_ROM` is the table the source prints. -/
theorem feedbackAmounts : Obligations.FeedbackAmounts := by
  refine ⟨fun c hc => by simp only [hc.fbshiftRom_fixed]; decide, fun s hpre => ⟨fun h0 => ?_, fun h7 => ?_⟩⟩
  · have hvalue : feedbackValue s = if s.sg.fbReg.toInt < 0 then -1 else 0 := by
      rw [feedbackValue_eq, hpre, h0, pow_zero, mul_one]
      exact toInt_div_sign _
    refine ⟨hvalue, fun hs => modOffset_named hs ?_⟩
    rw [hvalue]
    split
    · exact .inl rfl
    · exact .inr rfl
  · rw [feedbackValue_eq, hpre, h7, pow_zero, mul_one]
    exact Int.ediv_one _

/-! ### The routing rows (R207) -/

/-- Settles O47: both configurations have the default rows, compared one by one. -/
theorem defaultAlgorithms : Obligations.DefaultAlgorithms := by
  have hrows : ∀ n ∈ [ConfigName.dflt, .t8], (configOf n).algTable = dfltAlg := by
    intro n hn
    simp only [List.mem_cons, List.not_mem_nil, or_false] at hn
    obtain rfl | rfl := hn <;> rfl
  intro n hn alg
  rw [hrows n hn]
  revert alg
  decide

end Sys2Proof.Machine
end

section
/-! Completion (60_exceptions.md): no command and no step stops (R240), and a command leaves the configuration and the host's further
events alone (20_memory.md R63). -/

namespace Sys2Proof.Machine

open Sys2Proof

/-- Only the two commands with a range limit (30_encoding.md R99 (d), (e)) test an operand, and they complete on both sides of it. -/
theorem exec_completes (i : Instr) (s : State) : ∃ t, exec i s = .next t := by
  cases i
  case egSethold e holdn =>
    obtain h | h := le_or_gt holdn.toNat 16129
    · exact ⟨_, exec_egSethold_legal h e s⟩
    · exact ⟨_, exec_egSethold_reserved h e s⟩
  case sgSettrm depth freq =>
    obtain h | h := le_or_gt depth.toNat 127
    · exact ⟨_, exec_sgSettrm_legal h freq s⟩
    · exact ⟨_, exec_sgSettrm_reserved h freq s⟩
  all_goals exact ⟨_, rfl⟩

/-- A step takes the `RESET` input off the list and resets the registers (70_reset_and_hazards.md R260). -/
theorem step_reset {s : State} {rest : List HostEvent} (hs : s.host = .reset :: rest) :
    step s = .next (pinReset { s with host := rest }) := by
  simp only [step, takeEvent, hs]

/-- Every step completes: idling, the `RESET` input, a reserved word, and a word that decodes, since every command does. -/
theorem step_completes (s : State) : ∃ t, step s = .next t := by
  cases hs : s.host with
  | nil => exact ⟨s, step_of_host_nil hs⟩
  | cons ev rest =>
    cases ev with
    | reset => exact ⟨_, step_reset hs⟩
    | command w =>
      cases hd : decode w with
      | error e => exact ⟨_, step_reserved hd hs⟩
      | ok i =>
        rw [step_command hd hs]
        exact exec_completes i _

/-- Settles O1: every command completes, what it answers lies within the frame `exec_sameOutside` gives, and every step completes. -/
theorem everyCommandCompletes : Obligations.EveryCommandCompletes := by
  refine ⟨fun i s => ?_, step_completes⟩
  obtain ⟨t, ht⟩ := exec_completes i s
  exact ⟨t, ht, exec_sameOutside ht⟩

end Sys2Proof.Machine
end

section
/-! Reset (70_reset_and_hazards.md R260 to R262): both ways to reset write one table of values, and a block that holds those values is
silent. Every procedure that a sample, a key-off or a sound-off runs on such a block writes what is there already. -/

namespace Sys2Proof.Machine

open Sys2Proof

/-! ### The RESET input (R260) -/

/-- Settles O54: the `RESET` input is `resetRegisters`, which writes the registers and no more. -/
theorem pinResetsRegisters : Obligations.PinResetsRegisters := fun _ _ hhost =>
  ⟨_, step_reset hhost, registersReset_resetRegisters _, rfl, rfl⟩

/-! ### A block that has been reset -/

theorem setOsc_oscAt_self (s : State) (u : OscId) : s.setOsc u (s.oscAt u) = s := by cases u <;> rfl

/-- A change that leaves each of the four operators as it is leaves the state as it is. -/
theorem forAllOps_eq_self {f : OpId → State → State} {s : State} (h : ∀ o, f o s = s) : forAllOps f s = s := by
  rw [forAllOps, h, h, h, h]

/-- Key-off does nothing to a finished unit (41_envelope.md R157). -/
theorem egKeyOff_of_finished {x : Eg} (h : x.st = .finished) : egKeyOff x = x := by rw [egKeyOff, h]

theorem onEg_eq_self {e : OpId} {g : Eg → Eg} {s : State} (h : g (s.egAt e) = s.egAt e) : onEg e g s = s := by
  rw [onEg, h, setEg_egAt_self]

namespace RegistersReset

variable {s : State} (h : RegistersReset s)
include h

theorem oscAt_eq (u : OscId) : s.oscAt u = Osc.reset := by
  obtain ⟨hosc, -, -, -⟩ := h
  exact hosc u

theorem egAt_eq (e : OpId) : s.egAt e = Eg.reset := by
  obtain ⟨-, heg, -, -⟩ := h
  exact heg e

theorem opAt_eq (o : OpId) : s.opAt o = OpRegs.reset := by
  obtain ⟨-, -, hop, -⟩ := h
  exact hop o

theorem sg_eq : s.sg = SgRegs.reset := by
  obtain ⟨-, -, -, hsg⟩ := h
  exact hsg

/-- The reset values leave no register free. -/
theorem state_eq {t : State} (ht : RegistersReset t) (hrsp : s.rsp = t.rsp) (hhost : s.host = t.host) (hcfg : s.cfg = t.cfg) :
    s = t :=
  State.ext_at (fun u => (h.oscAt_eq u).trans (ht.oscAt_eq u).symm) (fun e => (h.egAt_eq e).trans (ht.egAt_eq e).symm)
    (fun o => (h.opAt_eq o).trans (ht.opAt_eq o).symm) (h.sg_eq.trans ht.sg_eq.symm) hrsp hhost hcfg

theorem egAt_finished (e : OpId) : (s.egAt e).st = .finished := by rw [h.egAt_eq]; rfl

theorem oscAt_step (u : OscId) : (s.oscAt u).step = 0 := by rw [h.oscAt_eq]; rfl

/-- The response port is no register. -/
theorem registersReset_respond (v : Int) : RegistersReset (respond v s) := h

theorem resetRegisters_eq_self : resetRegisters s = s :=
  (registersReset_resetRegisters s).state_eq h rfl rfl rfl

/-- An oscillator that is stopped does not move. -/
theorem setOsc_oscAdvance_eq_self (u : OscId) : s.setOsc u (oscAdvance (s.oscAt u)) = s := by
  rw [oscAdvance_of_step_zero (h.oscAt_step u), setOsc_oscAt_self]

theorem sampledState_eq_self (o : OpId) : sampledState o s = s := by
  rw [sampledState, h.setOsc_oscAdvance_eq_self, egNext_finished _ (h.egAt_finished o), setEg_egAt_self]

/-! ### The status values -/

theorem sgFinished_true : sgFinished s = true := sgFinished_of_finished h.egAt_finished

theorem vibOn_false : vibOn s = false := by rw [vibOn, h.sg_eq]; rfl

theorem trmOn_false : trmOn s = false := by rw [trmOn, h.sg_eq]; rfl

theorem amEnabled_false : amEnabled s = false := by simp only [amEnabled, h.opAt_eq]; rfl

/-! ### The commands of R262 -/

theorem exec_opFin (o : OpId) : exec (.opFin o) s = .next { s with rsp := 1 } := by
  rw [exec, execOpFin, opFinished, h.egAt_finished]
  rfl

/-- The oscillator stands at phase 0, and `SINE_ROM[0]` is 0 by R6. -/
theorem exec_oscNext (u : OscId) : exec (.oscNext u) s = .next { s with rsp := 0 } := by
  have hc : s.config.Valid := configOf_valid s.cfg
  have hindex : sineIndex s.config (oscAdvance (s.oscAt u)).pos = 0 := by
    rw [oscAdvance_of_step_zero (h.oscAt_step u), h.oscAt_eq]
    simp [Osc.reset, sineIndex, phaseIndex]
  rw [Machine.exec_oscNext, hindex, hc.sineRom_zero, h.setOsc_oscAdvance_eq_self]
  rfl

theorem exec_egNext (e : OpId) : exec (.egNext e) s = .next { s with rsp := 0 } := by
  rw [Machine.exec_egNext, egNext_finished _ (h.egAt_finished e), respond_setEg_of_eq rfl]
  rfl

theorem exec_egKeyoff (e : OpId) : exec (.egKeyoff e) s = .next { s with rsp := 0 } := by
  rw [Machine.exec_egKeyoff, respond_setEg_of_eq (egKeyOff_of_finished (h.egAt_finished e))]
  rfl

theorem exec_egSndoff (e : OpId) : exec (.egSndoff e) s = .next { s with rsp := 0 } := by
  rw [Machine.exec_egSndoff, respond_setEg_of_eq (egSoundOff_of_finished _ (h.egAt_finished e))]
  rfl

theorem exec_opNextm (o : OpId) (arg : BitVec 32) : exec (.opNextm o arg) s = .next { s with rsp := 0 } := by
  rw [Machine.exec_opNextm, sampledProduct_of_finished (h.egAt_finished o), h.sampledState_eq_self]
  rfl

theorem exec_opNext (o : OpId) : exec (.opNext o) s = .next { s with rsp := 0 } := by
  rw [← exec_opNextm_zero, h.exec_opNextm]

theorem exec_opNextam (o : OpId) (amv : BitVec 9) (mod : BitVec 32) : exec (.opNextam o amv mod) s = .next { s with rsp := 0 } := by
  rw [Machine.exec_opNextam, sampledProduct_of_finished (h.egAt_finished o), h.sampledState_eq_self, zero_mul, asr_zero]
  rfl

theorem exec_sgKeyoff : exec .sgKeyoff s = .next { s with rsp := 0 } := by
  rw [exec, execSgKeyoff, forAllOps_eq_self fun o => onEg_eq_self (egKeyOff_of_finished (h.egAt_finished o))]
  rfl

theorem exec_sgSndoff : exec .sgSndoff s = .next { s with rsp := 0 } := by
  rw [exec, execSgSndoff, forAllOps_eq_self fun o => onEg_eq_self (egSoundOff_of_finished _ (h.egAt_finished o))]
  rfl

/-- A sample of the voice leaves the reset values: the operators are stopped, the LFOs are off, and OP1 puts out 0. -/
theorem sgNextSample_state : RegistersReset (sgNextSample s).1 := by
  have hout : voiceOut1 s = 0 := voiceOp_of_finished (h.egAt_finished .op1) _
  refine ⟨fun u => ?_, fun e => ?_, fun o => ?_, ?_⟩
  · obtain ⟨o, rfl⟩ | hlfo : (∃ o : OpId, u = o.osc) ∨ u ∈ [OscId.lfoAm, .lfoVib, .lfoTrm] := by simpa using oscId_cases u
    · rw [oscAt_sgNextSample_op, ← oscAdvance_oscAddPh_eq, oscAddPh_of_mul_eq_zero (by simp [h.oscAt_step]),
        oscAdvance_of_step_zero (h.oscAt_step _)]
      exact h.oscAt_eq _
    · rw [oscAt_sgNextSample_plain (by rw [h.sg_eq]; rfl) (fun o => by rw [h.opAt_eq]; rfl) (by rw [h.sg_eq]; rfl) u hlfo]
      exact h.oscAt_eq u
  · rw [egAt_sgNextSample, egNext_finished _ (h.egAt_finished e)]
    exact h.egAt_eq e
  · rw [opAt_sgNextSample]
    exact h.opAt_eq o
  · rw [sg_sgNextSample_voice, hout, h.sg_eq]
    rfl

/-- The answer is 0 because the voice is finished (43_soundgen.md R215). -/
theorem exec_sgNext : exec .sgNext s = .next { s with rsp := 0 } := by
  have hexec := Machine.exec_sgNext s
  obtain ⟨hhost, hcfg⟩ := exec_sameOutside hexec
  have hrsp := finishedVoiceSilent [] s s _ h.sgFinished_true nofun rfl hexec
  have ht : RegistersReset (respond (sgNextSample s).2 (sgNextSample s).1) := h.sgNextSample_state.registersReset_respond _
  rw [hexec, ht.state_eq (h.registersReset_respond 0) hrsp hhost hcfg]
  rfl

end RegistersReset

/-! ### SG.RESET and the reset block (R261, R262) -/

theorem exec_sgReset (s : State) : exec .sgReset s = .next (respond 0 (resetRegisters s)) := rfl

/-- Settles O55: the command leaves the reset values and the response 0, in which it and SG.NEXT find nothing to change. -/
theorem sgResetResets : Obligations.SgResetResets := by
  refine ⟨by decide, fun s => ?_⟩
  have ht : RegistersReset (respond 0 (resetRegisters s)) := registersReset_resetRegisters s
  refine ⟨_, exec_sgReset s, ht, rfl, exec_sameOutside (exec_sgReset s), ht.sgFinished_true, ht.sgFinished_true, ht.vibOn_false,
    ht.trmOn_false, ht.amEnabled_false, ?_, ht.exec_sgNext, exec_sgFin_of_finished ht.egAt_finished⟩
  rw [exec_sgReset, ht.resetRegisters_eq_self]
  rfl

/-- Settles O56: command by command, and FINISHED is kept as `exec_finished` says. -/
theorem resetBlockSilent : Obligations.ResetBlockSilent := fun s h => by
  refine ⟨h.sgFinished_true, exec_sgFin_of_finished h.egAt_finished, h.exec_opFin, ?_, h.exec_oscNext, fun e => ?_,
    fun e mod amv => ⟨h.exec_opNextm e mod, h.exec_opNextam e amv mod⟩,
    fun i t ht hc e => exec_finished ht (hc e) (h.egAt_finished e)⟩
  · simp [h.exec_sgNext, h.exec_sgKeyoff, h.exec_sgSndoff]
  · simp [h.exec_egNext, h.exec_egKeyoff, h.exec_egSndoff, h.exec_opNext]

end Sys2Proof.Machine
end

section
/-! The start of a note (70_reset_and_hazards.md R264, R265). Between two steps the block holds what the host has still to present, so a
run of steps is a run of commands for commands that leave that list aside, and the first five commands of a NOTE.ON write every register. -/

namespace Sys2Proof.Machine

open Sys2Proof

/-! ### Steps and commands (20_memory.md R70) -/

/-- What the command makes of the block is the same whatever the host has still to present. -/
def HostBlind (i : Instr) : Prop :=
  ∀ (s t : State) (later : List HostEvent), exec i s = .next t → exec i { s with host := later } = .next { t with host := later }

theorem hostBlind_opInit (o : OpId) (p : OpParams) (key : BitVec 7) : HostBlind (.opInit o p key) := fun s t later h => by
  cases h
  cases o <;> rfl

theorem hostBlind_sgConfig (alg fb lfo : BitVec 3) : HostBlind (.sgConfig alg fb lfo) := fun s t later h => by
  cases h
  rfl

theorem hostBlind_sgSetfreq (freq : BitVec 32) (rate : BitVec 20) : HostBlind (.sgSetfreq freq rate) := fun s t later h => by
  cases h
  rfl

theorem run_succ_of_step {s t : State} (h : step s = .next t) (n : Nat) :
    Host.Core.run Sys2Proof.core (n + 1) s = Host.Core.run Sys2Proof.core n t := by
  have hstep : Sys2Proof.core.step s = .next t := h
  simp only [Host.Core.run, hstep]

/-- As many steps as the host presents words take the words off the list and run their commands. -/
theorem run_words_eq_execAll {l : List Instr} {later : List HostEvent} (hl : ∀ i ∈ l, i.WellFormed ∧ HostBlind i) {s : State}
    (hhost : s.host = (l.map encode).map HostEvent.command ++ later) :
    Host.Core.run Sys2Proof.core l.length s = execAll l { s with host := later } := by
  induction l generalizing s with
  | nil =>
    obtain rfl : s.host = later := hhost
    rfl
  | cons i l ih =>
    obtain ⟨⟨hwf, hblind⟩, hl⟩ := List.forall_mem_cons.1 hl
    obtain ⟨t, ht⟩ := exec_completes i s
    have hstep : step s = .next { t with host := (l.map encode).map HostEvent.command ++ later } := by
      rw [step_command (decodeEncodeAgree i hwf) hhost]
      exact hblind s t _ ht
    rw [List.length_cons, run_succ_of_step hstep, ih hl rfl, execAll, hblind s t later ht]

/-! ### NOTE.ON (R264, 30_encoding.md R102) -/

/-- The commands of `NOTE.ON p, key, f, rate`, in the order R102 lists them. -/
def noteOnCommands (p : VoiceParams) (key : BitVec 7) (f : BitVec 32) (rate : BitVec 20) : List Instr :=
  voiceLoadCommands p key ++ [Instr.sgSetfreq f rate]

/-- Every word of a NOTE.ON decodes, and none of its commands looks at the list. -/
theorem noteOnCommands_wellFormed_hostBlind (p : VoiceParams) (key : BitVec 7) (f : BitVec 32) (rate : BitVec 20) :
    ∀ i ∈ noteOnCommands p key f rate, i.WellFormed ∧ HostBlind i := by
  simp [noteOnCommands, voiceLoadCommands, Instr.WellFormed, Instr.wellFormed, hostBlind_opInit, hostBlind_sgConfig, hostBlind_sgSetfreq]

/-- Six steps, one for each word, run the commands as R102 lists them, whatever the order of the VOICE.LOAD. -/
theorem run_noteOn {p : VoiceParams} {key : BitVec 7} {f : BitVec 32} {rate : BitVec 20} {ws : List Command} {s : State}
    {later : List HostEvent} (hws : Expansion (.noteOn p key f rate) ws) (hhost : s.host = ws.map HostEvent.command ++ later) :
    Host.Core.run Sys2Proof.core 6 s = execAll (noteOnCommands p key f rate) { s with host := later } := by
  obtain ⟨load, hload, rfl⟩ := hws
  have hperm : (load ++ [Instr.sgSetfreq f rate]).Perm (noteOnCommands p key f rate) := hload.append_right _
  have hrun := run_words_eq_execAll (fun i hi => noteOnCommands_wellFormed_hostBlind p key f rate i (hperm.mem_iff.1 hi)) hhost
  rw [hperm.length_eq, execAll_append_congr (execAll_voiceLoad hload _)] at hrun
  exact hrun

/-- Construction writes every register of the unit (41_envelope.md R148), so it makes of any unit what it makes of a reset one. -/
theorem egInit_egAt (c : Config) (rar rdr rsr rrr : BitVec 6) (sl : BitVec 4) (tl : BitVec 7) (s : State) (e : OpId) :
    egInit c rar rdr rsr rrr sl tl (s.egAt e) = egInit c rar rdr rsr rrr sl tl Eg.reset := rfl

/-- The block after the commands of a VOICE.LOAD. -/
def voiceLoaded (p : VoiceParams) (key : BitVec 7) (s : State) : State :=
  let construct (o : OpId) (q : OpParams) (s : State) : State := respond 0 (opInitAt o q key s)
  respond 0 (sgConfigure p.alg p.fb p.lfo
    (construct .op4 p.op4 (construct .op3 p.op3 (construct .op2 p.op2 (construct .op1 p.op1 s)))))

theorem execAll_voiceLoad_eq (p : VoiceParams) (key : BitVec 7) (s : State) :
    execAll (voiceLoadCommands p key) s = .next (voiceLoaded p key s) := rfl

@[simp] theorem host_voiceLoaded (p : VoiceParams) (key : BitVec 7) (s : State) : (voiceLoaded p key s).host = s.host := by
  simp [voiceLoaded, sgConfigure, opInitAt_eq]

@[simp] theorem cfg_voiceLoaded (p : VoiceParams) (key : BitVec 7) (s : State) : (voiceLoaded p key s).cfg = s.cfg := by
  simp [voiceLoaded, sgConfigure, opInitAt_eq]

theorem egAt_voiceLoaded_st (p : VoiceParams) (key : BitVec 7) (s : State) (e : OpId) :
    ((voiceLoaded p key s).egAt e).st = .attack := by cases e <;> rfl

/-- R264: a VOICE.LOAD writes every unit, so of the block before it only the configuration and the host's list count. -/
theorem voiceLoaded_congr (p : VoiceParams) (key : BitVec 7) {s s' : State} (hcfg : s.cfg = s'.cfg) (hhost : s.host = s'.host) :
    voiceLoaded p key s = voiceLoaded p key s' := by
  have hc : s.config = s'.config := congrArg configOf hcfg
  refine State.ext_at (fun u => ?_) (fun e => ?_) (fun o => ?_) ?_ rfl (by simpa using hhost) (by simpa using hcfg)
  · cases u <;> simp [voiceLoaded, sgConfigure, opInitAt_eq, OpId.osc]
  · cases e <;> simp [voiceLoaded, sgConfigure, opInitAt_eq, hc, egInit_egAt]
  · cases o <;> simp [voiceLoaded, sgConfigure, opInitAt_eq]
  · simp [voiceLoaded, sgConfigure]

theorem execAll_noteOn_eq (p : VoiceParams) (key : BitVec 7) (f : BitVec 32) (rate : BitVec 20) (s : State) :
    execAll (noteOnCommands p key f rate) s = .next (respond 0 (sgSetFreq (q16 f) rate (voiceLoaded p key s))) :=
  execAll_append.2 ⟨_, execAll_voiceLoad_eq p key s, rfl⟩

/-- Settles O57: both blocks run the same commands, and the VOICE.LOAD among them leaves both in one state. -/
theorem noteOnForgetsThePast : Obligations.NoteOnForgetsThePast := fun p key f rate ws ws' s s' later hcfg hws hws' hhost hhost' => by
  have hloaded : voiceLoaded p key { s with host := later } = voiceLoaded p key { s' with host := later } :=
    voiceLoaded_congr p key hcfg rfl
  rw [run_noteOn hws hhost, run_noteOn hws' hhost', execAll_noteOn_eq, execAll_noteOn_eq, hloaded]
  refine ⟨_, rfl, rfl, by simp, fun e => ?_⟩
  rw [egAt_respond, egAt_sgSetFreq]
  exact ⟨egAt_voiceLoaded_st p key _ e, rfl⟩

end Sys2Proof.Machine
end
